-- ==== Sys2Proof/Word.lean ====
section
/-! DEFINITION. The word types of the BitCursor block: a byte of the source (R40) and a 64-bit command word (R60). -/

namespace Sys2Proof

/-- One byte of the byte source; bit 0 is the least significant bit (R6). -/
abbrev Byte := BitVec 8

/-- One command word: `op` in bits 63:56, `imm` in bits 55:0 (R60). -/
abbrev CmdWord := BitVec 64

end Sys2Proof
end

