-- ==== Sys2Proof/Syntax.lean ====
section
/-! DEFINITION. The nine commands (R62), one constructor per row of spec/opcode_table.json, with their operands as the
assembler writes them (R61, R65): counts and codes are natural numbers, a skip distance is a signed integer. Which
operands a command word can hold is WellFormed's matter. -/

namespace Sys2Proof

inductive Instr where
  /-- `READBITS n` (R81) -/
  | readBits (n : Nat)
  /-- `ALIGN` (R84) -/
  | align
  /-- `SKIPBYTES k` (R86) -/
  | skipBytes (k : Int)
  /-- `POSITION` (R87) -/
  | position
  /-- `FINDSYNC` (R100) -/
  | findSync
  /-- `DECHDR` (R110) -/
  | decHdr
  /-- `FLEN` (R140) -/
  | fLen
  /-- `DECL1` (R150) -/
  | decL1
  /-- `REQUANT code, alloc, scf` (R161) -/
  | requant (code alloc scf : Nat)
  deriving DecidableEq, Repr

end Sys2Proof
end

