-- ==== Sys2Proof/WellFormed.lean ====
section
/-! DEFINITION. Which instructions a command word can hold: every operand within the width its immediate field has
(R61). An operand that fits its field and is still out of a command's contract (`READBITS 65`, `REQUANT 0x10, 3, 1`) is
well formed: the command itself refuses it (R81, R161). -/

namespace Sys2Proof

/-- Every operand fits its field of the immediate (R61). -/
def Instr.wellFormed : Instr → Bool
  | .readBits n => decide (n < 2 ^ 7)
  | .align => true
  | .skipBytes k => decide (-(2 ^ 55 : Int) ≤ k) && decide (k < 2 ^ 55)
  | .position => true
  | .findSync => true
  | .decHdr => true
  | .fLen => true
  | .decL1 => true
  | .requant code alloc scf => decide (code < 2 ^ 16) && decide (alloc < 2 ^ 4) && decide (scf < 2 ^ 6)

end Sys2Proof
end

