-- ==== Sys2Proof/Decode.lean ====
section
/-! DEFINITION. Decoding a command word, total on all 2^64 words, and encoding an instruction (R60 to R64). A word that
is no command is rejected by name: `badOpcode` when `op` is not one of the nine (R63 (a)), `badOperand` when a bit that
must be zero is one (R63 (b)). -/

namespace Sys2Proof

/-- Why a word is no command (R63). -/
inductive Reject where
  /-- `op` names no command -/
  | badOpcode
  /-- a must-be-zero bit of the immediate is 1 -/
  | badOperand
  deriving DecidableEq, Repr

/-- The nine rows of the opcode map (R62). -/
inductive Opcode where
  | readBits | align | skipBytes | position | findSync | decHdr | fLen | decL1 | requant
  deriving DecidableEq, Repr

/-- All nine rows, in the order of R62. -/
def allOpcodes : List Opcode :=
  [.readBits, .align, .skipBytes, .position, .findSync, .decHdr, .fLen, .decL1, .requant]

/-- The `op` column of R62. -/
def opByte : Opcode → Byte
  | .readBits => 0x01
  | .align => 0x02
  | .skipBytes => 0x03
  | .position => 0x04
  | .findSync => 0x10
  | .decHdr => 0x11
  | .fLen => 0x12
  | .decL1 => 0x20
  | .requant => 0x21

/-- The `match` column of R62. -/
def opMatch : Opcode → CmdWord
  | .readBits => 0x0100000000000000
  | .align => 0x0200000000000000
  | .skipBytes => 0x0300000000000000
  | .position => 0x0400000000000000
  | .findSync => 0x1000000000000000
  | .decHdr => 0x1100000000000000
  | .fLen => 0x1200000000000000
  | .decL1 => 0x2000000000000000
  | .requant => 0x2100000000000000

/-- The `mask` column of R62. -/
def opMask : Opcode → CmdWord
  | .readBits => 0xFFFFFFFFFFFFFF80
  | .align => 0xFFFFFFFFFFFFFFFF
  | .skipBytes => 0xFF00000000000000
  | .position => 0xFFFFFFFFFFFFFFFF
  | .findSync => 0xFFFFFFFFFFFFFFFF
  | .decHdr => 0xFFFFFFFFFFFFFFFF
  | .fLen => 0xFFFFFFFFFFFFFFFF
  | .decL1 => 0xFFFFFFFFFFFFFFFF
  | .requant => 0xFFFFFFFFFC000000

/-- The field `op` of a command word, bits 63:56 (R60). -/
def opField (w : CmdWord) : Byte := w.extractLsb' 56 8

/-- The row of R62 whose `op` a byte is; none for a byte that names no command. -/
def opcodeOf (op : Byte) : Option Opcode := allOpcodes.find? (fun o => opByte o == op)

/-- Immediate assembly per command (R61): `n` is imm[6:0], `k` is sext_56(imm), `code` is imm[15:0], `alloc` imm[19:16],
`scf` imm[25:20]. -/
def operandsOf (o : Opcode) (w : CmdWord) : Instr :=
  match o with
  | .readBits => .readBits (w.extractLsb' 0 7).toNat
  | .align => .align
  | .skipBytes => .skipBytes (w.extractLsb' 0 56).toInt
  | .position => .position
  | .findSync => .findSync
  | .decHdr => .decHdr
  | .fLen => .fLen
  | .decL1 => .decL1
  | .requant => .requant (w.extractLsb' 0 16).toNat (w.extractLsb' 16 4).toNat (w.extractLsb' 20 6).toNat

/-- Decode a command word: the opcode first, then the must-be-zero bits by the row's mask and match (R63, R205). -/
def decode (w : CmdWord) : Except Reject Instr :=
  match opcodeOf (opField w) with
  | none => .error .badOpcode
  | some o => if w &&& opMask o = opMatch o then .ok (operandsOf o w) else .error .badOperand

/-- A command word from its two fields (R60). -/
def cmdWord (o : Opcode) (imm : BitVec 56) : CmdWord := opByte o ++ imm

/-- The word of a well-formed instruction (R60 to R62). -/
def encode : Instr → CmdWord
  | .readBits n => cmdWord .readBits (BitVec.ofNat 56 n)
  | .align => cmdWord .align 0
  | .skipBytes k => cmdWord .skipBytes (BitVec.ofInt 56 k)
  | .position => cmdWord .position 0
  | .findSync => cmdWord .findSync 0
  | .decHdr => cmdWord .decHdr 0
  | .fLen => cmdWord .fLen 0
  | .decL1 => cmdWord .decL1 0
  | .requant code alloc scf =>
    cmdWord .requant ((0 : BitVec 30) ++ BitVec.ofNat 6 scf ++ BitVec.ofNat 4 alloc ++ BitVec.ofNat 16 code)

/-- A command word whose low `nbits` bits are those of `w` and whose other bits are 0, numbered as
spec/opcode_table.json numbers them: bit 0 is the least significant bit of the command word (R6, R60). -/
def tableWord (nbits w : Nat) : CmdWord := BitVec.ofNat 64 (w % 2 ^ nbits)

/-- The host's question: which instruction the decoder reads from an opcode-table word. A command word has 64 bits
(R64), so a longer one is none. -/
def decodeTableWord (nbits w : Nat) : Option Instr :=
  if nbits ≤ 64 then
    match decode (tableWord nbits w) with
    | .ok i => some i
    | .error _ => none
  else none

end Sys2Proof
end

