-- ==== Sys2Proof/Config.lean ====
section
/-! DEFINITION. What the spec takes as parameters of the block (R5) besides the run's own `SRC`, `LEN` and `SRC_ERR`, with
the types they need: the four closed
enumerations of a header (R21), the decoded header (R20), the Layer I register arrays (R24 to R26), the configuration record,
and the FREE VALUES of the registers the spec leaves unspecified (R20, R27, U10, U11). The default
configuration stands in Machine/Tables.lean. -/

namespace Sys2Proof

/-- `HDR.VERSION` (R20): the three variants, never a reserved code (R21). -/
inductive Version where
  | mpeg1 | mpeg2 | mpeg25
  deriving DecidableEq, Repr, Inhabited

/-- `HDR.LAYER` (R20): the three variants, never a reserved code (R21). -/
inductive Layer where
  | layer1 | layer2 | layer3
  deriving DecidableEq, Repr, Inhabited

/-- `HDR.MODE` (R20): the four channel modes. -/
inductive Mode where
  | stereo | jointStereo | dualChannel | singleChannel
  deriving DecidableEq, Repr, Inhabited

/-- `HDR.EMPHASIS` (R20): the three variants, never a reserved code (R21). -/
inductive Emphasis where
  | none | microseconds5015 | ccittJ17
  deriving DecidableEq, Repr, Inhabited

/-- The version class that selects a bitrate table (R117, glossary). -/
inductive VersionClass where
  | mpeg1 | mpeg2or25
  deriving DecidableEq, Repr, Inhabited

/-- The 13 fields of `HDR` (R20). The valid flag stands beside it in State. -/
structure Header where
  version : Version
  layer : Layer
  prot : Bool
  /-- kbit/s, 9 bits -/
  bitrate : BitVec 9
  /-- hertz, 16 bits -/
  freq : BitVec 16
  padded : Bool
  mode : Mode
  /-- the raw 2-bit index, stored whatever the mode -/
  modeExt : BitVec 2
  iStereo : Bool
  msStereo : Bool
  copyright : Bool
  original : Bool
  emphasis : Emphasis
  deriving DecidableEq, Repr, Inhabited

/-- `ALLOC[ch][sb]`, 4 bits each (R24). -/
abbrev AllocArray := Vector (Vector (BitVec 4) 32) 2

/-- `SCF[ch][sb]`, 6 bits each (R25). -/
abbrev ScfArray := Vector (Vector (BitVec 6) 32) 2

/-- `SAMP[ch][sb][t]`, 32 bits each, two's complement (R26). -/
abbrev SampArray := Vector (Vector (Vector (BitVec 32) 12) 32) 2

/-- The parameters of R5 that belong to the block (`SRC`, `LEN` and `SRC_ERR` belong to a run and stand in State). `none`
of a code table is the code the spec calls RESERVED; an index past the end of a value table has no entry and is reserved
(R112, R117, R118). A width is at most its default, which is the width the register has in State (log entry 11). -/
structure Config where
  /-- `XLEN_ACC`, the width of `ACC` in bits (D6) -/
  xlenAcc : Nat
  /-- `XLEN_POS`, the width of `POS` and `RES` in bits (D6) -/
  xlenPos : Nat
  /-- `CMDLEN`, the width of a command word in bits (D2) -/
  cmdLen : Nat
  /-- `SAMP_W`, the width of a requantized sample in bits, two's complement (D26) -/
  sampW : Nat
  /-- `REFILL`: how many bytes a refill for a field of `n` bits fetches when `cnt` bits are buffered (D7) -/
  refill : (n cnt : Nat) → Nat
  /-- `VERSION_DEC` (R113) -/
  versionDec : BitVec 2 → Option Version
  /-- `LAYER_DEC` (R114) -/
  layerDec : BitVec 2 → Option Layer
  /-- `MODE_DEC` (R115) -/
  modeDec : BitVec 2 → Mode
  /-- `EMPH_DEC` (R116) -/
  emphDec : BitVec 2 → Option Emphasis
  /-- `BITRATE_TAB`, kbit/s (R117) -/
  bitrateTab : VersionClass → Layer → List Nat
  /-- `FREQ_TAB`, hertz (R118) -/
  freqTab : Version → List Nat
  /-- `REQ(code, alloc, scf)` (R160) -/
  req : Nat → Nat → Nat → Int

/-- FREE VALUE (log entry 5): what the `HDR` fields hold once `HDR.VALID` has become 0 by a `DECHDR` that ended `INVHDR`
(R20: "While 0, every other HDR field is unspecified"). Its argument is State's counter `draws`. -/
opaque Config.freeHeader : Nat → Header

/-- FREE VALUE (log entry 6): what `ALLOC` holds once `L1VALID` has become 0 by a command (R27). -/
opaque Config.freeAlloc : Nat → AllocArray

/-- FREE VALUE (log entry 6): what `SCF` holds once `L1VALID` has become 0 by a command (R27). -/
opaque Config.freeScf : Nat → ScfArray

/-- FREE VALUE (log entry 6): what `SAMP` holds once `L1VALID` has become 0 by a command (R27). -/
opaque Config.freeSamp : Nat → SampArray

end Sys2Proof
end

