-- ==== Sys2Proof/Machine/State.lean ====
section
/-! DEFINITION. The state of the BitCursor block, every piece the spec gives it (10_state.md), as plain data; beside the
registers it holds the run's parameters `SRC`, `LEN`, `SRC_ERR` (R5, R29) and what the host will do next (R9, R180). -/

namespace Sys2Proof.Machine

/-- Which header check failed: the `REASON` of `INVHDR` (R19, R112). -/
inductive HdrReason where
  | version | layer | bitrate | frequency | emphasis
  deriving DecidableEq, Repr

/-- Which contract was broken: the `REASON` of `CONTRACT` (R19, R208). -/
inductive ContractReason where
  | badOpcode | badOperand | unaligned | noHeader | badSkip
  deriving DecidableEq, Repr

/-- The exceptions a command can raise (R200). `NoSync` is no raise: it is a completion (R201, R202). -/
inductive Exn where
  | endOfStream
  | invalidHeader (r : HdrReason)
  | contract (c : ContractReason)
  | ioFailure
  deriving DecidableEq, Repr

/-- How the last command ended: the registers `STATUS` and `REASON` (R18, R19) held as one value, so that the codes the
spec says are never held (U28) cannot be written. Their bits are read by `State.status` and `State.reason`. -/
inductive Completion where
  | ok
  | eos
  | noSync
  | invHdr (r : HdrReason)
  | contract (c : ContractReason)
  | ioFail
  deriving DecidableEq, Repr

/-- The bytes of the source, listed by address in one canonical form (`Memory.wf`): addresses strictly rising, no
byte listed that an unlisted address reads as. -/
abbrev Memory := List Host.Cell

/-- The byte source of a run (R5, R40, R41): `SRC` and `LEN`, and the addresses that answer `ERR` (`SRC_ERR`), strictly
rising. -/
structure Source where
  cells : Memory
  len : Nat
  errs : List Nat
  deriving DecidableEq, Repr

/-- What the host can do to the block between two commands (R180, R230, R231). -/
inductive HostAction where
  /-- present one command word (R9, R60) -/
  | command (w : CmdWord)
  /-- apply reset, the source unchanged (R230) -/
  | reset
  /-- change the source and apply reset: the start of another run (R231) -/
  | startRun (src : Source)
  deriving DecidableEq, Repr

/-- The state of the block. -/
structure State where
  /-- `ACC` (R12) -/
  acc : BitVec 64
  /-- `CNT` (R13) -/
  cnt : BitVec 6
  /-- `POS` (R14) -/
  pos : BitVec 64
  /-- `RES` (R17) -/
  res : BitVec 64
  /-- `STATUS` and `REASON` (R18, R19) -/
  ended : Completion
  /-- `ERRS` (R23) -/
  errs : BitVec 6
  /-- `HDR.VALID` (R20) -/
  hdrValid : Bool
  /-- the 13 other fields of `HDR` (R20) -/
  hdr : Header
  /-- `L1VALID` (R27) -/
  l1Valid : Bool
  /-- `ALLOC` (R24) -/
  alloc : AllocArray
  /-- `SCF` (R25) -/
  scf : ScfArray
  /-- `SAMP` (R26) -/
  samp : SampArray
  /-- the run's `SRC`, `LEN` and `SRC_ERR` (R5): fixed for a run (R40) -/
  src : Source
  /-- what the host will do next, in order: each is taken when the one before has ended (R247). The model's own field
  (log entry 2). -/
  inputs : List HostAction
  /-- how many free values have been drawn. The model's own field (log entries 5 and 6). -/
  draws : Nat
  deriving DecidableEq, Repr

/-- The empty source: `LEN = 0`, no `ERR` address. -/
def Source.empty : Source := { cells := [], len := 0, errs := [] }

/-- What the `HDR` fields hold at reset, where the spec gives no value (R30): code 0 of each. DESIGN CHOICE (log entry 3). -/
def Header.reset : Header :=
  { version := .mpeg1, layer := .layer1, prot := false, bitrate := 0, freq := 0, padded := false, mode := .stereo,
    modeExt := 0, iStereo := false, msStereo := false, copyright := false, original := false, emphasis := .none }

/-- Right after reset (R30, R230): the cursor at address 0 with nothing buffered, status and valid flags clear. The
header fields and the Layer I arrays, which R30 leaves unspecified, hold 0 (DESIGN CHOICE, log entry 3). The source is
an argument of the run (R5): here the empty one, and the host has asked for nothing (log entry 2). -/
def State.reset : State :=
  { acc := 0, cnt := 0, pos := 0, res := 0, ended := .ok, errs := 0,
    hdrValid := false, hdr := Header.reset, l1Valid := false,
    alloc := Vector.replicate 2 (Vector.replicate 32 0),
    scf := Vector.replicate 2 (Vector.replicate 32 0),
    samp := Vector.replicate 2 (Vector.replicate 32 (Vector.replicate 12 0)),
    src := Source.empty, inputs := [], draws := 0 }

/-- Why the machine stops with a fault. It has no constructor: every way a command of this block can end is a status
code in a next state (R201), and nothing in the spec stops the block. -/
inductive Fault where
  deriving DecidableEq, Repr

/-- Why the machine refuses to go on. -/
inductive Refusal where
  /-- An instruction that has no meaning yet, by its mnemonic. Raised by `exec`'s arms only; no arm raises it now. Safe:
  the model stops where the block goes on. -/
  | notModelled (mnemonic : String)
  /-- The host starts a run on something that is no byte source: `LEN` not below 2^63 (R5, D38), or a list that is not in
  canonical form. Raised by `startRun`, never by a command. Safe: the spec gives such a run no meaning (log entry 7). -/
  | illegalSource
  deriving DecidableEq, Repr

/-- The outcome of a command or a step. -/
abbrev Result := Host.Outcome State Fault Refusal

end Sys2Proof.Machine
end

