-- ==== Sys2Proof/Machine/Source.lean ====
section
/-! DEFINITION. The byte source (20_memory.md): its canonical form, what one address answers (R41), the seek, and the
stream of bits its bytes make (R7). The block only reads the source; no operation writes it (R40). -/

namespace Sys2Proof.Machine

/-- The byte an unlisted address below `LEN` stands for. Every finite byte sequence has exactly one canonical list, in
which its zero bytes are the unlisted ones (log entry 7). -/
def unlistedByte : Byte := 0

/-- The byte at an address: the listed one, or `unlistedByte`. -/
def Memory.read : Memory → Nat → Byte
  | [], _ => unlistedByte
  | (b, v) :: rest, a => if a = b then v else Memory.read rest a

/-- Strictly rising. -/
def rising : List Nat → Bool
  | [] => true
  | [_] => true
  | a :: b :: rest => decide (a < b) && rising (b :: rest)

/-- The canonical form: addresses strictly rising, no entry equal to what an unlisted address reads as. -/
def Memory.wf (m : Memory) : Bool := rising (m.map Prod.fst) && m.all (fun c => c.2 != unlistedByte)

/-- The canonical list of a byte sequence that begins at address `a`. -/
def Memory.load (a : Nat) : List Byte → Memory
  | [] => []
  | b :: rest => if b = unlistedByte then Memory.load (a + 1) rest else (a, b) :: Memory.load (a + 1) rest

/-- Put an address into a strictly rising list of addresses. -/
def insertAddr (a : Nat) : List Nat → List Nat
  | [] => [a]
  | b :: rest => if a < b then a :: b :: rest else if a = b then b :: rest else b :: insertAddr a rest

/-- The source made of a byte sequence and the addresses that answer `ERR` (R5). -/
def Source.ofBytes (bytes : List Byte) (errs : List Nat) : Source :=
  { cells := Memory.load 0 bytes, len := bytes.length, errs := errs.foldr insertAddr [] }

/-- A source as R5 asks for one: `0 <= LEN < 2^63`, its bytes at addresses below `LEN`, and everything in canonical
form. -/
def Source.wf (src : Source) : Bool :=
  Memory.wf src.cells && src.cells.all (fun c => decide (c.1 < src.len)) && rising src.errs && decide (src.len < 2 ^ 63)

/-- `SRC[a]` (R40). -/
def Source.byteAt (src : Source) (a : Nat) : Byte := Memory.read src.cells a

/-- What the source port answers to a one-byte read (R41). -/
inductive MemReply where
  | err
  | byte (b : Byte)
  | atEnd
  deriving DecidableEq, Repr

/-- `MemRead(a, 1)`: `ERR` if `a` is in `SRC_ERR`, else the byte if `a < LEN`, else `END`, tested in this order (R41). -/
def Source.memRead (src : Source) (a : Nat) : MemReply :=
  if a ∈ src.errs then .err else if a < src.len then .byte (src.byteAt a) else .atEnd

/-- The port's answer to a seek to address `t`: whether it succeeds; it answers `END` when `t > LEN`, and `SRC_ERR` plays
no part (R41, R85). -/
def Source.seekOk (src : Source) (t : Nat) : Bool := decide (t ≤ src.len)

/-- `StreamBit(i) = SRC[i div 8][7 - (i mod 8)]` (R7). -/
def Source.streamBit (src : Source) (i : Nat) : Bool := (src.byteAt (i / 8)).getLsbD (7 - i % 8)

/-- The field of `n` stream bits that starts at bit `i`: the first bit is the most significant one (R7). -/
def Source.field (src : Source) (i : Nat) : Nat → Nat
  | 0 => 0
  | n + 1 => 2 * Source.field src i n + (src.streamBit (i + n)).toNat

end Sys2Proof.Machine
end

