-- ==== Sys2Proof/Machine/Flags.lean ====
section
/-! DEFINITION. The status registers: the codes of `STATUS` and `REASON` (R18, R19, R200) and the sticky `ERRS` (R23).
The block has no arithmetic flags (R190). -/

namespace Sys2Proof.Machine

/-- The completion an exception ends a command with (R200, R201). -/
def Exn.completion : Exn → Completion
  | .endOfStream => .eos
  | .invalidHeader r => .invHdr r
  | .contract c => .contract c
  | .ioFailure => .ioFail

/-- The code of `STATUS` (R18, R200). -/
def statusCode : Completion → Nat
  | .ok => 0
  | .eos => 1
  | .noSync => 2
  | .invHdr _ => 3
  | .contract _ => 4
  | .ioFail => 5

/-- The sub-code of an `InvalidHeader` (R19). -/
def hdrReasonCode : HdrReason → Nat
  | .version => 1
  | .layer => 2
  | .bitrate => 3
  | .frequency => 4
  | .emphasis => 5

/-- The sub-code of a `ContractViolation` (R19, R208). -/
def contractReasonCode : ContractReason → Nat
  | .badOpcode => 1
  | .badOperand => 2
  | .unaligned => 3
  | .noHeader => 4
  | .badSkip => 5

/-- The code of `REASON`: the sub-code of `INVHDR` and of `CONTRACT`, otherwise 0 (R19). -/
def reasonCode : Completion → Nat
  | .invHdr r => hdrReasonCode r
  | .contract c => contractReasonCode c
  | _ => 0

/-- The register `STATUS`, 4 bits (R18). -/
def State.status (s : State) : BitVec 4 := BitVec.ofNat 4 (statusCode s.ended)

/-- The register `REASON`, 3 bits (R19). -/
def State.reason (s : State) : BitVec 3 := BitVec.ofNat 3 (reasonCode s.ended)

/-- `ERRS` after a command that ends with completion `c`: bit `code(c)` is set when the code is not 0, and no bit is
cleared (R23, R201). -/
def errsAfter (errs : BitVec 6) (c : Completion) : BitVec 6 :=
  if statusCode c = 0 then errs else errs ||| (1#6 <<< statusCode c)

/-- Halted: `ERRS[5] = 1` (R23, R206). -/
def State.halted (s : State) : Bool := s.errs.getLsbD 5

end Sys2Proof.Machine
end

