-- ==== Sys2Proof/Machine/Ops.lean ====
section
/-! DEFINITION. The shared operations of the commands: how a command ends, taking an exception among the ways (R201); the
common prologue (R205); the register widths; the two micro-operations `ReadField` (R80) and `Skip` (R85); loops over
fields; and what becomes of registers that turn unspecified (R20, R27). -/

namespace Sys2Proof.Machine

/-! ## How a command ends (R201) -/

/-- Write `STATUS`, `REASON` and `ERRS`; nothing else happens (R201). -/
def finish (c : Completion) (s : State) : State := { s with ended := c, errs := errsAfter s.errs c }

/-- `end OK`. -/
def endOk (s : State) : State := finish .ok s

/-- TAKING AN EXCEPTION: `raise X(info)`. No register is saved, no mode changes, no handler is entered, and nothing is
rolled back (R201, R211); there is no return from an exception but the next command. -/
def raise (x : Exn) (s : State) : State := finish x.completion s

/-- What the halted block does with any command word: `STATUS <- 5`, `REASON <- 0`, nothing else (R205, R206). -/
def endHalted (s : State) : State := { s with ended := .ioFail }

/-- The common prologue before a command's own rule: the halted test (R205). Its encoding tests are made where a word is
decoded (`rejectWord`). -/
def prologue (s : State) (rule : State → State) : Result := .next (if s.halted then endHalted s else rule s)

/-- The exception of an illegal word (R63, R205). -/
def rejectExn : Reject → Exn
  | .badOpcode => .contract .badOpcode
  | .badOperand => .contract .badOperand

/-- What the block does with a word that is no command: after the halted test, `CONTRACT` and nothing else (R205). -/
def rejectWord (r : Reject) (s : State) : Result := prologue s (raise (rejectExn r))

/-! ## Registers of the width the parameters say (R5; log entry 11)

State holds each register at its default width; a block with a smaller parameter keeps the low bits of it. -/

/-- A value as `ACC` holds it, `XLEN_ACC` bits. -/
def accWord (c : Config) (v : Nat) : BitVec 64 := BitVec.ofNat 64 (v % 2 ^ c.xlenAcc)

/-- A value as `POS` and `RES` hold it, `XLEN_POS` bits. -/
def posWord (c : Config) (v : Nat) : BitVec 64 := BitVec.ofNat 64 (v % 2 ^ c.xlenPos)

/-- A requantized value as an entry of `SAMP` holds it, `SAMP_W` bits in two's complement (R26). -/
def sampWord (c : Config) (r : Int) : BitVec 32 := (BitVec.ofInt c.sampW r).signExtend 32

/-- A requantized value as `RES` holds it: `SAMP_W` bits, sign-extended to `XLEN_POS` bits (R161). -/
def resOfSample (c : Config) (r : Int) : BitVec 64 := ((BitVec.ofInt c.sampW r).signExtend c.xlenPos).setWidth 64

/-! ## The cursor (R13 to R16) -/

/-- `BP = 8*POS - CNT`, the index of the next stream bit (R16). -/
def State.bp (s : State) : Nat := 8 * s.pos.toNat - s.cnt.toNat

/-- The byte-aligned cursor: `CNT mod 8 = 0` (R13). -/
def State.aligned (s : State) : Bool := s.cnt.toNat % 8 == 0

/-- How many bytes a refill fetches for a field of `n` bits: the least number that suffices, `ceil((n - CNT)/8)`, none
when the buffer holds enough (R80, R82): the default of the parameter `REFILL` (R5). -/
def refillBytes (n cnt : Nat) : Nat := (n - cnt + 7) / 8

/-- The addresses a `ReadField(n)` reads: `POS`, `POS+1`, ..., once each, in this order (R44). -/
def fetchAddrs (c : Config) (n : Nat) (s : State) : List Nat :=
  (List.range (c.refill n s.cnt.toNat)).map (s.pos.toNat + ·)

/-- The exception a one-byte read raises, if any (R80). -/
def replyExn : MemReply → Option Exn
  | .err => some .ioFailure
  | .byte _ => none
  | .atEnd => some .endOfStream

/-- Fetch the bytes at these addresses in order; the first that answers `ERR` or `END` decides (R80, R209). -/
def fetchFailure (src : Source) : List Nat → Option Exn
  | [] => none
  | a :: rest =>
    match replyExn (src.memRead a) with
    | some x => some x
    | none => fetchFailure src rest

/-- The `cnt` stream bits before byte `pos`, the oldest highest (R12); with `cnt <= 8` they are `SRC[pos-1][cnt-1:0]`
(R80), and 0 when `cnt = 0`. -/
def bufferedBits (src : Source) (pos cnt : Nat) : Nat := src.field (8 * pos - cnt) cnt

/-- The cursor at byte position `pos` with `cnt` bits of the byte before it buffered. -/
def setCursor (c : Config) (pos cnt : Nat) (s : State) : State :=
  { s with pos := posWord c pos, cnt := BitVec.ofNat 6 cnt, acc := accWord c (bufferedBits s.src pos cnt) }

/-- `ReadField(n)` (R80): all-or-nothing; the value of the next `n` stream bits and the state with the cursor moved by
exactly `n` bits, or the exception it raises with no register changed. -/
def readField (c : Config) (n : Nat) (s : State) : Except Exn (Nat × State) :=
  match fetchFailure s.src (fetchAddrs c n s) with
  | some x => .error x
  | none =>
    let k := c.refill n s.cnt.toNat
    .ok (s.src.field s.bp n, setCursor c (s.pos.toNat + k) (s.cnt.toNat + 8 * k - n) s)

/-- `Skip(k)` (R85): drop the buffer and move the source position by `k` bytes, in exact integer arithmetic;
all-or-nothing. -/
def skip (c : Config) (k : Int) (s : State) : Except Exn State :=
  let t : Int := s.pos.toNat + k
  if t < 0 then .error (.contract .badSkip)
  else if s.src.seekOk t.toNat then .ok (setCursor c t.toNat 0 s)
  else .error .endOfStream

/-! ## Loops of micro-operations -/

/-- The outcome of a stretch of micro-operations inside one command: it ran to its end, or one raised; either way the
state holds what was written until then (R201). -/
inductive Micro where
  | done (s : State)
  | raised (x : Exn) (s : State)
  deriving DecidableEq, Repr

/-- Go on with the next stretch unless this one raised. -/
def Micro.andThen (m : Micro) (f : State → Micro) : Micro :=
  match m with
  | .done s => f s
  | .raised x s => .raised x s

/-- Run `f` for each element in order, until one raises. -/
def forEach {α : Type} (f : α → State → Micro) : List α → State → Micro
  | [], s => .done s
  | x :: rest, s => (f x s).andThen (forEach f rest)

/-- Read a field of `n` bits and hand its value to `store`. -/
def readInto (c : Config) (n : Nat) (store : Nat → State → State) (s : State) : Micro :=
  match readField c n s with
  | .error x => .raised x s
  | .ok (v, s') => .done (store v s')

/-! ## Registers that turn unspecified -/

/-- `ALLOC`, `SCF` and `SAMP` become unspecified: free values (R27; log entry 6). -/
def forgetLayer1 (s : State) : State :=
  { s with alloc := Config.freeAlloc s.draws, scf := Config.freeScf s.draws, samp := Config.freeSamp s.draws,
           draws := s.draws + 1 }

/-- The 13 fields of `HDR` become unspecified: free values (R20; log entry 5). -/
def forgetHeader (s : State) : State := { s with hdr := Config.freeHeader s.draws, draws := s.draws + 1 }

end Sys2Proof.Machine
end

