-- ==== Sys2Proof/Machine/Operands.lean ====
section
/-! DEFINITION. The operand forms of the commands. Three commands take operands, all immediate (R61): a field width, a
signed byte count, and the three requantizer operands. Which values a command refuses is said here (R81, R161); a skip
distance is refused by where it leads (R85). -/

namespace Sys2Proof.Machine

/-- `READBITS` refuses `n > 64` (R81). -/
def widthRefused (n : Nat) : Bool := decide (64 < n)

/-- `REQUANT` refuses `alloc = 0` and a code that does not fit `alloc + 1` bits (R161). -/
def requantRefused (code alloc : Nat) : Bool := alloc == 0 || decide (2 ^ (alloc + 1) ≤ code)

end Sys2Proof.Machine
end

