-- ==== Sys2Proof/Machine/Tables.lean ====
section
/-! DEFINITION. The constant tables of the block (R113 to R118, R121), the requantization function (R160), and the
configuration made of them, `standard`: every parameter of R5 at its default. -/

namespace Sys2Proof.Machine

/-! ## Code tables (R113 to R116). PRESUMED (log entry 4): the spec supplies them from general knowledge, but for the
reserved emphasis code. -/

/-- `VERSION_DEC` (R113). -/
def versionDec (code : BitVec 2) : Option Version :=
  match code.toNat with
  | 0 => some .mpeg25
  | 1 => none
  | 2 => some .mpeg2
  | _ => some .mpeg1

/-- `LAYER_DEC` (R114). -/
def layerDec (code : BitVec 2) : Option Layer :=
  match code.toNat with
  | 0 => none
  | 1 => some .layer3
  | 2 => some .layer2
  | _ => some .layer1

/-- `MODE_DEC` (R115). -/
def modeDec (code : BitVec 2) : Mode :=
  match code.toNat with
  | 0 => .stereo
  | 1 => .jointStereo
  | 2 => .dualChannel
  | _ => .singleChannel

/-- `EMPH_DEC` (R116). -/
def emphDec (code : BitVec 2) : Option Emphasis :=
  match code.toNat with
  | 0 => some .none
  | 1 => some .microseconds5015
  | 2 => none
  | _ => some .ccittJ17

/-! ## Value tables (R117, R118) -/

/-- `class(v)` (R119). -/
def versionClass : Version → VersionClass
  | .mpeg1 => .mpeg1
  | .mpeg2 => .mpeg2or25
  | .mpeg25 => .mpeg2or25

/-- `BITRATE_TAB`, kbit/s, index 0 to 14 (R117). -/
def bitrateTab : VersionClass → Layer → List Nat
  | .mpeg1, .layer1 => [0, 32, 64, 96, 128, 160, 192, 224, 256, 288, 320, 352, 384, 416, 448]
  | .mpeg1, .layer2 => [0, 32, 48, 56, 64, 80, 96, 112, 128, 160, 192, 224, 256, 320, 384]
  | .mpeg1, .layer3 => [0, 32, 40, 48, 56, 64, 80, 96, 112, 128, 160, 192, 224, 256, 320]
  | .mpeg2or25, .layer1 => [0, 32, 48, 56, 64, 80, 96, 112, 128, 144, 160, 176, 192, 224, 256]
  | .mpeg2or25, .layer2 => [0, 8, 16, 24, 32, 40, 48, 56, 64, 80, 96, 112, 128, 144, 160]
  | .mpeg2or25, .layer3 => [0, 8, 16, 24, 32, 40, 48, 56, 64, 80, 96, 112, 128, 144, 160]

/-- `FREQ_TAB`, hertz, index 0 to 2 (R118). -/
def freqTab : Version → List Nat
  | .mpeg1 => [44100, 48000, 32000]
  | .mpeg2 => [22050, 24000, 16000]
  | .mpeg25 => [11025, 12000, 8000]

/-! ## The requantization function (R160) -/

/-- `bitlen(v)`: 0 if `v = 0`, else the `k` with `2^(k-1) <= v < 2^k` (R8). -/
def bitlen (v : Nat) : Nat := if v = 0 then 0 else Nat.log2 v + 1

/-- The `F` of R160: the code with its highest 1 bit inverted; the mask is 0 for code 0. -/
def fractional (code : Nat) : Nat :=
  let nbits := bitlen code
  let mask := if 1 ≤ nbits then 2 ^ (nbits - 1) else 0
  code ^^^ mask

/-- The `r` of R160: `(2^b * F + 2) / (2^b - 1)` rounded to the nearest integer, where it is never a tie (R162). -/
def roundedFraction (b f : Nat) : Nat := (2 * (2 ^ b * f + 2) + (2 ^ b - 1)) / (2 * (2 ^ b - 1))

/-- `REQ(code, alloc, scf)` (R160). -/
def req (code alloc scf : Nat) : Int := (roundedFraction (alloc + 1) (fractional code) * scf : Nat)

/-- Every parameter at its default (R5). -/
def standard : Config :=
  { xlenAcc := 64, xlenPos := 64, cmdLen := 64, sampW := 32, refill := refillBytes,
    versionDec := versionDec, layerDec := layerDec, modeDec := modeDec, emphDec := emphDec,
    bitrateTab := bitrateTab, freqTab := freqTab, req := req }

end Sys2Proof.Machine
end

