-- ==== Sys2Proof/Machine/BitCursor.lean ====
section
/-! DEFINITION. The four commands of the bit cursor (40_bitcursor.md): `READBITS`, `ALIGN`, `SKIPBYTES`, `POSITION`. -/

namespace Sys2Proof.Machine

/-- The rule of `READBITS n` (R81). -/
def readBitsRule (c : Config) (n : Nat) (s : State) : State :=
  if widthRefused n then raise (.contract .badOperand) s
  else if n = 0 then endOk { s with res := 0 }
  else
    match readField c n s with
    | .error x => raise x s
    | .ok (v, s') => endOk { s' with res := posWord c v }

/-- `READBITS n` (R81). -/
def execReadBits (n : Nat) (s : State) : Result := prologue s (readBitsRule standard n)

/-- The rule of `ALIGN` (R84). -/
def alignRule (s : State) : State :=
  let d := s.cnt.toNat % 8
  endOk { s with res := if d = 0 then 1 else 0, cnt := BitVec.ofNat 6 (s.cnt.toNat - d), acc := s.acc >>> d }

/-- `ALIGN` (R84). -/
def execAlign (s : State) : Result := prologue s alignRule

/-- The rule of `SKIPBYTES k` (R86). -/
def skipBytesRule (c : Config) (k : Int) (s : State) : State :=
  match skip c k s with
  | .error x => raise x s
  | .ok s' => endOk s'

/-- `SKIPBYTES k` (R86). -/
def execSkipBytes (k : Int) (s : State) : Result := prologue s (skipBytesRule standard k)

/-- The rule of `POSITION` (R87). -/
def positionRule (s : State) : State := endOk { s with res := s.pos }

/-- `POSITION` (R87). -/
def execPosition (s : State) : Result := prologue s positionRule

end Sys2Proof.Machine
end

