-- ==== Sys2Proof/Machine/FrameLength.lean ====
section
/-! DEFINITION. The frame-length calculator (43_framelength.md): `FLEN`. -/

namespace Sys2Proof.Machine

/-- `K` of R140: 12 for Layer I, 144 otherwise. -/
def lengthFactor : Layer → Nat
  | .layer1 => 12
  | .layer2 => 144
  | .layer3 => 144

/-- The padding slot of R140: 4 bytes for Layer I, 1 otherwise. -/
def paddingSlot : Layer → Nat
  | .layer1 => 4
  | .layer2 => 1
  | .layer3 => 1

/-- The frame length of a header: the floor of the exact quotient, plus one slot when padded (R140). -/
def frameLength (h : Header) : Nat :=
  lengthFactor h.layer * 1000 * h.bitrate.toNat / h.freq.toNat + (if h.padded then paddingSlot h.layer else 0)

/-- The rule of `FLEN` (R140). -/
def fLenRule (c : Config) (s : State) : State :=
  if s.hdrValid then endOk { s with res := posWord c (frameLength s.hdr) } else raise (.contract .noHeader) s

/-- `FLEN` (R140). -/
def execFLen (s : State) : Result := prologue s (fLenRule standard)

end Sys2Proof.Machine
end

