-- ==== Sys2Proof/Machine/FrameSync.lean ====
section
/-! DEFINITION. The frame synchronizer (41_framesync.md): the pattern detector and `FINDSYNC`. -/

namespace Sys2Proof.Machine

/-- `SyncMatch(A, B)` (R101): the 11-bit sync word, a version code and a layer code that are not reserved. -/
def syncMatch (c : Config) (a b : Byte) : Bool :=
  a == 0xFF && b &&& 0xE0 == 0xE0 &&
    (c.versionDec (((b &&& 0x18) >>> 3).setWidth 2)).isSome && (c.layerDec (((b &&& 0x06) >>> 1).setWidth 2)).isSome

/-- The outcome of a scan that meets the end of the stream: `RES <- 0`, `NOSYNC` (R100, R202). -/
def endNoSync (s : State) : State := finish .noSync { s with res := 0 }

/-- The outcome of a match: rewind one byte, so that byte B is read again; `RES <- 1` (R100). -/
def endFound (c : Config) (s : State) : State :=
  match skip c (-1) s with
  | .error x => raise x s
  | .ok s' => endOk { s' with res := 1 }

/-- The exception of a read inside the scan: the end of the stream is the outcome `NOSYNC`, an I/O failure is raised
(R100). -/
def scanFailed (x : Exn) (s : State) : State :=
  match x with
  | .endOfStream => endNoSync s
  | x => raise x s

/-- The loop of `FINDSYNC` (R100): two bytes at a time, no sliding (R103). The first argument bounds the rounds; with
`scanRounds` of them it is never used up (Laws/FrameSync.lean). -/
def scan (c : Config) : Nat → State → State
  | 0, s => endNoSync s
  | rounds + 1, s =>
    match readField c 8 s with
    | .error x => scanFailed x s
    | .ok (a, s1) =>
      match readField c 8 s1 with
      | .error x => scanFailed x s1
      | .ok (b, s2) =>
        if syncMatch c (BitVec.ofNat 8 a) (BitVec.ofNat 8 b) then endFound c s2 else scan c rounds s2

/-- More rounds than a scan can take: a round uses up 16 of the at most `8*LEN + 63` bits there are. -/
def scanRounds (s : State) : Nat := s.src.len + 8

/-- The rule of `FINDSYNC` (R100). -/
def findSyncRule (c : Config) (s : State) : State :=
  if s.aligned then scan c (scanRounds s) s else raise (.contract .unaligned) s

/-- `FINDSYNC` (R100). -/
def execFindSync (s : State) : Result := prologue s (findSyncRule standard)

end Sys2Proof.Machine
end

