-- ==== Sys2Proof/Machine/HeaderDecoder.lean ====
section
/-! DEFINITION. The frame-header decoder (42_header.md): `Extract`, `Check` with `Build`, and `DECHDR`. -/

namespace Sys2Proof.Machine

/-- The raw fields of a header (R111). -/
structure RawHeader where
  vcode : BitVec 2
  lcode : BitVec 2
  bridx : BitVec 4
  fridx : BitVec 2
  pad : BitVec 1
  pbit : BitVec 1
  mcode : BitVec 2
  mext : BitVec 2
  copy : BitVec 1
  orig : BitVec 1
  ecode : BitVec 2
  deriving DecidableEq, Repr

/-- Mask, then shift (R6, R111). -/
def maskShift (b mask : Byte) (lo : Nat) : Byte := (b &&& mask) >>> lo

/-- `Extract(b1, b2, b3)` (R111). `b1[7:5]` and `b1[0]` feed no field. -/
def extract (b1 b2 b3 : Byte) : RawHeader :=
  { vcode := (maskShift b1 0x18 3).setWidth 2
    lcode := (maskShift b1 0x06 1).setWidth 2
    bridx := (maskShift b2 0xF0 4).setWidth 4
    fridx := (maskShift b2 0x0C 2).setWidth 2
    pad := (maskShift b2 0x02 1).setWidth 1
    pbit := (maskShift b2 0x01 0).setWidth 1
    mcode := (maskShift b3 0xC0 6).setWidth 2
    mext := (maskShift b3 0x30 4).setWidth 2
    copy := (maskShift b3 0x08 3).setWidth 1
    orig := (maskShift b3 0x04 2).setWidth 1
    ecode := (maskShift b3 0x03 0).setWidth 2 }

/-- `HDR.ISTEREO` (R119): under `JOINT_STEREO` bit 0 of the mode extension in Layer III, 1 in the other layers; else 0. -/
def intensityFlag (m : Mode) (l : Layer) (mext : BitVec 2) : Bool :=
  match m, l with
  | .jointStereo, .layer3 => mext.getLsbD 0
  | .jointStereo, _ => true
  | _, _ => false

/-- `HDR.MSSTEREO` (R119): under `JOINT_STEREO` bit 1 of the mode extension in Layer III; else 0. -/
def msFlag (m : Mode) (l : Layer) (mext : BitVec 2) : Bool :=
  match m, l with
  | .jointStereo, .layer3 => mext.getLsbD 1
  | _, _ => false

/-- `Check(f)` and `Build(f)` (R112, R119): the five tests in their order, the first that fails giving the reason; a header
that passes them all is built from the table entries the tests found. An index that has no entry is the reserved one. -/
def decodeFields (c : Config) (f : RawHeader) : Except HdrReason Header :=
  match c.versionDec f.vcode with
  | none => .error .version
  | some v =>
    match c.layerDec f.lcode with
    | none => .error .layer
    | some l =>
      match (c.bitrateTab (versionClass v) l)[f.bridx.toNat]? with
      | none => .error .bitrate
      | some rate =>
        match (c.freqTab v)[f.fridx.toNat]? with
        | none => .error .frequency
        | some hz =>
          match c.emphDec f.ecode with
          | none => .error .emphasis
          | some e =>
            .ok { version := v
                  layer := l
                  prot := f.pbit == 0
                  bitrate := BitVec.ofNat 9 rate
                  freq := BitVec.ofNat 16 hz
                  padded := f.pad == 1
                  mode := c.modeDec f.mcode
                  modeExt := f.mext
                  iStereo := intensityFlag (c.modeDec f.mcode) l f.mext
                  msStereo := msFlag (c.modeDec f.mcode) l f.mext
                  copyright := f.copy == 1
                  original := f.orig == 1
                  emphasis := e }

/-- The three bytes of a 24-bit field value, first byte highest (R110), decoded. -/
def decodeWindow (c : Config) (w : Nat) : Except HdrReason Header :=
  let v := BitVec.ofNat 24 w
  decodeFields c (extract (v.extractLsb' 16 8) (v.extractLsb' 8 8) (v.extractLsb' 0 8))

/-- What `DECHDR` does once it has its 3 bytes (R110): the old header and the old Layer I data are gone; then the new
header, or `INVHDR` with no valid header. -/
def loadHeader (c : Config) (w : Nat) (s : State) : State :=
  let s1 := forgetLayer1 { s with hdrValid := false, l1Valid := false }
  match decodeWindow c w with
  | .error r => raise (.invalidHeader r) (forgetHeader s1)
  | .ok h => endOk { s1 with hdr := h, hdrValid := true }

/-- The rule of `DECHDR` (R110). -/
def decHdrRule (c : Config) (s : State) : State :=
  if s.aligned then
    match readField c 24 s with
    | .error x => raise x s
    | .ok (w, s') => loadHeader c w s'
  else raise (.contract .unaligned) s

/-- `DECHDR` (R110). -/
def execDecHdr (s : State) : Result := prologue s (decHdrRule standard)

end Sys2Proof.Machine
end

