-- ==== Sys2Proof/Machine/Layer1.lean ====
section
/-! DEFINITION. The Layer I audio-data decoder and the requantizer (44_layer1.md): `DECL1` and `REQUANT`. -/

namespace Sys2Proof.Machine

/-! ## The register arrays (R24 to R26) -/

/-- `ALLOC[ch][sb] <- v` (R24). -/
def setAlloc (ch : Fin 2) (sb : Fin 32) (v : BitVec 4) (s : State) : State :=
  { s with alloc := s.alloc.set ch (s.alloc[ch].set sb v) }

/-- `SCF[ch][sb] <- v` (R25). -/
def setScf (ch : Fin 2) (sb : Fin 32) (v : BitVec 6) (s : State) : State :=
  { s with scf := s.scf.set ch (s.scf[ch].set sb v) }

/-- `SAMP[ch][sb][t] <- v` (R26). -/
def setSamp (ch : Fin 2) (sb : Fin 32) (t : Fin 12) (v : BitVec 32) (s : State) : State :=
  { s with samp := s.samp.set ch (s.samp[ch].set sb (s.samp[ch][sb].set t v)) }

/-- Every entry of the three arrays 0 (R150, D25). -/
def clearLayer1 (s : State) : State :=
  { s with alloc := Vector.replicate 2 (Vector.replicate 32 0)
           scf := Vector.replicate 2 (Vector.replicate 32 0)
           samp := Vector.replicate 2 (Vector.replicate 32 (Vector.replicate 12 0)) }

/-! ## Channels and stereo bound (R151) -/

/-- The channels of a frame: 1 if `SINGLE_CHANNEL` else 2 (R151). -/
def channels : Mode → List (Fin 2)
  | .singleChannel => [0]
  | _ => [0, 1]

/-- The stereo bound: `(MODEEXT + 1) * 4` under `JOINT_STEREO`, else 32 (R151). -/
def stereoBound (h : Header) : Nat := if h.mode = .jointStereo then (h.modeExt.toNat + 1) * 4 else 32

/-- The 32 subbands in order. -/
def subbands : List (Fin 32) := List.finRange 32

/-- The 12 sample slots in order. -/
def slots : List (Fin 12) := List.finRange 12

/-- Who shares the fields of a subband: below the bound each channel has its own, at or above it both share one
(R152, R154). -/
def fieldGroups (chs : List (Fin 2)) (bound : Nat) (sb : Fin 32) : List (List (Fin 2)) :=
  if sb.val < bound then chs.map (fun ch => [ch]) else [[0, 1]]

/-! ## The three phases -/

/-- One allocation field, stored for every channel of its group (R152). -/
def readAlloc (c : Config) (sb : Fin 32) (group : List (Fin 2)) (s : State) : Micro :=
  readInto c 4 (fun v s => group.foldl (fun s ch => setAlloc ch sb (BitVec.ofNat 4 v) s) s) s

/-- `ReadAllocations(nch, bound)` (R152). -/
def readAllocations (c : Config) (chs : List (Fin 2)) (bound : Nat) (s : State) : Micro :=
  forEach (fun sb => forEach (readAlloc c sb) (fieldGroups chs bound sb)) subbands s

/-- One scale-factor field, read only where the allocation is not 0 (R153). -/
def readScaleFactor (c : Config) (sb : Fin 32) (ch : Fin 2) (s : State) : Micro :=
  if s.alloc[ch][sb] = 0 then .done s else readInto c 6 (fun v s => setScf ch sb (BitVec.ofNat 6 v) s) s

/-- `ReadScaleFactors(nch)` (R153). -/
def readScaleFactors (c : Config) (chs : List (Fin 2)) (s : State) : Micro :=
  forEach (fun sb => forEach (readScaleFactor c sb) chs) subbands s

/-- `SAMP[ch][sb][t] <- REQ(code, ALLOC[ch][sb], SCF[ch][sb])` (R154). -/
def storeSample (c : Config) (t : Fin 12) (sb : Fin 32) (code : Nat) (s : State) (ch : Fin 2) : State :=
  setSamp ch sb t (sampWord c (c.req code s.alloc[ch][sb].toNat s.scf[ch][sb].toNat)) s

/-- One sample field of `allocation + 1` bits, read only where the allocation of the group's first channel is not 0, and
requantized once for every channel of the group (R154). -/
def readSample (c : Config) (t : Fin 12) (sb : Fin 32) (group : List (Fin 2)) (s : State) : Micro :=
  let a := s.alloc[group.headD 0][sb].toNat
  if a = 0 then .done s else readInto c (a + 1) (fun v s => group.foldl (storeSample c t sb v) s) s

/-- `ReadSamples(nch, bound)` (R154). -/
def readSamples (c : Config) (chs : List (Fin 2)) (bound : Nat) (s : State) : Micro :=
  forEach (fun t => forEach (fun sb => forEach (readSample c t sb) (fieldGroups chs bound sb)) subbands) slots s

/-- The three phases one after the other (R150). -/
def readAudioData (c : Config) (chs : List (Fin 2)) (bound : Nat) (s : State) : Micro :=
  ((readAllocations c chs bound s).andThen (readScaleFactors c chs)).andThen (readSamples c chs bound)

/-- The rule of `DECL1` (R150). A field that fails ends the command with its exception; the fields before it stay
consumed, `L1VALID` stays 0 and the arrays are unspecified (R157). -/
def decL1Rule (c : Config) (s : State) : State :=
  if s.hdrValid && s.hdr.layer == .layer1 then
    match readAudioData c (channels s.hdr.mode) (stereoBound s.hdr) (clearLayer1 { s with l1Valid := false }) with
    | .raised x s' => raise x (forgetLayer1 s')
    | .done s' => endOk { s' with l1Valid := true }
  else raise (.contract .noHeader) s

/-- `DECL1` (R150). -/
def execDecL1 (s : State) : Result := prologue s (decL1Rule standard)

/-! ## The requantizer alone -/

/-- The rule of `REQUANT code, alloc, scf` (R161). -/
def requantRule (c : Config) (code alloc scf : Nat) (s : State) : State :=
  if requantRefused code alloc then raise (.contract .badOperand) s
  else endOk { s with res := resOfSample c (c.req code alloc scf) }

/-- `REQUANT code, alloc, scf` (R161). -/
def execRequant (code alloc scf : Nat) (s : State) : Result := prologue s (requantRule standard code alloc scf)

end Sys2Proof.Machine
end

