-- ==== Sys2Proof/Machine/Dispatch.lean ====
section
/-! DEFINITION. What each instruction does: one arm per constructor of Instr. -/

namespace Sys2Proof.Machine

def exec (i : Instr) (s : State) : Host.Outcome State Fault Refusal :=
  match i with
  | .readBits n => Sys2Proof.Machine.execReadBits n s
  | .align => Sys2Proof.Machine.execAlign s
  | .skipBytes k => Sys2Proof.Machine.execSkipBytes k s
  | .position => Sys2Proof.Machine.execPosition s
  | .findSync => Sys2Proof.Machine.execFindSync s
  | .decHdr => Sys2Proof.Machine.execDecHdr s
  | .fLen => Sys2Proof.Machine.execFLen s
  | .decL1 => Sys2Proof.Machine.execDecL1 s
  | .requant code alloc scf => Sys2Proof.Machine.execRequant code alloc scf s

end Sys2Proof.Machine
end

