-- ==== Sys2Proof/Machine/HostPort.lean ====
section
/-! DEFINITION. The host's side of the block: presenting a command word (R9, R205), reset (R230), starting a run (R231),
and reading a register between two commands (R31, R180). -/

namespace Sys2Proof.Machine

/-- The block runs the command word `w` to completion (R9): the prologue's encoding tests, then the command's rule
(R205). -/
def runWord (w : CmdWord) (s : State) : Result :=
  match decode w with
  | .error r => rejectWord r s
  | .ok i => exec i s

/-- Reset (R230): every register at its reset value; the source, which is the run's parameter, and what the host still
has to do stay. -/
def applyReset (s : State) : State := { State.reset with src := s.src, inputs := s.inputs, draws := s.draws }

/-- The host changes the source and resets: nothing carries over (R231). What is no source is refused (log entry 7). -/
def startRun (src : Source) (s : State) : Result :=
  if src.wf then .next (applyReset { s with src := src }) else .refused .illegalSource

/-- The block takes the host's next action, `run` being what it does with a command word; with none, it is idle and keeps
all its state (R213). -/
def takeAction (run : CmdWord → State → Result) (s : State) : Result :=
  match s.inputs with
  | [] => .next s
  | .command w :: rest => run w { s with inputs := rest }
  | .reset :: rest => .next (applyReset { s with inputs := rest })
  | .startRun src :: rest => startRun src { s with inputs := rest }

/-! ## What the host can read -/

/-- The registers of the block (10_state.md). -/
inductive HostReg where
  | acc | cnt | pos | res | status | reason | errs
  | hdrValid | hdrVersion | hdrLayer | hdrProt | hdrBitrate | hdrFreq | hdrPadded | hdrMode | hdrModeExt
  | hdrIStereo | hdrMsStereo | hdrCopyright | hdrOriginal | hdrEmphasis
  | l1Valid
  | alloc (ch : Fin 2) (sb : Fin 32)
  | scf (ch : Fin 2) (sb : Fin 32)
  | samp (ch : Fin 2) (sb : Fin 32) (t : Fin 12)
  deriving DecidableEq, Repr

/-- What a read by the host gives. -/
inductive HostReply where
  /-- the register's bits, as an unsigned number -/
  | bits (v : Nat)
  /-- the register holds no specified value now (R30, U10, U11) -/
  | unspecified
  /-- the host cannot read this register: `ACC` (R28, R31) -/
  | notReadable
  deriving DecidableEq, Repr

/-- The register code of `HDR.VERSION` (R20). -/
def versionBits : Version → Nat
  | .mpeg1 => 0
  | .mpeg2 => 1
  | .mpeg25 => 2

/-- The register code of `HDR.LAYER` (R20). -/
def layerBits : Layer → Nat
  | .layer1 => 0
  | .layer2 => 1
  | .layer3 => 2

/-- The register code of `HDR.MODE` (R20). -/
def modeBits : Mode → Nat
  | .stereo => 0
  | .jointStereo => 1
  | .dualChannel => 2
  | .singleChannel => 3

/-- The register code of `HDR.EMPHASIS` (R20). -/
def emphasisBits : Emphasis → Nat
  | .none => 0
  | .microseconds5015 => 1
  | .ccittJ17 => 2

/-- A register that is specified only while its valid flag is 1 (R20, R27). -/
def guarded (valid : Bool) (v : Nat) : HostReply := if valid then .bits v else .unspecified

/-- The host reads a register (R31). -/
def hostRead (r : HostReg) (s : State) : HostReply :=
  match r with
  | .acc => .notReadable
  | .cnt => .bits s.cnt.toNat
  | .pos => .bits s.pos.toNat
  | .res => .bits s.res.toNat
  | .status => .bits s.status.toNat
  | .reason => .bits s.reason.toNat
  | .errs => .bits s.errs.toNat
  | .hdrValid => .bits s.hdrValid.toNat
  | .hdrVersion => guarded s.hdrValid (versionBits s.hdr.version)
  | .hdrLayer => guarded s.hdrValid (layerBits s.hdr.layer)
  | .hdrProt => guarded s.hdrValid s.hdr.prot.toNat
  | .hdrBitrate => guarded s.hdrValid s.hdr.bitrate.toNat
  | .hdrFreq => guarded s.hdrValid s.hdr.freq.toNat
  | .hdrPadded => guarded s.hdrValid s.hdr.padded.toNat
  | .hdrMode => guarded s.hdrValid (modeBits s.hdr.mode)
  | .hdrModeExt => guarded s.hdrValid s.hdr.modeExt.toNat
  | .hdrIStereo => guarded s.hdrValid s.hdr.iStereo.toNat
  | .hdrMsStereo => guarded s.hdrValid s.hdr.msStereo.toNat
  | .hdrCopyright => guarded s.hdrValid s.hdr.copyright.toNat
  | .hdrOriginal => guarded s.hdrValid s.hdr.original.toNat
  | .hdrEmphasis => guarded s.hdrValid (emphasisBits s.hdr.emphasis)
  | .l1Valid => .bits s.l1Valid.toNat
  | .alloc ch sb => guarded s.l1Valid s.alloc[ch][sb].toNat
  | .scf ch sb => guarded s.l1Valid s.scf[ch][sb].toNat
  | .samp ch sb t => guarded s.l1Valid s.samp[ch][sb][t].toNat

end Sys2Proof.Machine
end

