-- ==== Sys2Proof/Machine/Step.lean ====
section
/-! DEFINITION. One step of the machine: the block takes the host's next action and runs it to its end. -/

namespace Sys2Proof.Machine

/-- One step: the next action of the host, whole (R9, R247). -/
def step (s : State) : Host.Outcome State Fault Refusal := takeAction runWord s

/-- `s` with the host about to present the command word whose low `nbits` bits are `w`. The block fetches nothing from
memory (R11, R48): a command comes to its port from the host, so the word stands first among the host's actions. -/
def State.withFetchWord (s : State) (nbits w : Nat) : State :=
  { s with inputs := .command (tableWord nbits w) :: s.inputs }

end Sys2Proof.Machine
end

