-- ==== Sys2Proof/Machine/HostSequences.lean ====
section
/-! DEFINITION. The four host sequences (pseudo-instructions) of 45_host_sequences.md: programs the host runs, made of
commands and of tests on the registers the host reads. They add no state and no behaviour to the block. -/

namespace Sys2Proof.Machine

/-- What a host sequence ends with: an answer and the block's state, unless a command was refused. -/
abbrev HostRun (α : Type) := Host.Outcome (α × State) Fault Refusal

/-- `cmd MNEMONIC`: issue one command, wait for it to end, and go on with the state it leaves (R180). -/
def issue {α : Type} (i : Instr) (s : State) (rest : State → HostRun α) : HostRun α :=
  match exec i s with
  | .next t => rest t
  | .fault r => .fault r
  | .refused r => .refused r

/-- Run a sequence and go on with its answer. -/
def andContinue {α β : Type} (m : HostRun α) (rest : α → State → HostRun β) : HostRun β :=
  match m with
  | .next (a, t) => rest a t
  | .fault r => .fault r
  | .refused r => .refused r

/-! ## ID3 tags (R181, R182) -/

/-- What `HASID3` returns (R181). -/
inductive HasId3 where
  | yes | no | ended | fatal
  deriving DecidableEq, Repr

/-- `HASID3` (R181): is there an ID3v2 tag at the cursor. `0x494433` is ASCII "ID3" (PRESUMED by the spec: G8; log entry 4). -/
def hasId3 (s : State) : HostRun HasId3 :=
  issue (.readBits 24) s fun s =>
    if s.ended = .eos then .next (.ended, s)
    else if s.ended ≠ .ok then .next (.fatal, s)
    else if s.res = 0x494433 then .next (.yes, s)
    else issue (.skipBytes (-3)) s fun s => .next (.no, s)

/-- How a sequence ended that can only succeed or stop (R182). -/
inductive SeqEnd where
  | done | ended | fatal
  deriving DecidableEq, Repr

/-- Issue a command that must succeed: on `EOS` the sequence returns END, on any other status but `OK` FATAL (R182). -/
def demand (i : Instr) (s : State) (rest : State → HostRun SeqEnd) : HostRun SeqEnd :=
  issue i s fun s =>
    if s.ended = .eos then .next (.ended, s) else if s.ended ≠ .ok then .next (.fatal, s) else rest s

/-- The synchsafe size of 4 bytes: the low 7 bits of each, the first byte highest (R182). -/
def synchsafe (w : BitVec 32) : Nat :=
  (w.extractLsb' 24 7).toNat * 2 ^ 21 + (w.extractLsb' 16 7).toNat * 2 ^ 14 + (w.extractLsb' 8 7).toNat * 2 ^ 7 +
    (w.extractLsb' 0 7).toNat

/-- The bytes to skip after the size field: the decoded size, and 10 more when bit 4 of the flags says footer (R182;
90_conflicts.md C3). -/
def tagSkip (flags : BitVec 64) (sizeBytes : BitVec 64) : Nat :=
  synchsafe (sizeBytes.setWidth 32) + (if flags &&& 0x10 ≠ 0 then 10 else 0)

/-- `SKIPID3` (R182): skip the rest of an ID3v2 tag. -/
def skipId3 (s : State) : HostRun SeqEnd :=
  demand (.skipBytes 2) s fun s =>
    demand (.readBits 8) s fun s1 =>
      demand (.readBits 32) s1 fun s2 =>
        demand (.skipBytes (tagSkip s1.res s2.res)) s2 fun s => .next (.done, s)

/-! ## The CRC (R183) -/

/-- What `RDCRC` returns (R183). -/
inductive Crc where
  | absent | ended | value (v : BitVec 16)
  deriving DecidableEq, Repr

/-- `RDCRC` (R183): read the CRC that follows a protected header; nothing checks it (R70, D37). -/
def readCrc (s : State) : HostRun Crc :=
  if s.hdr.prot then
    issue (.readBits 16) s fun s => if s.ended = .eos then .next (.ended, s) else .next (.value (s.res.setWidth 16), s)
  else .next (.absent, s)

/-! ## The orchestrator (R184, R185) -/

/-- A `Frame` of the host's track (R185). -/
structure Frame where
  header : Header
  crc : Option (BitVec 16)
  /-- the planes `SAMP[0..nch-1]`; absent for Layer II and III -/
  samples : Option (List (Vector (Vector (BitVec 32) 12) 32))
  deriving DecidableEq, Repr

/-- A `Track` (R185): the identifier of its source and its Frames in stream order. What identifies a source is the host's
matter: `ι` is any type. -/
structure Track (ι : Type) where
  source : ι
  frames : List Frame
  deriving DecidableEq, Repr

/-- The CRC field of a Frame. -/
def crcField : Crc → Option (BitVec 16)
  | .value v => some v
  | _ => none

/-- The loop of `DECODE` (R184): align, find sync, decode a header, take the CRC and the Layer I data, append a Frame.
The first argument bounds the rounds: a round that goes on has moved the cursor forward by at least 4 bytes, so `LEN + 1`
of them are enough. -/
def decodeLoop : Nat → List Frame → State → HostRun (List Frame)
  | 0, track, s => .next (track, s)
  | rounds + 1, track, s =>
    issue .align s fun s =>
      issue .findSync s fun s =>
        if s.ended ≠ .ok then .next (track, s)
        else issue .decHdr s fun s =>
          match s.ended with
          | .invHdr _ => decodeLoop rounds track s
          | .ok =>
            andContinue (readCrc s) fun crc t =>
              if crc = .ended then .next (track, t)
              else if s.hdr.layer = .layer1 then
                issue .decL1 t fun t =>
                  if t.ended ≠ .ok then .next (track, t)
                  else
                    let planes := if s.hdr.mode = .singleChannel then [t.samp[0]] else [t.samp[0], t.samp[1]]
                    decodeLoop rounds (track ++ [{ header := s.hdr, crc := crcField crc, samples := some planes }]) t
              else decodeLoop rounds (track ++ [{ header := s.hdr, crc := crcField crc, samples := none }]) t
          | _ => .next (track, s)

/-- The Frames of `DECODE` (R184): skip the metadata once, then frames until the end; every path returns those found. -/
def decodeFrames (s : State) : HostRun (List Frame) :=
  andContinue (hasId3 s) fun h s =>
    match h with
    | .ended => .next ([], s)
    | .fatal => .next ([], s)
    | .no => decodeLoop (s.src.len + 1) [] s
    | .yes =>
      andContinue (skipId3 s) fun e s =>
        if e = .done then decodeLoop (s.src.len + 1) [] s else .next ([], s)

/-- `DECODE` (R184, R185): the track of the source that the host calls `id`. -/
def decodeTrack {ι : Type} (id : ι) (s : State) : HostRun (Track ι) :=
  andContinue (decodeFrames s) fun frames s => .next ({ source := id, frames := frames }, s)

end Sys2Proof.Machine
end

