-- ==== Sys2Proof/Machine/Parameters.lean ====
section
/-! DEFINITION. The block with the parameters of R5 as an argument: any command, any command word and any step of the block
that a configuration describes. The machine of `exec` and `step` is the one at the defaults, `standard`
(Laws/Parameters.lean). -/

namespace Sys2Proof.Machine

/-- A configuration this state can hold (log entry 11): no register is wider than its default; a command word has room for
its 8-bit `op` and, with a bit to spare, for `REQUANT`'s 26 bits of operands (R60, R61); and a refill fetches enough for
the field (R80), but only when the buffer lacks bits, and never more than `CNT` can count (R13). -/
structure LegalConfig (c : Config) : Prop where
  acc : c.xlenAcc ≤ 64
  pos : 1 ≤ c.xlenPos ∧ c.xlenPos ≤ 64
  cmd : 35 ≤ c.cmdLen ∧ c.cmdLen ≤ 64
  samp : 1 ≤ c.sampW ∧ c.sampW ≤ 32
  refill : ∀ n cnt : Nat, n ≤ 64 → refillBytes n cnt ≤ c.refill n cnt ∧ (n ≤ cnt → c.refill n cnt = 0) ∧
    (cnt < 64 → cnt + 8 * c.refill n cnt < 64 + n)

/-- The rule of an instruction (40_bitcursor.md to 44_layer1.md). -/
def ruleOf (c : Config) : Instr → State → State
  | .readBits n => readBitsRule c n
  | .align => alignRule
  | .skipBytes k => skipBytesRule c k
  | .position => positionRule
  | .findSync => findSyncRule c
  | .decHdr => decHdrRule c
  | .fLen => fLenRule c
  | .decL1 => decL1Rule c
  | .requant code alloc scf => requantRule c code alloc scf

/-- A command of the block with parameters `c`: its rule behind the common prologue (R205). -/
def execWith (c : Config) (i : Instr) (s : State) : Result := prologue s (ruleOf c i)

/-- A word of `CMDLEN` bits in the place of a default one: `op` is its 8 highest bits and `imm` the others, read as the
signed number that `SKIPBYTES` takes them for (R60, R61; log entry 11). -/
def widenWord (c : Config) (w : CmdWord) : CmdWord :=
  (w >>> (c.cmdLen - 8)).setWidth 8 ++ (w.setWidth (c.cmdLen - 8)).signExtend 56

/-- The block with parameters `c` runs a command word (R9, R205). -/
def runWordWith (c : Config) (w : CmdWord) (s : State) : Result :=
  match decode (widenWord c w) with
  | .error r => rejectWord r s
  | .ok i => execWith c i s

/-- One step of the block with parameters `c`. -/
def stepWith (c : Config) (s : State) : Result := takeAction (runWordWith c) s

end Sys2Proof.Machine
end

