-- ==== Sys2Proof/Safety.lean ====
section
/-! DEFINITION. What claims are stated in: when a state is one the block can be in (the invariants the spec gives), when a
stretch of the source can be read, and where in the stream the fields of a Layer I frame lie. -/

namespace Sys2Proof.Machine

/-! ## The invariant -/

/-- `0 <= CNT <= 7` and `0 <= POS <= LEN` (R13, R14, R236). -/
def CursorOk (s : State) : Prop := s.cnt.toNat ≤ 7 ∧ s.pos.toNat ≤ s.src.len

/-- The buffer invariant (R15), with `ACC[63:CNT] = 0` (R12): `ACC` is the low `CNT` bits of `SRC[POS-1]`; and when bits
are buffered, that byte has been read without an `ERR`. -/
def BufferOk (s : State) : Prop :=
  s.acc.toNat = (s.src.byteAt (s.pos.toNat - 1)).toNat % 2 ^ s.cnt.toNat ∧
    (0 < s.cnt.toNat → 1 ≤ s.pos.toNat ∧ s.pos.toNat - 1 ∉ s.src.errs)

/-- The status registers agree (R23, R206): `ERRS[0]` is 0, the bit of the last status is set, and a halted block's status
is `IOFAIL`. -/
def StatusOk (s : State) : Prop :=
  s.errs.getLsbD 0 = false ∧ (s.ended ≠ .ok → s.errs.getLsbD (statusCode s.ended) = true) ∧
    (s.halted = true → s.ended = .ioFail)

/-- The header invariant (R22), and the stereo flags (R119): while `HDR.VALID = 1`, bitrate and frequency are table values
of the header's own version and layer, and the two flags are 0 outside `JOINT_STEREO`. -/
def HeaderOk (s : State) : Prop :=
  s.hdrValid = true →
    s.hdr.bitrate.toNat ∈ bitrateTab (versionClass s.hdr.version) s.hdr.layer ∧
      s.hdr.freq.toNat ∈ freqTab s.hdr.version ∧
      (s.hdr.mode ≠ .jointStereo → s.hdr.iStereo = false ∧ s.hdr.msStereo = false)

/-- What the Layer I arrays hold while `L1VALID = 1` (R25 to R27, R150, R162): the header is a valid Layer I one, plane 1
of a single-channel frame is 0, an entry that no field filled is 0, and every sample is in the requantizer's range. -/
def Layer1Ok (s : State) : Prop :=
  s.l1Valid = true →
    s.hdrValid = true ∧ s.hdr.layer = .layer1 ∧
      (s.hdr.mode = .singleChannel → ∀ sb : Fin 32, s.alloc[(1 : Fin 2)][sb] = 0) ∧
      (∀ (ch : Fin 2) (sb : Fin 32), s.alloc[ch][sb] = 0 → s.scf[ch][sb] = 0 ∧ ∀ t : Fin 12, s.samp[ch][sb][t] = 0) ∧
      (∀ (ch : Fin 2) (sb : Fin 32) (t : Fin 12), s.samp[ch][sb][t].toNat ≤ 2064384)

/-- The invariant of the block: what holds at reset and after every step. -/
structure State.Inv (s : State) : Prop where
  source : s.src.wf = true
  cursor : CursorOk s
  buffer : BufferOk s
  status : StatusOk s
  header : HeaderOk s
  layer1 : Layer1Ok s

/-! ## Reading the source -/

/-- Every address `a` with `lo <= a < hi` answers a byte (R41). -/
def Readable (src : Source) (lo hi : Nat) : Prop := ∀ a, lo ≤ a → a < hi → a < src.len ∧ a ∉ src.errs

/-- The value of `n` stream bits from bit `i` on, as R7 writes it: the sum of `StreamBit(i+j) * 2^(n-1-j)`. -/
def streamValue (src : Source) (i n : Nat) : Nat :=
  ((List.range n).map (fun j => (src.streamBit (i + j)).toNat * 2 ^ (n - 1 - j))).sum

/-- A state's cursor moved to the stream bit `b` (R14 to R16): `POS` is the byte after the one `b` lies in (or at), `CNT`
the bits of it from `b` on, `ACC` those bits. -/
def atBit (b : Nat) (s : State) : State :=
  { s with pos := BitVec.ofNat 64 ((b + 7) / 8)
           cnt := BitVec.ofNat 6 (8 * ((b + 7) / 8) - b)
           acc := BitVec.ofNat 64 ((s.src.byteAt ((b + 7) / 8 - 1)).toNat % 2 ^ (8 * ((b + 7) / 8) - b)) }

/-! ## What the host sees -/

/-- The registers a reset leaves (R30, R230): the values of R30's table, and no definite value of the header fields and
the Layer I arrays. -/
structure AfterReset (s : State) : Prop where
  acc : s.acc = 0
  cnt : s.cnt = 0
  pos : s.pos = 0
  res : s.res = 0
  status : s.status = 0
  reason : s.reason = 0
  errs : s.errs = 0
  hdrValid : s.hdrValid = false
  l1Valid : s.l1Valid = false
  fields : ∀ r ∈ [HostReg.hdrVersion, .hdrLayer, .hdrProt, .hdrBitrate, .hdrFreq, .hdrPadded, .hdrMode, .hdrModeExt,
    .hdrIStereo, .hdrMsStereo, .hdrCopyright, .hdrOriginal, .hdrEmphasis], hostRead r s = .unspecified
  arrays : ∀ (ch : Fin 2) (sb : Fin 32) (t : Fin 12),
    hostRead (.alloc ch sb) s = .unspecified ∧ hostRead (.scf ch sb) s = .unspecified ∧
      hostRead (.samp ch sb t) s = .unspecified

/-- Two states that agree on everything specified that the host can read (R31), on the source and on what the host does
next. They may differ in `ACC`, in the header fields while `HDR.VALID = 0`, in the arrays while `L1VALID = 0`, and in how
many free values were drawn. -/
structure SameForHost (s s' : State) : Prop where
  cnt : s.cnt = s'.cnt
  pos : s.pos = s'.pos
  res : s.res = s'.res
  ended : s.ended = s'.ended
  errs : s.errs = s'.errs
  hdrValid : s.hdrValid = s'.hdrValid
  hdr : s.hdrValid = true → s.hdr = s'.hdr
  l1Valid : s.l1Valid = s'.l1Valid
  arrays : s.l1Valid = true → s.alloc = s'.alloc ∧ s.scf = s'.scf ∧ s.samp = s'.samp
  src : s.src = s'.src
  inputs : s.inputs = s'.inputs

/-- The row of R62 an instruction belongs to. -/
def rowOf : Instr → Opcode
  | .readBits _ => .readBits
  | .align => .align
  | .skipBytes _ => .skipBytes
  | .position => .position
  | .findSync => .findSync
  | .decHdr => .decHdr
  | .fLen => .fLen
  | .decL1 => .decL1
  | .requant _ _ _ => .requant

/-! ## Where the fields of a Layer I frame lie (R68, R151 to R154)

`b` is the stream bit the audio data starts at. Channels and subbands are plain numbers here. -/

/-- The channel count (R151). -/
def frameChannels (h : Header) : Nat := if h.mode = .singleChannel then 1 else 2

/-- How many allocation fields a frame has, and sample fields at most per slot (R152, R154): one per channel below the
bound, one per subband from the bound on. -/
def fieldCount (h : Header) : Nat := frameChannels h * stereoBound h + (32 - stereoBound h)

/-- The place of a channel's field for a subband among them: subband outer, channel inner, a shared subband once. -/
def fieldIndex (h : Header) (ch sb : Nat) : Nat :=
  if sb < stereoBound h then frameChannels h * sb + ch else frameChannels h * stereoBound h + (sb - stereoBound h)

/-- The channel the field at a place belongs to, the first one for a shared field. -/
def fieldChannel (h : Header) (q : Nat) : Nat :=
  if q < frameChannels h * stereoBound h then q % frameChannels h else 0

/-- The subband the field at a place belongs to. -/
def fieldSubband (h : Header) (q : Nat) : Nat :=
  if q < frameChannels h * stereoBound h then q / frameChannels h
  else stereoBound h + (q - frameChannels h * stereoBound h)

/-- `ALLOC[ch][sb]` of the frame at stream bit `b`: the 4 bits at its place; 0 for an absent channel (R152). -/
def frameAlloc (src : Source) (h : Header) (b ch sb : Nat) : Nat :=
  if ch < frameChannels h then streamValue src (b + 4 * fieldIndex h ch sb) 4 else 0

/-- The first stream bit of the scale factors (R152). -/
def scaleStart (h : Header) (b : Nat) : Nat := b + 4 * fieldCount h

/-- The width of the scale-factor field at place `p` (subband outer, channel inner): 6 bits where the allocation is not 0
(R153). -/
def scaleWidth (src : Source) (h : Header) (b p : Nat) : Nat :=
  if frameAlloc src h b (p % frameChannels h) (p / frameChannels h) = 0 then 0 else 6

/-- The bits of the scale-factor fields before place `p`. -/
def scaleOffset (src : Source) (h : Header) (b p : Nat) : Nat :=
  ((List.range p).map (scaleWidth src h b)).sum

/-- `SCF[ch][sb]` of the frame at stream bit `b` (R153). -/
def frameScf (src : Source) (h : Header) (b ch sb : Nat) : Nat :=
  if frameAlloc src h b ch sb = 0 then 0
  else streamValue src (scaleStart h b + scaleOffset src h b (frameChannels h * sb + ch)) 6

/-- The first stream bit of the samples (R153). -/
def sampleStart (src : Source) (h : Header) (b : Nat) : Nat :=
  scaleStart h b + scaleOffset src h b (frameChannels h * 32)

/-- The width of the sample field at place `q` of a slot: `allocation + 1` bits where the allocation is not 0 (R154). -/
def sampleWidth (src : Source) (h : Header) (b q : Nat) : Nat :=
  if frameAlloc src h b (fieldChannel h q) (fieldSubband h q) = 0 then 0
  else frameAlloc src h b (fieldChannel h q) (fieldSubband h q) + 1

/-- The bits of the sample fields of a slot before place `q`. -/
def sampleOffset (src : Source) (h : Header) (b q : Nat) : Nat :=
  ((List.range q).map (sampleWidth src h b)).sum

/-- The bits of one slot. -/
def slotBits (src : Source) (h : Header) (b : Nat) : Nat := sampleOffset src h b (fieldCount h)

/-- `SAMP[ch][sb][t]` of the frame at stream bit `b`: the code at its place, requantized with the channel's own scale
factor (R154, R160). -/
def frameSamp (c : Config) (src : Source) (h : Header) (b ch sb t : Nat) : Int :=
  let a := frameAlloc src h b ch sb
  if a = 0 then 0
  else
    c.req (streamValue src (sampleStart src h b + t * slotBits src h b + sampleOffset src h b (fieldIndex h ch sb)) (a + 1))
      a (frameScf src h b ch sb)

/-- The first stream bit after the frame's audio data (R154). -/
def frameEnd (src : Source) (h : Header) (b : Nat) : Nat := sampleStart src h b + 12 * slotBits src h b

/-- `b'` is a stream bit where the audio data at stream bit `b` has a field boundary: before or after an allocation field
(R152), a scale factor (R153) or a sample (R154). -/
def FieldBoundary (src : Source) (h : Header) (b b' : Nat) : Prop :=
  (∃ i, i ≤ fieldCount h ∧ b' = b + 4 * i) ∨
    (∃ p, p ≤ frameChannels h * 32 ∧ b' = scaleStart h b + scaleOffset src h b p) ∨
    (∃ t q, t < 12 ∧ q ≤ fieldCount h ∧ b' = sampleStart src h b + t * slotBits src h b + sampleOffset src h b q)

/-- The last field boundary that the bytes before byte `e` reach: no field after it can be read without byte `e`. -/
def LastBoundaryBefore (src : Source) (h : Header) (b e b' : Nat) : Prop :=
  FieldBoundary src h b b' ∧ (b' + 7) / 8 ≤ e ∧ ∀ x, FieldBoundary src h b x → (x + 7) / 8 ≤ e → x ≤ b'

end Sys2Proof.Machine
end

