-- ==== Sys2Proof/Certificates/Slice0/Obligations.lean ====
section
/-! DEFINITION. The statements about the model, one definition each. OBLIGATIONS.json gives each its number, its tier and
the rules of the spec it rests on. -/

open Sys2Proof Sys2Proof.Machine

/-! ## Reset, the host's actions, and the step -/

/-- The invariant holds right after reset. -/
def Obligations.ResetMeetsTheInvariant : Prop := State.reset.Inv

/-- R30, R230: the reset state, and the state every reset action leads to, hold the values of R30's table; the header fields
and the Layer I arrays have no definite value for the host; the source and the host's plan stay. -/
def Obligations.ResetLeavesTheSpecifiedRegisters : Prop :=
  AfterReset State.reset ∧
    ∀ (s : State) (rest : List HostAction), s.inputs = .reset :: rest →
      ∃ t, step s = .next t ∧ AfterReset t ∧ t.src = s.src ∧ t.inputs = rest

/-- R231: starting a run puts the new source in place and resets; what is no source is refused (log entry 7). -/
def Obligations.StartingARunResetsOnTheNewSource : Prop :=
  ∀ (s : State) (src : Source) (rest : List HostAction), s.inputs = .startRun src :: rest →
    (src.wf = true → ∃ t, step s = .next t ∧ AfterReset t ∧ t.src = src ∧ t.inputs = rest) ∧
      (src.wf = false → step s = .refused .illegalSource)

/-- R213: with nothing asked of it the block is idle and keeps all its state. -/
def Obligations.IdleBlockKeepsItsState : Prop := ∀ s : State, s.inputs = [] → step s = .next s

/-- A step runs the decoded instruction, and around it only takes the word from the host's list. -/
def Obligations.StepRunsTheDecodedInstruction : Prop :=
  ∀ (s : State) (w : CmdWord) (rest : List HostAction) (i : Instr), s.inputs = .command w :: rest → decode w = .ok i →
    step s = exec i { s with inputs := rest }

/-- R205: the common prologue, in its order: the halted test whatever the word; then the opcode; then the must-be-zero
bits; then the command's own rule. -/
def Obligations.PrologueOrdersItsTests : Prop :=
  ∀ (s : State) (w : CmdWord) (rest : List HostAction), s.inputs = .command w :: rest →
    (s.halted = true → step s = .next { s with inputs := rest, ended := .ioFail }) ∧
      (s.halted = false → w.extractLsb' 56 8 ∉ ([0x01, 0x02, 0x03, 0x04, 0x10, 0x11, 0x12, 0x20, 0x21] : List Byte) →
        step s = .next { s with inputs := rest, ended := .contract .badOpcode, errs := s.errs ||| 0b010000 }) ∧
      (∀ o : Opcode, s.halted = false → w.extractLsb' 56 8 = opByte o → w &&& opMask o ≠ opMatch o →
        step s = .next { s with inputs := rest, ended := .contract .badOperand, errs := s.errs ||| 0b010000 }) ∧
      (∀ o : Opcode, s.halted = false → w.extractLsb' 56 8 = opByte o → w &&& opMask o = opMatch o →
        ∃ i, decode w = .ok i ∧ rowOf i = o ∧ step s = exec i { s with inputs := rest })

/-! ## Encoding -/

/-- Decoding the word of a well-formed instruction gives the instruction back, with every operand at every value its field
admits. -/
def Obligations.DecodingAnEncodingGivesTheInstructionBack : Prop :=
  ∀ i : Instr, i.wellFormed = true → decode (encode i) = .ok i

/-- A word that decodes is the word of the instruction it decodes to, and that instruction is well formed: no bit of a
legal word is ignored. -/
def Obligations.EveryLegalWordIsTheEncodingOfItsInstruction : Prop :=
  ∀ (w : CmdWord) (i : Instr), decode w = .ok i → i.wellFormed = true ∧ encode i = w

/-- R62: the nine rows with their op, match and mask; and a word is the command of a row exactly when the word under the
row's mask is the row's match. -/
def Obligations.MaskAndMatchPickTheCommand : Prop :=
  [Opcode.readBits, .align, .skipBytes, .position, .findSync, .decHdr, .fLen, .decL1, .requant].map
      (fun o => (opByte o, opMatch o, opMask o)) =
    [(0x01, 0x0100000000000000, 0xFFFFFFFFFFFFFF80), (0x02, 0x0200000000000000, 0xFFFFFFFFFFFFFFFF),
      (0x03, 0x0300000000000000, 0xFF00000000000000), (0x04, 0x0400000000000000, 0xFFFFFFFFFFFFFFFF),
      (0x10, 0x1000000000000000, 0xFFFFFFFFFFFFFFFF), (0x11, 0x1100000000000000, 0xFFFFFFFFFFFFFFFF),
      (0x12, 0x1200000000000000, 0xFFFFFFFFFFFFFFFF), (0x20, 0x2000000000000000, 0xFFFFFFFFFFFFFFFF),
      (0x21, 0x2100000000000000, 0xFFFFFFFFFC000000)] ∧
  ∀ (w : CmdWord) (o : Opcode), w &&& opMask o = opMatch o ↔ ∃ i, decode w = .ok i ∧ rowOf i = o

/-- Words written out from R60 to R62 decode to the instructions they stand for. -/
def Obligations.WordsOfTheManualDecode : Prop :=
  decode 0x0100000000000003 = .ok (.readBits 3) ∧ decode 0x03FFFFFFFFFFFFFD = .ok (.skipBytes (-3)) ∧
    decode 0x1000000000000000 = .ok .findSync ∧ decode 0x210000000013000F = .ok (.requant 0xF 3 1) ∧
    decode 0x0200000000000001 = .error .badOperand ∧ decode 0x0500000000000000 = .error .badOpcode

/-! ## The bit cursor -/

/-- R81: all that `READBITS n` does. With `k` bytes to fetch: refused when `n > 64`; 0 when `n = 0`; the next `n` stream
bits, most significant first, when every byte it must fetch answers, `ACC` then holding the bits from the new cursor to the
byte position, which on a state of the block are the low bits of the last byte; else the first byte that does not answer
decides, and nothing else changes. -/
def Obligations.ReadBitsFollowsItsRule : Prop :=
  ∀ (n : Nat) (s : State), s.halted = false →
    let k := (n - s.cnt.toNat + 7) / 8
    (64 < n → exec (.readBits n) s =
      .next { s with ended := .contract .badOperand, errs := s.errs ||| 0b010000 }) ∧
    (n = 0 → exec (.readBits n) s = .next { s with res := 0, ended := .ok }) ∧
    (1 ≤ n → n ≤ 64 → Readable s.src s.pos.toNat (s.pos.toNat + k) →
      exec (.readBits n) s = .next { s with
        res := BitVec.ofNat 64 (streamValue s.src s.bp n)
        pos := BitVec.ofNat 64 (s.pos.toNat + k)
        cnt := BitVec.ofNat 6 (s.cnt.toNat + 8 * k - n)
        acc := BitVec.ofNat 64 (streamValue s.src (8 * (s.pos.toNat + k) - (s.cnt.toNat + 8 * k - n)) (s.cnt.toNat + 8 * k - n))
        ended := .ok }) ∧
    (s.Inv → 1 ≤ n → n ≤ 64 →
      streamValue s.src (8 * (s.pos.toNat + k) - (s.cnt.toNat + 8 * k - n)) (s.cnt.toNat + 8 * k - n) =
        (s.src.byteAt (s.pos.toNat + k - 1)).toNat % 2 ^ (s.cnt.toNat + 8 * k - n)) ∧
    (1 ≤ n → n ≤ 64 → ∀ e, s.pos.toNat ≤ e → e < s.pos.toNat + k → Readable s.src s.pos.toNat e →
      (e ∈ s.src.errs → exec (.readBits n) s = .next { s with ended := .ioFail, errs := s.errs ||| 0b100000 }) ∧
      (e ∉ s.src.errs → s.src.len ≤ e →
        exec (.readBits n) s = .next { s with ended := .eos, errs := s.errs ||| 0b000010 }))

/-- R203: with no `ERR` address, `READBITS n` ends `EOS` exactly when fewer than `n` bits remain. -/
def Obligations.ReadBitsEndsEosExactlyPastTheEnd : Prop :=
  ∀ (n : Nat) (s : State), s.Inv → s.halted = false → s.src.errs = [] → 1 ≤ n → n ≤ 64 →
    ((∃ t, exec (.readBits n) s = .next t ∧ t.ended = .eos) ↔ 8 * s.src.len < s.bp + n)

/-- R42 (c): reading `m` bits and then `n` bits is reading `m + n` bits: the second state is that of the one read, but for
`RES`, which the one read sets to the two values joined. -/
def Obligations.TwoReadsAreOneWiderRead : Prop :=
  ∀ (m n : Nat) (s t u : State), s.Inv → s.halted = false → 1 ≤ m → 1 ≤ n → m + n ≤ 64 →
    exec (.readBits m) s = .next t → t.ended = .ok → exec (.readBits n) t = .next u → u.ended = .ok →
      exec (.readBits (m + n)) s = .next { u with res := BitVec.ofNat 64 (t.res.toNat * 2 ^ n + u.res.toNat) }

/-- R88: a source of just enough bytes for `n` bits, right after reset: `READBITS n` gives those bits as a big-endian
number and uses the source up to its padding. -/
def Obligations.ReadBitsOfAnExactSource : Prop :=
  ∀ (n : Nat) (src : Source), src.wf = true → src.errs = [] → 1 ≤ n → n ≤ 64 → src.len = (n + 7) / 8 →
    ∃ t, exec (.readBits n) { State.reset with src := src } = .next t ∧ t.ended = .ok ∧
      t.res.toNat = streamValue src 0 n ∧ t.pos.toNat = src.len ∧ t.cnt.toNat = 8 * src.len - n

/-- R84: all that `ALIGN` does: it drops the `CNT mod 8` low-order bits and reports whether there were none; on a state of
the block it leaves `CNT = 0` and the cursor at the next byte boundary; a second `ALIGN` is a no-op that returns 1. -/
def Obligations.AlignFollowsItsRule : Prop :=
  ∀ s : State, s.halted = false →
    let d := s.cnt.toNat % 8
    exec .align s = .next { s with
      res := if d = 0 then 1 else 0
      cnt := BitVec.ofNat 6 (s.cnt.toNat - d)
      acc := s.acc >>> d
      ended := .ok } ∧
    (s.Inv → ∃ t, exec .align s = .next t ∧ t.cnt = 0 ∧ t.acc = 0 ∧ t.bp = 8 * s.pos.toNat ∧
      exec .align t = .next { t with res := 1 })

/-- R86 with R85: all that `SKIPBYTES k` does: refused before address 0, `EOS` past `LEN`, else the buffer is dropped and
the cursor stands at `POS + k`. -/
def Obligations.SkipBytesFollowsItsRule : Prop :=
  ∀ (k : Int) (s : State), s.halted = false →
    ((s.pos.toNat : Int) + k < 0 →
      exec (.skipBytes k) s = .next { s with ended := .contract .badSkip, errs := s.errs ||| 0b010000 }) ∧
    ((s.src.len : Int) < s.pos.toNat + k →
      exec (.skipBytes k) s = .next { s with ended := .eos, errs := s.errs ||| 0b000010 }) ∧
    (0 ≤ (s.pos.toNat : Int) + k → (s.pos.toNat : Int) + k ≤ s.src.len →
      exec (.skipBytes k) s = .next { s with pos := BitVec.ofInt 64 (s.pos.toNat + k), cnt := 0, acc := 0, ended := .ok })

/-- R86: two skips that succeed leave the state of one skip by the sum. -/
def Obligations.TwoSkipsAreOne : Prop :=
  ∀ (a b : Int) (s t u : State), s.Inv → s.halted = false →
    exec (.skipBytes a) s = .next t → t.ended = .ok → exec (.skipBytes b) t = .next u → u.ended = .ok →
      exec (.skipBytes (a + b)) s = .next u

/-- R87: `POSITION` copies `POS` to `RES` and changes nothing else but the status. -/
def Obligations.PositionReportsTheBytePosition : Prop :=
  ∀ s : State, s.halted = false → exec .position s = .next { s with res := s.pos, ended := .ok }

/-! ## The frame synchronizer -/

/-- R101, under the code tables the spec supplies from general knowledge (log entry 4): the 11-bit sync word, a version
code that is not 1 and a layer code that is not 0; bit 0 of B plays no part. -/
def Obligations.SyncMatchIsTheSyncPattern : Prop :=
  ∀ a b : Byte, syncMatch standard a b = true ↔
    a = 0xFF ∧ b &&& 0xE0 = 0xE0 ∧ b &&& 0x18 ≠ 0x08 ∧ b &&& 0x06 ≠ 0x00

/-- R100, R102 (a), R103: the first matching pair at an even distance from the entry position ends the scan on its byte B. -/
def Obligations.FindSyncStopsOnTheFirstMatchingPair : Prop :=
  ∀ (s : State) (m : Nat), s.Inv → s.halted = false → s.cnt = 0 →
    Readable s.src s.pos.toNat (s.pos.toNat + 2 * m + 2) →
    (∀ j, j < m →
      syncMatch standard (s.src.byteAt (s.pos.toNat + 2 * j)) (s.src.byteAt (s.pos.toNat + 2 * j + 1)) = false) →
    syncMatch standard (s.src.byteAt (s.pos.toNat + 2 * m)) (s.src.byteAt (s.pos.toNat + 2 * m + 1)) = true →
    exec .findSync s = .next { s with
      pos := BitVec.ofNat 64 (s.pos.toNat + 2 * m + 1), cnt := 0, acc := 0, res := 1, ended := .ok }

/-- R100, R102 (b), R202: no pair matches and no address answers `ERR`: the scan ends at `LEN` with `NOSYNC`, whether the
remaining length is even or odd. -/
def Obligations.FindSyncReachesTheEndWithoutAMatch : Prop :=
  ∀ s : State, s.Inv → s.halted = false → s.cnt = 0 →
    (∀ a, s.pos.toNat ≤ a → a ≤ s.src.len → a ∉ s.src.errs) →
    (∀ j, s.pos.toNat + 2 * j + 1 < s.src.len →
      syncMatch standard (s.src.byteAt (s.pos.toNat + 2 * j)) (s.src.byteAt (s.pos.toNat + 2 * j + 1)) = false) →
    exec .findSync s = .next { s with
      pos := BitVec.ofNat 64 s.src.len, cnt := 0, acc := 0, res := 0, ended := .noSync, errs := s.errs ||| 0b000100 }

/-- R100, R102 (c): an address that answers `ERR` before a match ends the scan there; all bytes before it stay consumed and
`RES` keeps its value (R17). -/
def Obligations.FindSyncStopsAtAnError : Prop :=
  ∀ (s : State) (e : Nat), s.Inv → s.halted = false → s.cnt = 0 →
    s.pos.toNat ≤ e → e ≤ s.src.len → e ∈ s.src.errs → Readable s.src s.pos.toNat e →
    (∀ j, s.pos.toNat + 2 * j + 1 < e →
      syncMatch standard (s.src.byteAt (s.pos.toNat + 2 * j)) (s.src.byteAt (s.pos.toNat + 2 * j + 1)) = false) →
    exec .findSync s = .next { s with
      pos := BitVec.ofNat 64 e, cnt := 0, acc := 0, ended := .ioFail, errs := s.errs ||| 0b100000 }

/-- R43, R208: `FINDSYNC` and `DECHDR` entered unaligned end `CONTRACT(UNALIGNED)` and change nothing else. -/
def Obligations.UnalignedEntryIsRefused : Prop :=
  ∀ (i : Instr) (s : State), i = .findSync ∨ i = .decHdr → s.halted = false → s.cnt.toNat % 8 ≠ 0 →
    exec i s = .next { s with ended := .contract .unaligned, errs := s.errs ||| 0b010000 }

/-! ## The header decoder -/

/-- R110, R111, R119: an aligned `DECHDR` with three readable bytes whose five fields are all legal consumes them and builds
the header of their fields; the old Layer I data is gone. The Layer I arrays then hold free values (log entry 6). -/
def Obligations.DecHdrBuildsTheHeaderOfTheThreeBytes : Prop :=
  ∀ (s : State) (v : Version) (l : Layer) (rate hz : Nat) (e : Emphasis),
    s.halted = false → s.cnt = 0 → Readable s.src s.pos.toNat (s.pos.toNat + 3) →
    let b1 := s.src.byteAt s.pos.toNat
    let b2 := s.src.byteAt (s.pos.toNat + 1)
    let b3 := s.src.byteAt (s.pos.toNat + 2)
    versionDec (b1.extractLsb' 3 2) = some v → layerDec (b1.extractLsb' 1 2) = some l →
    (bitrateTab (versionClass v) l)[(b2.extractLsb' 4 4).toNat]? = some rate →
    (freqTab v)[(b2.extractLsb' 2 2).toNat]? = some hz → emphDec (b3.extractLsb' 0 2) = some e →
    let m := modeDec (b3.extractLsb' 6 2)
    ∃ (al : AllocArray) (sc : ScfArray) (sa : SampArray) (d : Nat), exec .decHdr s = .next { s with
      pos := BitVec.ofNat 64 (s.pos.toNat + 3), cnt := 0, acc := 0, ended := .ok
      hdrValid := true
      hdr := { version := v, layer := l, prot := !b2.getLsbD 0, bitrate := BitVec.ofNat 9 rate,
               freq := BitVec.ofNat 16 hz, padded := b2.getLsbD 1, mode := m, modeExt := b3.extractLsb' 4 2,
               iStereo := decide (m = .jointStereo) && (decide (l ≠ .layer3) || b3.getLsbD 4),
               msStereo := decide (m = .jointStereo) && (decide (l = .layer3) && b3.getLsbD 5),
               copyright := b3.getLsbD 3, original := b3.getLsbD 2, emphasis := e }
      l1Valid := false, alloc := al, scf := sc, samp := sa, draws := d }

/-- R112, R207: a header with a reserved field ends `INVHDR`, with the first reserved field in the order version, layer,
bitrate, frequency, emphasis as reason; the three bytes stay consumed and no valid header or Layer I data is left. -/
def Obligations.DecHdrReportsTheFirstReservedField : Prop :=
  ∀ (s : State) (r : HdrReason),
    s.halted = false → s.cnt = 0 → Readable s.src s.pos.toNat (s.pos.toNat + 3) →
    let b1 := s.src.byteAt s.pos.toNat
    let b2 := s.src.byteAt (s.pos.toNat + 1)
    let b3 := s.src.byteAt (s.pos.toNat + 2)
    let badVersion := versionDec (b1.extractLsb' 3 2) = none
    let badLayer := layerDec (b1.extractLsb' 1 2) = none
    let badBitrate := b2.extractLsb' 4 4 = 15
    let badFrequency := b2.extractLsb' 2 2 = 3
    let badEmphasis := b3.extractLsb' 0 2 = 2
    (match r with
      | .version => badVersion
      | .layer => ¬ badVersion ∧ badLayer
      | .bitrate => ¬ badVersion ∧ ¬ badLayer ∧ badBitrate
      | .frequency => ¬ badVersion ∧ ¬ badLayer ∧ ¬ badBitrate ∧ badFrequency
      | .emphasis => ¬ badVersion ∧ ¬ badLayer ∧ ¬ badBitrate ∧ ¬ badFrequency ∧ badEmphasis) →
    ∃ (h : Header) (al : AllocArray) (sc : ScfArray) (sa : SampArray) (d : Nat), exec .decHdr s = .next { s with
      pos := BitVec.ofNat 64 (s.pos.toNat + 3), cnt := 0, acc := 0
      ended := .invHdr r, errs := s.errs ||| 0b001000
      hdrValid := false, hdr := h, l1Valid := false, alloc := al, scf := sc, samp := sa, draws := d }

/-- R110, R203, R204, R209: an aligned `DECHDR` that cannot read its three bytes consumes nothing and keeps the old header;
the first byte that does not answer decides between `EOS` and `IOFAIL`. -/
def Obligations.DecHdrConsumesNothingWhenItCannotRead : Prop :=
  ∀ (s : State) (e : Nat), s.halted = false → s.cnt = 0 → s.pos.toNat ≤ e → e < s.pos.toNat + 3 →
    Readable s.src s.pos.toNat e →
    (e ∈ s.src.errs → exec .decHdr s = .next { s with ended := .ioFail, errs := s.errs ||| 0b100000 }) ∧
      (e ∉ s.src.errs → s.src.len ≤ e → exec .decHdr s = .next { s with ended := .eos, errs := s.errs ||| 0b000010 })

/-! ## The frame length -/

/-- R140: all that `FLEN` does. -/
def Obligations.FLenFollowsItsRule : Prop :=
  ∀ s : State, s.halted = false →
    (s.hdrValid = true → exec .fLen s = .next { s with
      res := BitVec.ofNat 64 ((if s.hdr.layer = .layer1 then 12 else 144) * 1000 * s.hdr.bitrate.toNat / s.hdr.freq.toNat +
        (if s.hdr.padded then (if s.hdr.layer = .layer1 then 4 else 1) else 0))
      ended := .ok }) ∧
    (s.hdrValid = false → exec .fLen s = .next { s with ended := .contract .noHeader, errs := s.errs ||| 0b010000 })

/-- R140, R190: on every state of the block `FLEN`'s value is the floor of the exact quotient plus the slot, and at most
2881. -/
def Obligations.FrameLengthIsTheFloorAndAtMost2881 : Prop :=
  ∀ s : State, s.Inv → s.halted = false → s.hdrValid = true →
    ∃ t base, exec .fLen s = .next t ∧
      t.res.toNat = base + (if s.hdr.padded then (if s.hdr.layer = .layer1 then 4 else 1) else 0) ∧
      base * s.hdr.freq.toNat ≤ (if s.hdr.layer = .layer1 then 12 else 144) * 1000 * s.hdr.bitrate.toNat ∧
      (if s.hdr.layer = .layer1 then 12 else 144) * 1000 * s.hdr.bitrate.toNat < (base + 1) * s.hdr.freq.toNat ∧
      t.res.toNat ≤ 2881

/-! ## Layer I -/

/-- R150 to R154, R68, R160: a `DECL1` under a valid Layer I header, with every byte of the audio data readable, leaves in
each entry of the three arrays the value of the field at its place in the stream, moves the cursor to the end of the last
field, and changes nothing else. -/
def Obligations.DecL1DecodesTheFrame : Prop :=
  ∀ s : State, s.Inv → s.halted = false → s.hdrValid = true → s.hdr.layer = .layer1 →
    Readable s.src s.pos.toNat ((frameEnd s.src s.hdr s.bp + 7) / 8) →
    ∃ t, exec .decL1 s = .next t ∧
      t = { atBit (frameEnd s.src s.hdr s.bp) s with
        alloc := t.alloc, scf := t.scf, samp := t.samp, l1Valid := true, ended := .ok } ∧
      ∀ (ch : Fin 2) (sb : Fin 32),
        t.alloc[ch][sb].toNat = frameAlloc s.src s.hdr s.bp ch sb ∧
          t.scf[ch][sb].toNat = frameScf s.src s.hdr s.bp ch sb ∧
          ∀ q : Fin 12, t.samp[ch][sb][q].toInt = frameSamp standard s.src s.hdr s.bp ch sb q

/-- R157, R203, R204: a `DECL1` whose audio data cannot all be read ends with the status of the first byte that does not
answer; the cursor stands after the last field read whole, that is at the last field boundary that the bytes before that
byte reach (the failing field has at most 16 bits), and no Layer I data is valid: the arrays hold free values (log entry
6). -/
def Obligations.DecL1CutShortKeepsTheFieldsBefore : Prop :=
  ∀ (s : State) (e : Nat), s.Inv → s.halted = false → s.hdrValid = true → s.hdr.layer = .layer1 →
    s.pos.toNat ≤ e → e < (frameEnd s.src s.hdr s.bp + 7) / 8 → Readable s.src s.pos.toNat e →
    ¬ (e < s.src.len ∧ e ∉ s.src.errs) →
    ∃ (b : Nat) (x : Completion) (al : AllocArray) (sc : ScfArray) (sa : SampArray) (d : Nat),
      exec .decL1 s = .next { atBit b s with
        alloc := al, scf := sc, samp := sa, draws := d, l1Valid := false
        ended := x, errs := errsAfter s.errs x } ∧
      x = (if e ∈ s.src.errs then .ioFail else .eos) ∧
      LastBoundaryBefore s.src s.hdr s.bp e b ∧ s.bp ≤ b ∧ 8 * e < b + 16

/-- R150, R208: `DECL1` without a valid Layer I header ends `CONTRACT(NO_HEADER)` and changes nothing else. -/
def Obligations.DecL1NeedsALayerIHeader : Prop :=
  ∀ s : State, s.halted = false → (s.hdrValid = true → s.hdr.layer ≠ .layer1) →
    exec .decL1 s = .next { s with ended := .contract .noHeader, errs := s.errs ||| 0b010000 }

/-- R161: all that `REQUANT` does. -/
def Obligations.RequantFollowsItsRule : Prop :=
  ∀ (code alloc scf : Nat) (s : State), s.halted = false →
    (alloc = 0 ∨ 2 ^ (alloc + 1) ≤ code → exec (.requant code alloc scf) s =
      .next { s with ended := .contract .badOperand, errs := s.errs ||| 0b010000 }) ∧
    (1 ≤ alloc → code < 2 ^ (alloc + 1) → exec (.requant code alloc scf) s =
      .next { s with res := (BitVec.ofInt 32 (req code alloc scf)).signExtend 64, ended := .ok })

/-- R160, R162: `REQ` multiplies by the scale factor the integer nearest to `(2^b * F + 2) / (2^b - 1)`, where `F` is the
code without its highest 1 bit; there is no tie, and the result is at most `2^(b-1) * 63`. -/
def Obligations.RequantizerRoundsToTheNearestInteger : Prop :=
  ∀ code alloc scf : Nat, 1 ≤ alloc → alloc ≤ 15 → code < 2 ^ (alloc + 1) → scf ≤ 63 →
    ∃ f r : Nat, (code = 0 → f = 0) ∧ (∀ k, 2 ^ k ≤ code → code < 2 ^ (k + 1) → f + 2 ^ k = code) ∧
      req code alloc scf = ((r * scf : Nat) : Int) ∧
      2 * (2 ^ (alloc + 1) * f + 2) < (2 * r + 1) * (2 ^ (alloc + 1) - 1) ∧
      2 * r * (2 ^ (alloc + 1) - 1) < 2 * (2 ^ (alloc + 1) * f + 2) + (2 ^ (alloc + 1) - 1) ∧
      r * scf ≤ 2 ^ alloc * 63

/-! ## Rules about the whole machine -/

/-- R201: every command ends, in a next state. -/
def Obligations.EveryCommandEnds : Prop := ∀ (i : Instr) (s : State), ∃ t, exec i s = .next t

/-- R206: a halted block answers every word with `IOFAIL` and changes nothing else; only an I/O failure halts it, and no
command ends the halt. -/
def Obligations.HaltedBlockAnswersIoFailUntilReset : Prop :=
  (∀ (s : State) (w : CmdWord) (rest : List HostAction), s.inputs = .command w :: rest → s.halted = true →
    step s = .next { s with inputs := rest, ended := .ioFail }) ∧
  (∀ (i : Instr) (s t : State), exec i s = .next t → (t.halted = true ↔ s.halted = true ∨ t.ended = .ioFail)) ∧
  (∀ (s t : State) (rest : List HostAction), s.inputs = .reset :: rest → step s = .next t → t.halted = false)

/-- R204, R209: only a command that reads data bytes can end `IOFAIL` on a block that is not halted; and on a state of the
block only for an address `a` that it reads and that answers `ERR`: every byte from `POS` to `a` answered, `POS` has not
passed `a`, and `a` lies in the field of `READBITS` or `DECHDR`, is where `FINDSYNC` stands, or lies in the audio data of
`DECL1`. -/
def Obligations.IoFailureComesFromTheSource : Prop :=
  ∀ (i : Instr) (s t : State), s.halted = false → exec i s = .next t → t.ended = .ioFail →
    (i = .findSync ∨ i = .decHdr ∨ i = .decL1 ∨ ∃ n, i = .readBits n ∧ s.cnt.toNat < n) ∧
      (s.Inv → ∃ a, a ∈ s.src.errs ∧ s.pos.toNat ≤ a ∧ t.pos.toNat ≤ a ∧ Readable s.src s.pos.toNat a ∧
        (∀ n, i = .readBits n → a < s.pos.toNat + (n - s.cnt.toNat + 7) / 8) ∧
        (i = .decHdr → a < s.pos.toNat + 3) ∧
        (i = .findSync → a = t.pos.toNat) ∧
        (i = .decL1 → 8 * a < frameEnd s.src s.hdr s.bp))

/-- R23: the bit of the status a command word ends with is set and no bit is cleared; `ERRS[0]` stays 0. -/
def Obligations.ErrsIsSticky : Prop :=
  ∀ (s t : State) (w : CmdWord) (rest : List HostAction), s.inputs = .command w :: rest → step s = .next t →
    (∀ c : Nat, t.errs.getLsbD c = (s.errs.getLsbD c || decide (t.ended ≠ .ok ∧ c = statusCode t.ended))) ∧
      (s.errs.getLsbD 0 = false → t.errs.getLsbD 0 = false)

/-- R208: a command word that ends `CONTRACT` has changed nothing but `STATUS`, `REASON` and `ERRS[4]`. -/
def Obligations.ContractViolationsChangeNothingElse : Prop :=
  ∀ (s t : State) (w : CmdWord) (rest : List HostAction) (c : ContractReason), s.Inv →
    s.inputs = .command w :: rest → step s = .next t → t.ended = .contract c →
      t = { s with inputs := rest, ended := .contract c, errs := s.errs ||| 0b010000 }

/-- R40: no command changes the source: every address answers as before; nor what the host does next. -/
def Obligations.NoCommandWritesTheSource : Prop :=
  ∀ (i : Instr) (s t : State), exec i s = .next t →
    t.src = s.src ∧ (∀ a, t.src.memRead a = s.src.memRead a) ∧ t.inputs = s.inputs

/-- R17: `RES` is written only by the six commands that return a value, and only when they end `OK`, but for `FINDSYNC`
ending `NOSYNC`. -/
def Obligations.ResultIsWrittenOnlyBySuccess : Prop :=
  ∀ (i : Instr) (s t : State), exec i s = .next t → t.res ≠ s.res →
    (t.ended = .ok ∧ (i = .align ∨ i = .position ∨ i = .findSync ∨ i = .fLen ∨ (∃ n, i = .readBits n) ∨
        ∃ c a f, i = .requant c a f)) ∨
      (t.ended = .noSync ∧ i = .findSync)

/-- R31: `HDR` is written by `DECHDR` alone, the Layer I arrays and their flag by `DECL1` and `DECHDR` alone. -/
def Obligations.OnlyTheDecodersWriteTheirRegisters : Prop :=
  ∀ (i : Instr) (s t : State), exec i s = .next t →
    (i ≠ .decHdr → t.hdrValid = s.hdrValid ∧ t.hdr = s.hdr) ∧
      (i ≠ .decHdr → i ≠ .decL1 →
        t.l1Valid = s.l1Valid ∧ t.alloc = s.alloc ∧ t.scf = s.scf ∧ t.samp = s.samp ∧ t.draws = s.draws)

/-- R14, R236: on a state of the block only `SKIPBYTES` with a negative operand makes `POS` smaller, and only `SKIPBYTES`
with an operand of at most 0 makes `BP` smaller. -/
def Obligations.OnlySkipsMoveTheCursorBack : Prop :=
  ∀ (i : Instr) (s t : State), s.Inv → exec i s = .next t →
    (t.pos.toNat < s.pos.toNat → ∃ k : Int, i = .skipBytes k ∧ k < 0) ∧
      (t.bp < s.bp → ∃ k : Int, i = .skipBytes k ∧ k ≤ 0)

/-- R28, R30, R31: what the host cannot read, and what is unspecified, plays no part: from two states that are the same for
the host every command leads to states that are the same for the host, and all its reads agree. -/
def Obligations.UnseenStateHasNoInfluence : Prop :=
  (∀ (i : Instr) (s s' : State), SameForHost s s' →
    ∃ t t', exec i s = .next t ∧ exec i s' = .next t' ∧ SameForHost t t') ∧
  (∀ (r : HostReg) (s s' : State), SameForHost s s' → hostRead r s = hostRead r s')

/-- R18, R19, R20, R27, R28, R30, R31: what a host read gives. `ACC` cannot be read; the cursor, the result, the status
registers and the two valid flags always can, `STATUS` and `REASON` as the codes of how the last command ended; a header
field and an array entry have no definite value while their flag is 0 and their register code while it is 1. -/
def Obligations.HostReadsFollowTheValidFlags : Prop :=
  ∀ s : State, hostRead .acc s = .notReadable ∧
    hostRead .cnt s = .bits s.cnt.toNat ∧ hostRead .pos s = .bits s.pos.toNat ∧ hostRead .res s = .bits s.res.toNat ∧
    hostRead .status s = .bits s.status.toNat ∧ hostRead .reason s = .bits s.reason.toNat ∧
    hostRead .status s = .bits (match s.ended with
      | .ok => 0 | .eos => 1 | .noSync => 2 | .invHdr _ => 3 | .contract _ => 4 | .ioFail => 5) ∧
    hostRead .reason s = .bits (match s.ended with
      | .invHdr .version => 1 | .invHdr .layer => 2 | .invHdr .bitrate => 3 | .invHdr .frequency => 4
      | .invHdr .emphasis => 5
      | .contract .badOpcode => 1 | .contract .badOperand => 2 | .contract .unaligned => 3
      | .contract .noHeader => 4 | .contract .badSkip => 5
      | .ok => 0 | .eos => 0 | .noSync => 0 | .ioFail => 0) ∧
    hostRead .errs s = .bits s.errs.toNat ∧ hostRead .hdrValid s = .bits s.hdrValid.toNat ∧
    hostRead .l1Valid s = .bits s.l1Valid.toNat ∧
    (s.hdrValid = false → ∀ r ∈ [HostReg.hdrVersion, .hdrLayer, .hdrProt, .hdrBitrate, .hdrFreq, .hdrPadded, .hdrMode,
      .hdrModeExt, .hdrIStereo, .hdrMsStereo, .hdrCopyright, .hdrOriginal, .hdrEmphasis], hostRead r s = .unspecified) ∧
    (s.hdrValid = true →
      hostRead .hdrVersion s = .bits (match s.hdr.version with | .mpeg1 => 0 | .mpeg2 => 1 | .mpeg25 => 2) ∧
      hostRead .hdrLayer s = .bits (match s.hdr.layer with | .layer1 => 0 | .layer2 => 1 | .layer3 => 2) ∧
      hostRead .hdrProt s = .bits s.hdr.prot.toNat ∧ hostRead .hdrBitrate s = .bits s.hdr.bitrate.toNat ∧
      hostRead .hdrFreq s = .bits s.hdr.freq.toNat ∧ hostRead .hdrPadded s = .bits s.hdr.padded.toNat ∧
      hostRead .hdrMode s = .bits (match s.hdr.mode with
        | .stereo => 0 | .jointStereo => 1 | .dualChannel => 2 | .singleChannel => 3) ∧
      hostRead .hdrModeExt s = .bits s.hdr.modeExt.toNat ∧ hostRead .hdrIStereo s = .bits s.hdr.iStereo.toNat ∧
      hostRead .hdrMsStereo s = .bits s.hdr.msStereo.toNat ∧ hostRead .hdrCopyright s = .bits s.hdr.copyright.toNat ∧
      hostRead .hdrOriginal s = .bits s.hdr.original.toNat ∧
      hostRead .hdrEmphasis s = .bits (match s.hdr.emphasis with | .none => 0 | .microseconds5015 => 1 | .ccittJ17 => 2)) ∧
    ∀ (ch : Fin 2) (sb : Fin 32) (t : Fin 12),
      hostRead (.alloc ch sb) s = (if s.l1Valid then .bits s.alloc[ch][sb].toNat else .unspecified) ∧
      hostRead (.scf ch sb) s = (if s.l1Valid then .bits s.scf[ch][sb].toNat else .unspecified) ∧
      hostRead (.samp ch sb t) s = (if s.l1Valid then .bits s.samp[ch][sb][t].toNat else .unspecified)

/-- Every step keeps the invariant: the source in canonical form, the cursor inside the source, the buffer invariant, the
status registers in agreement, the header invariant, and what the Layer I arrays hold. -/
def Obligations.EveryStepKeepsTheInvariant : Prop := ∀ s t : State, s.Inv → step s = .next t → t.Inv

/-! ## Host sequences -/

/-- R181: `HASID3` on an aligned cursor with three readable bytes: it says whether they are "ID3", and leaves the cursor
after them if they are, else where it was. -/
def Obligations.HasId3ReadsThreeBytesAndRewinds : Prop :=
  ∀ s : State, s.Inv → s.halted = false → s.cnt = 0 → Readable s.src s.pos.toNat (s.pos.toNat + 3) →
    let tag := s.src.byteAt s.pos.toNat = 0x49 ∧ s.src.byteAt (s.pos.toNat + 1) = 0x44 ∧
      s.src.byteAt (s.pos.toNat + 2) = 0x33
    ∃ t, t.cnt = 0 ∧ t.ended = .ok ∧
      (tag → hasId3 s = .next (.yes, t) ∧ t.pos.toNat = s.pos.toNat + 3) ∧
      (¬ tag → hasId3 s = .next (.no, t) ∧ t.pos = s.pos)

/-- R182: the synchsafe size takes the low 7 bits of each byte, the first byte highest, and drops the high bits. -/
def Obligations.SynchsafeSizeDropsTheHighBits : Prop :=
  ∀ a b c d : Byte, synchsafe (a ++ b ++ c ++ d) =
    (a.toNat % 128) * 2 ^ 21 + (b.toNat % 128) * 2 ^ 14 + (c.toNat % 128) * 2 ^ 7 + d.toNat % 128

/-- R182: `SKIPID3` after "ID3", with the rest of the tag header readable and the tag inside the source, leaves the cursor
aligned right after the tag: 7 bytes, the decoded size, and 10 more for a footer. -/
def Obligations.SkipId3LandsAfterTheTag : Prop :=
  ∀ s : State, s.Inv → s.halted = false → s.cnt = 0 → Readable s.src (s.pos.toNat + 2) (s.pos.toNat + 7) →
    let byte := fun j : Nat => s.src.byteAt (s.pos.toNat + j)
    let size := synchsafe (byte 3 ++ byte 4 ++ byte 5 ++ byte 6) + (if (byte 2).getLsbD 4 then 10 else 0)
    s.pos.toNat + 7 + size ≤ s.src.len →
    ∃ t, skipId3 s = .next (.done, t) ∧ t.pos.toNat = s.pos.toNat + 7 + size ∧ t.cnt = 0 ∧ t.ended = .ok

/-- R184, R185: `DECODE` always returns a track, with the source identifier the host gave; each of its frames has samples
exactly when its header is Layer I, one plane per channel, and a CRC value exactly when its header is protected. -/
def Obligations.DecodeReturnsFramesOfTheRightShape : Prop :=
  ∀ (ι : Type) (id : ι) (s : State), ∃ track t, decodeTrack id s = .next (track, t) ∧ track.source = id ∧
    ∀ f ∈ track.frames, (f.samples.isSome = true ↔ f.header.layer = .layer1) ∧
      (∀ planes, f.samples = some planes → planes.length = if f.header.mode = .singleChannel then 1 else 2) ∧
      (f.crc.isSome = true ↔ f.header.prot = true)

/-! ## The parameters -/

/-- `standard` has the defaults of R5's widths (64, 64, 64 and 32 bits) and of its `REFILL`. That `exec` and `step` are the
block at these defaults is log entry 11's (DEDUCED, no rule's), and the ranges of `LegalConfig`, in which the defaults lie,
are the model's choice (log entry 11, DESIGN CHOICE). -/
def Obligations.TheMachineIsTheBlockAtTheDefaults : Prop :=
  standard.xlenAcc = 64 ∧ standard.xlenPos = 64 ∧ standard.cmdLen = 64 ∧ standard.sampW = 32 ∧
    (∀ n cnt, standard.refill n cnt = (n - cnt + 7) / 8) ∧
    LegalConfig standard ∧ (∀ (i : Instr) (s : State), exec i s = execWith standard i s) ∧
    ∀ s : State, step s = stepWith standard s

/-- R5, R80, D7: whatever `REFILL` fetches beyond what suffices, `READBITS n` gives the next `n` stream bits, all of them
where `RES` has `n` bits, and moves the cursor by exactly `n` bits. Which refills and widths are legal, and that a `RES`
of fewer than `n` bits keeps the low bits of the field, is the model's choice (log entry 11, DESIGN CHOICE). -/
def Obligations.AnyRefillReadsTheSameField : Prop :=
  ∀ (c : Config) (n : Nat) (s : State), LegalConfig c → s.halted = false → 1 ≤ n → n ≤ 64 →
    s.cnt.toNat ≤ 8 * s.pos.toNat → s.pos.toNat + c.refill n s.cnt.toNat < 2 ^ c.xlenPos →
    Readable s.src s.pos.toNat (s.pos.toNat + c.refill n s.cnt.toNat) →
    ∃ t, execWith c (.readBits n) s = .next t ∧ t.ended = .ok ∧
      (n ≤ c.xlenPos → t.res.toNat = streamValue s.src s.bp n) ∧
      t.res.toNat = streamValue s.src s.bp n % 2 ^ c.xlenPos ∧ t.bp = s.bp + n ∧ t.src = s.src
end

