-- ==== Sys2Proof/Laws/State.lean ====
section
/-! SUPPORT. What each shared update of the state does to each field, true by rfl, so that no later proof unfolds a record
update. -/

namespace Sys2Proof.Machine

/-! ## finish -/

@[simp] theorem finish_acc (c : Completion) (s : State) : (finish c s).acc = s.acc := rfl
@[simp] theorem finish_cnt (c : Completion) (s : State) : (finish c s).cnt = s.cnt := rfl
@[simp] theorem finish_pos (c : Completion) (s : State) : (finish c s).pos = s.pos := rfl
@[simp] theorem finish_res (c : Completion) (s : State) : (finish c s).res = s.res := rfl
@[simp] theorem finish_ended (c : Completion) (s : State) : (finish c s).ended = c := rfl
@[simp] theorem finish_errs (c : Completion) (s : State) : (finish c s).errs = errsAfter s.errs c := rfl
@[simp] theorem finish_hdrValid (c : Completion) (s : State) : (finish c s).hdrValid = s.hdrValid := rfl
@[simp] theorem finish_hdr (c : Completion) (s : State) : (finish c s).hdr = s.hdr := rfl
@[simp] theorem finish_l1Valid (c : Completion) (s : State) : (finish c s).l1Valid = s.l1Valid := rfl
@[simp] theorem finish_alloc (c : Completion) (s : State) : (finish c s).alloc = s.alloc := rfl
@[simp] theorem finish_scf (c : Completion) (s : State) : (finish c s).scf = s.scf := rfl
@[simp] theorem finish_samp (c : Completion) (s : State) : (finish c s).samp = s.samp := rfl
@[simp] theorem finish_src (c : Completion) (s : State) : (finish c s).src = s.src := rfl
@[simp] theorem finish_inputs (c : Completion) (s : State) : (finish c s).inputs = s.inputs := rfl
@[simp] theorem finish_draws (c : Completion) (s : State) : (finish c s).draws = s.draws := rfl

/-! ## endOk -/

@[simp] theorem endOk_acc (s : State) : (endOk s).acc = s.acc := rfl
@[simp] theorem endOk_cnt (s : State) : (endOk s).cnt = s.cnt := rfl
@[simp] theorem endOk_pos (s : State) : (endOk s).pos = s.pos := rfl
@[simp] theorem endOk_res (s : State) : (endOk s).res = s.res := rfl
@[simp] theorem endOk_ended (s : State) : (endOk s).ended = .ok := rfl
@[simp] theorem endOk_errs (s : State) : (endOk s).errs = s.errs := rfl
@[simp] theorem endOk_hdrValid (s : State) : (endOk s).hdrValid = s.hdrValid := rfl
@[simp] theorem endOk_hdr (s : State) : (endOk s).hdr = s.hdr := rfl
@[simp] theorem endOk_l1Valid (s : State) : (endOk s).l1Valid = s.l1Valid := rfl
@[simp] theorem endOk_alloc (s : State) : (endOk s).alloc = s.alloc := rfl
@[simp] theorem endOk_scf (s : State) : (endOk s).scf = s.scf := rfl
@[simp] theorem endOk_samp (s : State) : (endOk s).samp = s.samp := rfl
@[simp] theorem endOk_src (s : State) : (endOk s).src = s.src := rfl
@[simp] theorem endOk_inputs (s : State) : (endOk s).inputs = s.inputs := rfl
@[simp] theorem endOk_draws (s : State) : (endOk s).draws = s.draws := rfl

/-! ## raise -/

@[simp] theorem raise_acc (x : Exn) (s : State) : (raise x s).acc = s.acc := rfl
@[simp] theorem raise_cnt (x : Exn) (s : State) : (raise x s).cnt = s.cnt := rfl
@[simp] theorem raise_pos (x : Exn) (s : State) : (raise x s).pos = s.pos := rfl
@[simp] theorem raise_res (x : Exn) (s : State) : (raise x s).res = s.res := rfl
@[simp] theorem raise_ended (x : Exn) (s : State) : (raise x s).ended = x.completion := rfl
@[simp] theorem raise_errs (x : Exn) (s : State) : (raise x s).errs = errsAfter s.errs x.completion := rfl
@[simp] theorem raise_hdrValid (x : Exn) (s : State) : (raise x s).hdrValid = s.hdrValid := rfl
@[simp] theorem raise_hdr (x : Exn) (s : State) : (raise x s).hdr = s.hdr := rfl
@[simp] theorem raise_l1Valid (x : Exn) (s : State) : (raise x s).l1Valid = s.l1Valid := rfl
@[simp] theorem raise_alloc (x : Exn) (s : State) : (raise x s).alloc = s.alloc := rfl
@[simp] theorem raise_scf (x : Exn) (s : State) : (raise x s).scf = s.scf := rfl
@[simp] theorem raise_samp (x : Exn) (s : State) : (raise x s).samp = s.samp := rfl
@[simp] theorem raise_src (x : Exn) (s : State) : (raise x s).src = s.src := rfl
@[simp] theorem raise_inputs (x : Exn) (s : State) : (raise x s).inputs = s.inputs := rfl
@[simp] theorem raise_draws (x : Exn) (s : State) : (raise x s).draws = s.draws := rfl

/-! ## endHalted -/

@[simp] theorem endHalted_acc (s : State) : (endHalted s).acc = s.acc := rfl
@[simp] theorem endHalted_cnt (s : State) : (endHalted s).cnt = s.cnt := rfl
@[simp] theorem endHalted_pos (s : State) : (endHalted s).pos = s.pos := rfl
@[simp] theorem endHalted_res (s : State) : (endHalted s).res = s.res := rfl
@[simp] theorem endHalted_ended (s : State) : (endHalted s).ended = .ioFail := rfl
@[simp] theorem endHalted_errs (s : State) : (endHalted s).errs = s.errs := rfl
@[simp] theorem endHalted_hdrValid (s : State) : (endHalted s).hdrValid = s.hdrValid := rfl
@[simp] theorem endHalted_hdr (s : State) : (endHalted s).hdr = s.hdr := rfl
@[simp] theorem endHalted_l1Valid (s : State) : (endHalted s).l1Valid = s.l1Valid := rfl
@[simp] theorem endHalted_alloc (s : State) : (endHalted s).alloc = s.alloc := rfl
@[simp] theorem endHalted_scf (s : State) : (endHalted s).scf = s.scf := rfl
@[simp] theorem endHalted_samp (s : State) : (endHalted s).samp = s.samp := rfl
@[simp] theorem endHalted_src (s : State) : (endHalted s).src = s.src := rfl
@[simp] theorem endHalted_inputs (s : State) : (endHalted s).inputs = s.inputs := rfl
@[simp] theorem endHalted_draws (s : State) : (endHalted s).draws = s.draws := rfl

/-! ## endNoSync -/

@[simp] theorem endNoSync_acc (s : State) : (endNoSync s).acc = s.acc := rfl
@[simp] theorem endNoSync_cnt (s : State) : (endNoSync s).cnt = s.cnt := rfl
@[simp] theorem endNoSync_pos (s : State) : (endNoSync s).pos = s.pos := rfl
@[simp] theorem endNoSync_res (s : State) : (endNoSync s).res = 0 := rfl
@[simp] theorem endNoSync_ended (s : State) : (endNoSync s).ended = .noSync := rfl
@[simp] theorem endNoSync_errs (s : State) : (endNoSync s).errs = errsAfter s.errs .noSync := rfl
@[simp] theorem endNoSync_hdrValid (s : State) : (endNoSync s).hdrValid = s.hdrValid := rfl
@[simp] theorem endNoSync_hdr (s : State) : (endNoSync s).hdr = s.hdr := rfl
@[simp] theorem endNoSync_l1Valid (s : State) : (endNoSync s).l1Valid = s.l1Valid := rfl
@[simp] theorem endNoSync_alloc (s : State) : (endNoSync s).alloc = s.alloc := rfl
@[simp] theorem endNoSync_scf (s : State) : (endNoSync s).scf = s.scf := rfl
@[simp] theorem endNoSync_samp (s : State) : (endNoSync s).samp = s.samp := rfl
@[simp] theorem endNoSync_src (s : State) : (endNoSync s).src = s.src := rfl
@[simp] theorem endNoSync_inputs (s : State) : (endNoSync s).inputs = s.inputs := rfl
@[simp] theorem endNoSync_draws (s : State) : (endNoSync s).draws = s.draws := rfl

/-! ## setCursor -/

@[simp] theorem setCursor_acc (c : Config) (p k : Nat) (s : State) : (setCursor c p k s).acc = accWord c (bufferedBits s.src p k) := rfl
@[simp] theorem setCursor_cnt (c : Config) (p k : Nat) (s : State) : (setCursor c p k s).cnt = BitVec.ofNat 6 k := rfl
@[simp] theorem setCursor_pos (c : Config) (p k : Nat) (s : State) : (setCursor c p k s).pos = posWord c p := rfl
@[simp] theorem setCursor_res (c : Config) (p k : Nat) (s : State) : (setCursor c p k s).res = s.res := rfl
@[simp] theorem setCursor_ended (c : Config) (p k : Nat) (s : State) : (setCursor c p k s).ended = s.ended := rfl
@[simp] theorem setCursor_errs (c : Config) (p k : Nat) (s : State) : (setCursor c p k s).errs = s.errs := rfl
@[simp] theorem setCursor_hdrValid (c : Config) (p k : Nat) (s : State) : (setCursor c p k s).hdrValid = s.hdrValid := rfl
@[simp] theorem setCursor_hdr (c : Config) (p k : Nat) (s : State) : (setCursor c p k s).hdr = s.hdr := rfl
@[simp] theorem setCursor_l1Valid (c : Config) (p k : Nat) (s : State) : (setCursor c p k s).l1Valid = s.l1Valid := rfl
@[simp] theorem setCursor_alloc (c : Config) (p k : Nat) (s : State) : (setCursor c p k s).alloc = s.alloc := rfl
@[simp] theorem setCursor_scf (c : Config) (p k : Nat) (s : State) : (setCursor c p k s).scf = s.scf := rfl
@[simp] theorem setCursor_samp (c : Config) (p k : Nat) (s : State) : (setCursor c p k s).samp = s.samp := rfl
@[simp] theorem setCursor_src (c : Config) (p k : Nat) (s : State) : (setCursor c p k s).src = s.src := rfl
@[simp] theorem setCursor_inputs (c : Config) (p k : Nat) (s : State) : (setCursor c p k s).inputs = s.inputs := rfl
@[simp] theorem setCursor_draws (c : Config) (p k : Nat) (s : State) : (setCursor c p k s).draws = s.draws := rfl

/-! ## setAlloc -/

@[simp] theorem setAlloc_acc (ch : Fin 2) (sb : Fin 32) (v : BitVec 4) (s : State) : (setAlloc ch sb v s).acc = s.acc := rfl
@[simp] theorem setAlloc_cnt (ch : Fin 2) (sb : Fin 32) (v : BitVec 4) (s : State) : (setAlloc ch sb v s).cnt = s.cnt := rfl
@[simp] theorem setAlloc_pos (ch : Fin 2) (sb : Fin 32) (v : BitVec 4) (s : State) : (setAlloc ch sb v s).pos = s.pos := rfl
@[simp] theorem setAlloc_res (ch : Fin 2) (sb : Fin 32) (v : BitVec 4) (s : State) : (setAlloc ch sb v s).res = s.res := rfl
@[simp] theorem setAlloc_ended (ch : Fin 2) (sb : Fin 32) (v : BitVec 4) (s : State) : (setAlloc ch sb v s).ended = s.ended := rfl
@[simp] theorem setAlloc_errs (ch : Fin 2) (sb : Fin 32) (v : BitVec 4) (s : State) : (setAlloc ch sb v s).errs = s.errs := rfl
@[simp] theorem setAlloc_hdrValid (ch : Fin 2) (sb : Fin 32) (v : BitVec 4) (s : State) : (setAlloc ch sb v s).hdrValid = s.hdrValid := rfl
@[simp] theorem setAlloc_hdr (ch : Fin 2) (sb : Fin 32) (v : BitVec 4) (s : State) : (setAlloc ch sb v s).hdr = s.hdr := rfl
@[simp] theorem setAlloc_l1Valid (ch : Fin 2) (sb : Fin 32) (v : BitVec 4) (s : State) : (setAlloc ch sb v s).l1Valid = s.l1Valid := rfl
@[simp] theorem setAlloc_alloc (ch : Fin 2) (sb : Fin 32) (v : BitVec 4) (s : State) : (setAlloc ch sb v s).alloc = s.alloc.set ch (s.alloc[ch].set sb v) := rfl
@[simp] theorem setAlloc_scf (ch : Fin 2) (sb : Fin 32) (v : BitVec 4) (s : State) : (setAlloc ch sb v s).scf = s.scf := rfl
@[simp] theorem setAlloc_samp (ch : Fin 2) (sb : Fin 32) (v : BitVec 4) (s : State) : (setAlloc ch sb v s).samp = s.samp := rfl
@[simp] theorem setAlloc_src (ch : Fin 2) (sb : Fin 32) (v : BitVec 4) (s : State) : (setAlloc ch sb v s).src = s.src := rfl
@[simp] theorem setAlloc_inputs (ch : Fin 2) (sb : Fin 32) (v : BitVec 4) (s : State) : (setAlloc ch sb v s).inputs = s.inputs := rfl
@[simp] theorem setAlloc_draws (ch : Fin 2) (sb : Fin 32) (v : BitVec 4) (s : State) : (setAlloc ch sb v s).draws = s.draws := rfl

/-! ## setScf -/

@[simp] theorem setScf_acc (ch : Fin 2) (sb : Fin 32) (v : BitVec 6) (s : State) : (setScf ch sb v s).acc = s.acc := rfl
@[simp] theorem setScf_cnt (ch : Fin 2) (sb : Fin 32) (v : BitVec 6) (s : State) : (setScf ch sb v s).cnt = s.cnt := rfl
@[simp] theorem setScf_pos (ch : Fin 2) (sb : Fin 32) (v : BitVec 6) (s : State) : (setScf ch sb v s).pos = s.pos := rfl
@[simp] theorem setScf_res (ch : Fin 2) (sb : Fin 32) (v : BitVec 6) (s : State) : (setScf ch sb v s).res = s.res := rfl
@[simp] theorem setScf_ended (ch : Fin 2) (sb : Fin 32) (v : BitVec 6) (s : State) : (setScf ch sb v s).ended = s.ended := rfl
@[simp] theorem setScf_errs (ch : Fin 2) (sb : Fin 32) (v : BitVec 6) (s : State) : (setScf ch sb v s).errs = s.errs := rfl
@[simp] theorem setScf_hdrValid (ch : Fin 2) (sb : Fin 32) (v : BitVec 6) (s : State) : (setScf ch sb v s).hdrValid = s.hdrValid := rfl
@[simp] theorem setScf_hdr (ch : Fin 2) (sb : Fin 32) (v : BitVec 6) (s : State) : (setScf ch sb v s).hdr = s.hdr := rfl
@[simp] theorem setScf_l1Valid (ch : Fin 2) (sb : Fin 32) (v : BitVec 6) (s : State) : (setScf ch sb v s).l1Valid = s.l1Valid := rfl
@[simp] theorem setScf_alloc (ch : Fin 2) (sb : Fin 32) (v : BitVec 6) (s : State) : (setScf ch sb v s).alloc = s.alloc := rfl
@[simp] theorem setScf_scf (ch : Fin 2) (sb : Fin 32) (v : BitVec 6) (s : State) : (setScf ch sb v s).scf = s.scf.set ch (s.scf[ch].set sb v) := rfl
@[simp] theorem setScf_samp (ch : Fin 2) (sb : Fin 32) (v : BitVec 6) (s : State) : (setScf ch sb v s).samp = s.samp := rfl
@[simp] theorem setScf_src (ch : Fin 2) (sb : Fin 32) (v : BitVec 6) (s : State) : (setScf ch sb v s).src = s.src := rfl
@[simp] theorem setScf_inputs (ch : Fin 2) (sb : Fin 32) (v : BitVec 6) (s : State) : (setScf ch sb v s).inputs = s.inputs := rfl
@[simp] theorem setScf_draws (ch : Fin 2) (sb : Fin 32) (v : BitVec 6) (s : State) : (setScf ch sb v s).draws = s.draws := rfl

/-! ## setSamp -/

@[simp] theorem setSamp_acc (ch : Fin 2) (sb : Fin 32) (t : Fin 12) (v : BitVec 32) (s : State) : (setSamp ch sb t v s).acc = s.acc := rfl
@[simp] theorem setSamp_cnt (ch : Fin 2) (sb : Fin 32) (t : Fin 12) (v : BitVec 32) (s : State) : (setSamp ch sb t v s).cnt = s.cnt := rfl
@[simp] theorem setSamp_pos (ch : Fin 2) (sb : Fin 32) (t : Fin 12) (v : BitVec 32) (s : State) : (setSamp ch sb t v s).pos = s.pos := rfl
@[simp] theorem setSamp_res (ch : Fin 2) (sb : Fin 32) (t : Fin 12) (v : BitVec 32) (s : State) : (setSamp ch sb t v s).res = s.res := rfl
@[simp] theorem setSamp_ended (ch : Fin 2) (sb : Fin 32) (t : Fin 12) (v : BitVec 32) (s : State) : (setSamp ch sb t v s).ended = s.ended := rfl
@[simp] theorem setSamp_errs (ch : Fin 2) (sb : Fin 32) (t : Fin 12) (v : BitVec 32) (s : State) : (setSamp ch sb t v s).errs = s.errs := rfl
@[simp] theorem setSamp_hdrValid (ch : Fin 2) (sb : Fin 32) (t : Fin 12) (v : BitVec 32) (s : State) : (setSamp ch sb t v s).hdrValid = s.hdrValid := rfl
@[simp] theorem setSamp_hdr (ch : Fin 2) (sb : Fin 32) (t : Fin 12) (v : BitVec 32) (s : State) : (setSamp ch sb t v s).hdr = s.hdr := rfl
@[simp] theorem setSamp_l1Valid (ch : Fin 2) (sb : Fin 32) (t : Fin 12) (v : BitVec 32) (s : State) : (setSamp ch sb t v s).l1Valid = s.l1Valid := rfl
@[simp] theorem setSamp_alloc (ch : Fin 2) (sb : Fin 32) (t : Fin 12) (v : BitVec 32) (s : State) : (setSamp ch sb t v s).alloc = s.alloc := rfl
@[simp] theorem setSamp_scf (ch : Fin 2) (sb : Fin 32) (t : Fin 12) (v : BitVec 32) (s : State) : (setSamp ch sb t v s).scf = s.scf := rfl
@[simp] theorem setSamp_samp (ch : Fin 2) (sb : Fin 32) (t : Fin 12) (v : BitVec 32) (s : State) : (setSamp ch sb t v s).samp = s.samp.set ch (s.samp[ch].set sb (s.samp[ch][sb].set t v)) := rfl
@[simp] theorem setSamp_src (ch : Fin 2) (sb : Fin 32) (t : Fin 12) (v : BitVec 32) (s : State) : (setSamp ch sb t v s).src = s.src := rfl
@[simp] theorem setSamp_inputs (ch : Fin 2) (sb : Fin 32) (t : Fin 12) (v : BitVec 32) (s : State) : (setSamp ch sb t v s).inputs = s.inputs := rfl
@[simp] theorem setSamp_draws (ch : Fin 2) (sb : Fin 32) (t : Fin 12) (v : BitVec 32) (s : State) : (setSamp ch sb t v s).draws = s.draws := rfl

/-! ## clearLayer1 -/

@[simp] theorem clearLayer1_acc (s : State) : (clearLayer1 s).acc = s.acc := rfl
@[simp] theorem clearLayer1_cnt (s : State) : (clearLayer1 s).cnt = s.cnt := rfl
@[simp] theorem clearLayer1_pos (s : State) : (clearLayer1 s).pos = s.pos := rfl
@[simp] theorem clearLayer1_res (s : State) : (clearLayer1 s).res = s.res := rfl
@[simp] theorem clearLayer1_ended (s : State) : (clearLayer1 s).ended = s.ended := rfl
@[simp] theorem clearLayer1_errs (s : State) : (clearLayer1 s).errs = s.errs := rfl
@[simp] theorem clearLayer1_hdrValid (s : State) : (clearLayer1 s).hdrValid = s.hdrValid := rfl
@[simp] theorem clearLayer1_hdr (s : State) : (clearLayer1 s).hdr = s.hdr := rfl
@[simp] theorem clearLayer1_l1Valid (s : State) : (clearLayer1 s).l1Valid = s.l1Valid := rfl
@[simp] theorem clearLayer1_alloc (s : State) : (clearLayer1 s).alloc = Vector.replicate 2 (Vector.replicate 32 0) := rfl
@[simp] theorem clearLayer1_scf (s : State) : (clearLayer1 s).scf = Vector.replicate 2 (Vector.replicate 32 0) := rfl
@[simp] theorem clearLayer1_samp (s : State) : (clearLayer1 s).samp = Vector.replicate 2 (Vector.replicate 32 (Vector.replicate 12 0)) := rfl
@[simp] theorem clearLayer1_src (s : State) : (clearLayer1 s).src = s.src := rfl
@[simp] theorem clearLayer1_inputs (s : State) : (clearLayer1 s).inputs = s.inputs := rfl
@[simp] theorem clearLayer1_draws (s : State) : (clearLayer1 s).draws = s.draws := rfl

/-! ## forgetLayer1 -/

@[simp] theorem forgetLayer1_acc (s : State) : (forgetLayer1 s).acc = s.acc := rfl
@[simp] theorem forgetLayer1_cnt (s : State) : (forgetLayer1 s).cnt = s.cnt := rfl
@[simp] theorem forgetLayer1_pos (s : State) : (forgetLayer1 s).pos = s.pos := rfl
@[simp] theorem forgetLayer1_res (s : State) : (forgetLayer1 s).res = s.res := rfl
@[simp] theorem forgetLayer1_ended (s : State) : (forgetLayer1 s).ended = s.ended := rfl
@[simp] theorem forgetLayer1_errs (s : State) : (forgetLayer1 s).errs = s.errs := rfl
@[simp] theorem forgetLayer1_hdrValid (s : State) : (forgetLayer1 s).hdrValid = s.hdrValid := rfl
@[simp] theorem forgetLayer1_hdr (s : State) : (forgetLayer1 s).hdr = s.hdr := rfl
@[simp] theorem forgetLayer1_l1Valid (s : State) : (forgetLayer1 s).l1Valid = s.l1Valid := rfl
@[simp] theorem forgetLayer1_alloc (s : State) : (forgetLayer1 s).alloc = Config.freeAlloc s.draws := rfl
@[simp] theorem forgetLayer1_scf (s : State) : (forgetLayer1 s).scf = Config.freeScf s.draws := rfl
@[simp] theorem forgetLayer1_samp (s : State) : (forgetLayer1 s).samp = Config.freeSamp s.draws := rfl
@[simp] theorem forgetLayer1_src (s : State) : (forgetLayer1 s).src = s.src := rfl
@[simp] theorem forgetLayer1_inputs (s : State) : (forgetLayer1 s).inputs = s.inputs := rfl
@[simp] theorem forgetLayer1_draws (s : State) : (forgetLayer1 s).draws = s.draws + 1 := rfl

/-! ## forgetHeader -/

@[simp] theorem forgetHeader_acc (s : State) : (forgetHeader s).acc = s.acc := rfl
@[simp] theorem forgetHeader_cnt (s : State) : (forgetHeader s).cnt = s.cnt := rfl
@[simp] theorem forgetHeader_pos (s : State) : (forgetHeader s).pos = s.pos := rfl
@[simp] theorem forgetHeader_res (s : State) : (forgetHeader s).res = s.res := rfl
@[simp] theorem forgetHeader_ended (s : State) : (forgetHeader s).ended = s.ended := rfl
@[simp] theorem forgetHeader_errs (s : State) : (forgetHeader s).errs = s.errs := rfl
@[simp] theorem forgetHeader_hdrValid (s : State) : (forgetHeader s).hdrValid = s.hdrValid := rfl
@[simp] theorem forgetHeader_hdr (s : State) : (forgetHeader s).hdr = Config.freeHeader s.draws := rfl
@[simp] theorem forgetHeader_l1Valid (s : State) : (forgetHeader s).l1Valid = s.l1Valid := rfl
@[simp] theorem forgetHeader_alloc (s : State) : (forgetHeader s).alloc = s.alloc := rfl
@[simp] theorem forgetHeader_scf (s : State) : (forgetHeader s).scf = s.scf := rfl
@[simp] theorem forgetHeader_samp (s : State) : (forgetHeader s).samp = s.samp := rfl
@[simp] theorem forgetHeader_src (s : State) : (forgetHeader s).src = s.src := rfl
@[simp] theorem forgetHeader_inputs (s : State) : (forgetHeader s).inputs = s.inputs := rfl
@[simp] theorem forgetHeader_draws (s : State) : (forgetHeader s).draws = s.draws + 1 := rfl

/-! ## The parameters at their defaults -/

@[simp] theorem standard_refill : standard.refill = refillBytes := rfl

@[simp] theorem accWord_standard (v : Nat) : accWord standard v = BitVec.ofNat 64 v :=
  BitVec.eq_of_toNat_eq (Nat.mod_mod v (2 ^ 64))

@[simp] theorem posWord_standard (v : Nat) : posWord standard v = BitVec.ofNat 64 v :=
  BitVec.eq_of_toNat_eq (Nat.mod_mod v (2 ^ 64))

@[simp] theorem sampWord_standard (r : Int) : sampWord standard r = BitVec.ofInt 32 r := BitVec.signExtend_eq _

@[simp] theorem resOfSample_standard (r : Int) : resOfSample standard r = (BitVec.ofInt 32 r).signExtend 64 :=
  BitVec.setWidth_eq _

end Sys2Proof.Machine
end

