-- ==== Sys2Proof/Laws/Source.lean ====
section
/-! SUPPORT. Laws of the byte source: the canonical form, what a read answers, and the arithmetic of stream fields. -/

namespace Sys2Proof.Machine

/-! ## The canonical form -/

theorem rising_cons (a : Nat) (l : List Nat) : rising (a :: l) = true ↔ (∀ b ∈ l, a < b) ∧ rising l = true := by
  induction l generalizing a with
  | nil => simp [rising]
  | cons b l ih =>
    simp only [rising, Bool.and_eq_true, decide_eq_true_eq, List.mem_cons, forall_eq_or_imp]
    constructor
    · rintro ⟨hab, hl⟩
      exact ⟨⟨hab, fun c hc => hab.trans (((ih b).1 hl).1 c hc)⟩, hl⟩
    · rintro ⟨⟨hab, -⟩, hl⟩
      exact ⟨hab, hl⟩

theorem mem_load {a : Nat} {bytes : List Byte} {c : Host.Cell} (h : c ∈ Memory.load a bytes) :
    a ≤ c.1 ∧ c.1 < a + bytes.length ∧ c.2 ≠ unlistedByte := by
  induction bytes generalizing a with
  | nil => simp [Memory.load] at h
  | cons b rest ih =>
    rw [Memory.load] at h
    split at h
    · have := ih h; simp only [List.length_cons]; exact ⟨by omega, by omega, this.2.2⟩
    · rcases List.mem_cons.1 h with rfl | h
      · simp only [List.length_cons]; exact ⟨by omega, by omega, by assumption⟩
      · have := ih h; simp only [List.length_cons]; exact ⟨by omega, by omega, this.2.2⟩

theorem rising_load (a : Nat) (bytes : List Byte) : rising ((Memory.load a bytes).map Prod.fst) = true := by
  induction bytes generalizing a with
  | nil => rfl
  | cons b rest ih =>
    rw [Memory.load]
    split
    · exact ih _
    · rw [List.map_cons, rising_cons]
      refine ⟨fun x hx => ?_, ih _⟩
      obtain ⟨c, hc, rfl⟩ := List.mem_map.1 hx
      exact (mem_load hc).1

theorem wf_load (a : Nat) (bytes : List Byte) : Memory.wf (Memory.load a bytes) = true := by
  rw [Memory.wf, Bool.and_eq_true, List.all_eq_true]
  exact ⟨rising_load a bytes, fun c hc => by simpa using (mem_load hc).2.2⟩

/-- The source of the reset state is in canonical form. -/
theorem wf_reset : State.reset.src.wf = true ∧ Memory.wf State.reset.src.cells = true := by decide

theorem mem_insertAddr {a x : Nat} {l : List Nat} : x ∈ insertAddr a l ↔ x = a ∨ x ∈ l := by
  induction l with
  | nil => simp [insertAddr]
  | cons b l ih =>
    rw [insertAddr]
    split
    · simp
    · split
      · subst_vars; simp
      · simp [ih]; tauto

theorem rising_insertAddr {a : Nat} {l : List Nat} (h : rising l = true) : rising (insertAddr a l) = true := by
  induction l with
  | nil => rfl
  | cons b l ih =>
    rw [rising_cons] at h
    rw [insertAddr]
    split
    · rw [rising_cons]
      refine ⟨fun x hx => ?_, (rising_cons b l).2 h⟩
      rcases List.mem_cons.1 hx with rfl | hx
      · assumption
      · exact lt_trans ‹_› (h.1 x hx)
    · split
      · exact (rising_cons b l).2 h
      · rw [rising_cons]
        refine ⟨fun x hx => ?_, ih h.2⟩
        rcases mem_insertAddr.1 hx with rfl | hx
        · omega
        · exact h.1 x hx

theorem rising_errs (errs : List Nat) : rising (errs.foldr insertAddr []) = true := by
  induction errs with
  | nil => rfl
  | cons a l ih => exact rising_insertAddr ih

/-- Building a source from bytes keeps the canonical form. -/
theorem wf_ofBytes (bytes : List Byte) (errs : List Nat) (h : bytes.length < 2 ^ 63) :
    (Source.ofBytes bytes errs).wf = true := by
  have hm := wf_load 0 bytes
  simp only [Source.wf, Source.ofBytes, Bool.and_eq_true, List.all_eq_true]
  exact ⟨⟨⟨hm, fun c hc => decide_eq_true (by have := mem_load hc; omega)⟩, rising_errs errs⟩, decide_eq_true h⟩

theorem read_load (a : Nat) (bytes : List Byte) (i : Nat) (h : a ≤ i) :
    Memory.read (Memory.load a bytes) i = bytes.getD (i - a) unlistedByte := by
  induction bytes generalizing a with
  | nil => simp [Memory.load, Memory.read]
  | cons b rest ih =>
    have e : a < i → (b :: rest).getD (i - a) unlistedByte = rest.getD (i - (a + 1)) unlistedByte := by
      intro hlt
      obtain ⟨k, rfl⟩ : ∃ k, i = a + 1 + k := ⟨i - (a + 1), by omega⟩
      simp [show a + 1 + k - a = k + 1 by omega]
    rw [Memory.load]
    rcases Nat.lt_or_ge a i with hlt | hge
    · split
      · rw [ih _ (by omega), e hlt]
      · rw [Memory.read, if_neg (by omega), ih _ (by omega), e hlt]
    · obtain rfl : a = i := by omega
      split
      · rename_i hb
        subst hb
        have key : ∀ (m : Memory) (j : Nat), (∀ c ∈ m, j < c.1) → Memory.read m j = unlistedByte := by
          intro m j hm
          induction m with
          | nil => rfl
          | cons c m ihm =>
            rw [Memory.read, if_neg (by have := hm c (by simp); omega)]
            exact ihm (fun d hd => hm d (by simp [hd]))
        rw [key _ _ (fun c hc => by have := mem_load hc; omega)]
        simp
      · simp [Memory.read]

/-- The source made of a byte sequence holds exactly those bytes (R7, R40). -/
theorem byteAt_ofBytes (bytes : List Byte) (errs : List Nat) (a : Nat) (h : a < bytes.length) :
    (Source.ofBytes bytes errs).byteAt a = bytes[a] := by
  rw [Source.byteAt, Source.ofBytes, read_load 0 bytes a (Nat.zero_le a)]
  simp [h]

theorem wf_len {src : Source} (h : src.wf = true) : src.len < 2 ^ 63 := by
  simp only [Source.wf, Bool.and_eq_true, decide_eq_true_eq] at h
  exact h.2

/-! ## What a read answers (R41) -/

theorem memRead_byte_iff {src : Source} {a : Nat} :
    (∃ b, src.memRead a = .byte b) ↔ a < src.len ∧ a ∉ src.errs := by
  unfold Source.memRead
  split <;> rename_i h1
  · simp [h1]
  · split <;> simp_all

theorem replyExn_none_iff {src : Source} {a : Nat} :
    replyExn (src.memRead a) = none ↔ a < src.len ∧ a ∉ src.errs := by
  rw [← memRead_byte_iff]
  cases src.memRead a <;> simp [replyExn]

theorem replyExn_io_iff {src : Source} {a : Nat} : replyExn (src.memRead a) = some .ioFailure ↔ a ∈ src.errs := by
  unfold Source.memRead
  split <;> rename_i h1
  · simp [replyExn, h1]
  · split <;> simp_all [replyExn]

theorem replyExn_eos_iff {src : Source} {a : Nat} :
    replyExn (src.memRead a) = some .endOfStream ↔ a ∉ src.errs ∧ src.len ≤ a := by
  unfold Source.memRead
  split <;> rename_i h1
  · simp [replyExn, h1]
  · split <;> simp_all [replyExn]

theorem replyExn_cases {src : Source} {a : Nat} {x : Exn} (h : replyExn (src.memRead a) = some x) :
    x = .ioFailure ∧ a ∈ src.errs ∨ x = .endOfStream ∧ a ∉ src.errs ∧ src.len ≤ a := by
  unfold Source.memRead at h
  split at h <;> rename_i h1
  · simp [replyExn] at h; exact .inl ⟨h.symm, h1⟩
  · split at h
    · simp [replyExn] at h
    · simp [replyExn] at h; exact .inr ⟨h.symm, h1, by omega⟩

/-! ## Fields of the bit stream (R7) -/

@[simp] theorem field_zero (src : Source) (i : Nat) : src.field i 0 = 0 := rfl

theorem field_succ (src : Source) (i n : Nat) :
    src.field i (n + 1) = 2 * src.field i n + (src.streamBit (i + n)).toNat := rfl

theorem field_lt (src : Source) (i n : Nat) : src.field i n < 2 ^ n := by
  induction n with
  | zero => simp
  | succ n ih =>
    rw [field_succ, Nat.pow_succ]
    have : (src.streamBit (i + n)).toNat ≤ 1 := by cases src.streamBit (i + n) <;> decide
    omega

/-- A field splits into its first `m` bits and the rest (R42). -/
theorem field_add (src : Source) (i m n : Nat) :
    src.field i (m + n) = src.field i m * 2 ^ n + src.field (i + m) n := by
  induction n with
  | zero => simp
  | succ n ih =>
    rw [← Nat.add_assoc, field_succ, ih, field_succ, Nat.pow_succ, Nat.add_assoc i m n]
    ring

theorem streamValue_succ (src : Source) (i n : Nat) :
    streamValue src i (n + 1) = 2 * streamValue src i n + (src.streamBit (i + n)).toNat := by
  unfold streamValue
  rw [List.range_succ, List.map_append, List.sum_append]
  simp only [List.map_cons, List.map_nil, List.sum_cons, List.sum_nil, Nat.add_sub_cancel, Nat.sub_self, pow_zero,
    mul_one, Nat.add_zero]
  congr 1
  rw [← List.sum_map_mul_left]
  congr 1
  apply List.map_congr_left
  intro j hj
  have hj := List.mem_range.1 hj
  have : n - j = n - 1 - j + 1 := by omega
  rw [this, pow_succ]
  ring

/-- The recursive field is the sum R7 writes. -/
theorem field_eq_streamValue (src : Source) (i n : Nat) : src.field i n = streamValue src i n := by
  induction n with
  | zero => rfl
  | succ n ih => rw [field_succ, ih, streamValue_succ]

/-- The 8-bit field at a byte boundary is that byte. -/
theorem field_byte (src : Source) (a : Nat) : src.field (8 * a) 8 = (src.byteAt a).toNat := by
  have hb : ∀ j, j < 8 → src.streamBit (8 * a + j) = (src.byteAt a).getLsbD (7 - j) := by
    intro j hj
    unfold Source.streamBit
    rw [show (8 * a + j) / 8 = a by omega, show (8 * a + j) % 8 = j by omega]
  simp only [field_succ, field_zero, hb 0 (by omega), hb 1 (by omega), hb 2 (by omega), hb 3 (by omega), hb 4 (by omega),
    hb 5 (by omega), hb 6 (by omega), hb 7 (by omega)]
  generalize src.byteAt a = b
  revert b
  decide

theorem readable_mono {src : Source} {lo lo' hi hi' : Nat} (h : Readable src lo hi) (hl : lo ≤ lo') (hh : hi' ≤ hi) :
    Readable src lo' hi' := fun a h1 h2 => h a (hl.trans h1) (h2.trans_le hh)

end Sys2Proof.Machine
end

