-- ==== Sys2Proof/Laws/Ops.lean ====
section
/-! SUPPORT. Laws of the shared operations: what `ReadField` and `Skip` can answer (one inversion lemma each), what they do to
the cursor in terms of the stream bit, and how a command ends. -/

namespace Sys2Proof.Machine

/-! ## Ending a command -/

theorem prologue_running {s : State} (h : s.halted = false) (rule : State → State) :
    prologue s rule = .next (rule s) := by simp [prologue, h]

theorem prologue_halted {s : State} (h : s.halted = true) (rule : State → State) :
    prologue s rule = .next (endHalted s) := by simp [prologue, h]

@[simp] theorem errsAfter_ok (e : BitVec 6) : errsAfter e .ok = e := rfl

theorem endOk_eq (s : State) : endOk s = { s with ended := .ok } := rfl

theorem errsAfter_getLsbD (e : BitVec 6) (c : Completion) (i : Nat) :
    (errsAfter e c).getLsbD i = (e.getLsbD i || (decide (c ≠ .ok) && decide (i = statusCode c))) := by
  have key : ∀ k, 1 ≤ k → k < 6 → (e ||| (1#6 <<< k)).getLsbD i = (e.getLsbD i || decide (i = k)) := by
    intro k h1 h6
    rw [BitVec.getLsbD_or, BitVec.getLsbD_shiftLeft]
    congr 1
    by_cases hik : i = k
    · subst hik; simp [h6]
    · rcases Nat.lt_or_ge i k with hlt | hge
      · simp [hlt, hik]
      · have : ¬ (i < k) := by omega
        simp only [this, decide_false, Bool.not_false, Bool.and_true, hik]
        have hk : ¬ (i - k = 0) := by omega
        simp [BitVec.getLsbD_one, hk]
  cases c with
  | ok => simp [errsAfter, statusCode]
  | eos => exact (key 1 (by omega) (by omega)).trans (by simp [statusCode]; congr)
  | noSync => exact (key 2 (by omega) (by omega)).trans (by simp [statusCode]; congr)
  | invHdr r => exact (key 3 (by omega) (by omega)).trans (by simp [statusCode]; congr)
  | contract r => exact (key 4 (by omega) (by omega)).trans (by simp [statusCode]; congr)
  | ioFail => exact (key 5 (by omega) (by omega)).trans (by simp [statusCode]; congr)

theorem halted_finish (c : Completion) (s : State) : (finish c s).halted = (s.halted || decide (c = .ioFail)) := by
  rw [State.halted, finish_errs, errsAfter_getLsbD, State.halted]
  cases c <;> simp [statusCode]

/-! ## Fetching bytes -/

theorem mem_fetchAddrs {c : Config} {n : Nat} {s : State} {a : Nat} :
    a ∈ fetchAddrs c n s ↔ s.pos.toNat ≤ a ∧ a < s.pos.toNat + c.refill n s.cnt.toNat := by
  simp only [fetchAddrs, List.mem_map, List.mem_range]
  constructor
  · rintro ⟨j, hj, rfl⟩; omega
  · intro h; exact ⟨a - s.pos.toNat, by omega, by omega⟩

theorem fetchFailure_none_iff {src : Source} {l : List Nat} :
    fetchFailure src l = none ↔ ∀ a ∈ l, a < src.len ∧ a ∉ src.errs := by
  induction l with
  | nil => simp [fetchFailure]
  | cons a l ih =>
    rw [fetchFailure, List.forall_mem_cons, ← ih, ← replyExn_none_iff]
    cases replyExn (src.memRead a) <;> simp

theorem fetchFailure_range {src : Source} {p k : Nat} {x : Exn}
    (h : fetchFailure src ((List.range k).map (p + ·)) = some x) :
    ∃ e, p ≤ e ∧ e < p + k ∧ Readable src p e ∧
      (x = .ioFailure ∧ e ∈ src.errs ∨ x = .endOfStream ∧ e ∉ src.errs ∧ src.len ≤ e) := by
  induction k generalizing p with
  | zero => simp [fetchFailure] at h
  | succ k ih =>
    rw [List.range_succ_eq_map, List.map_cons, List.map_map, fetchFailure, Nat.add_zero] at h
    cases hr : replyExn (src.memRead p) with
    | some y =>
      rw [hr] at h
      obtain rfl : y = x := by simpa using h
      exact ⟨p, le_refl p, by omega, fun a h1 h2 => absurd h2 (by omega), replyExn_cases hr⟩
    | none =>
      rw [hr] at h
      have e1 : ((fun x => p + x) ∘ Nat.succ) = fun x => p + 1 + x := by funext x; simp; omega
      rw [e1] at h
      obtain ⟨e, h1, h2, h3, h4⟩ := ih h
      refine ⟨e, by omega, by omega, fun a ha hb => ?_, h4⟩
      rcases Nat.eq_or_lt_of_le ha with rfl | ha
      · exact replyExn_none_iff.1 hr
      · exact h3 a ha hb

/-! ## ReadField (R80) -/

/-- With at most a byte buffered, the buffered bits are the low bits of the byte before the cursor (R15, R80). -/
theorem bufferedBits_eq {src : Source} {p k : Nat} (hk : k ≤ 8) (hp : k ≤ 8 * p) :
    bufferedBits src p k = (src.byteAt (p - 1)).toNat % 2 ^ k := by
  rcases p with _ | p
  · obtain rfl : k = 0 := by omega
    simp [bufferedBits, Nat.mod_one]
  · have h := field_add src (8 * p) (8 - k) k
    rw [show 8 - k + k = 8 by omega, field_byte] at h
    rw [bufferedBits, Nat.add_sub_cancel, h, Nat.mul_add_mod_self_right, Nat.mod_eq_of_lt (field_lt src _ k)]
    congr 1; omega

/-- What `ReadField` answers when every byte it must fetch can be read. -/
theorem readField_ok {c : Config} {n : Nat} {s : State}
    (h : Readable s.src s.pos.toNat (s.pos.toNat + c.refill n s.cnt.toNat)) :
    readField c n s = .ok (s.src.field s.bp n,
      setCursor c (s.pos.toNat + c.refill n s.cnt.toNat) (s.cnt.toNat + 8 * c.refill n s.cnt.toNat - n) s) := by
  have : fetchFailure s.src (fetchAddrs c n s) = none :=
    fetchFailure_none_iff.2 fun a ha => by obtain ⟨h1, h2⟩ := mem_fetchAddrs.1 ha; exact h a h1 h2
  rw [readField, this]

/-- Everything `ReadField` can do: it answers the field and moves the cursor, every byte it fetched having been readable; or
it raises, and the first byte that could not be read says what. -/
theorem readField_cases (c : Config) (n : Nat) (s : State) :
    (Readable s.src s.pos.toNat (s.pos.toNat + c.refill n s.cnt.toNat) ∧
      readField c n s = .ok (s.src.field s.bp n,
        setCursor c (s.pos.toNat + c.refill n s.cnt.toNat) (s.cnt.toNat + 8 * c.refill n s.cnt.toNat - n) s)) ∨
    (∃ x e, readField c n s = .error x ∧ s.pos.toNat ≤ e ∧ e < s.pos.toNat + c.refill n s.cnt.toNat ∧
      Readable s.src s.pos.toNat e ∧
      (x = .ioFailure ∧ e ∈ s.src.errs ∨ x = .endOfStream ∧ e ∉ s.src.errs ∧ s.src.len ≤ e)) := by
  cases hf : fetchFailure s.src (fetchAddrs c n s) with
  | none =>
    refine .inl ⟨fun a h1 h2 => fetchFailure_none_iff.1 hf a (mem_fetchAddrs.2 ⟨h1, h2⟩), ?_⟩
    rw [readField, hf]
  | some x =>
    obtain ⟨e, h1, h2, h3, h4⟩ := fetchFailure_range hf
    refine .inr ⟨x, e, ?_, h1, h2, h3, h4⟩
    rw [readField, hf]

/-- A read whose first byte that cannot be read is known. -/
theorem readField_error {c : Config} {n : Nat} {s : State} {e : Nat} (h1 : s.pos.toNat ≤ e)
    (h2 : e < s.pos.toNat + c.refill n s.cnt.toNat) (h3 : Readable s.src s.pos.toNat e) {x : Exn}
    (h4 : x = .ioFailure ∧ e ∈ s.src.errs ∨ x = .endOfStream ∧ e ∉ s.src.errs ∧ s.src.len ≤ e) :
    readField c n s = .error x := by
  rcases readField_cases c n s with ⟨hr, -⟩ | ⟨x', e', hx, a1, a2, a3, a4⟩
  · have := hr e h1 h2
    rcases h4 with ⟨-, h⟩ | ⟨-, -, h⟩
    · exact absurd h this.2
    · omega
  · have he : e = e' := by
      rcases Nat.lt_trichotomy e e' with h | h | h
      · have := a3 e h1 h
        rcases h4 with ⟨-, h'⟩ | ⟨-, -, h'⟩
        · exact absurd h' this.2
        · omega
      · exact h
      · have := h3 e' a1 h
        rcases a4 with ⟨-, h'⟩ | ⟨-, -, h'⟩
        · exact absurd h' this.2
        · omega
    subst he
    rw [hx]
    rcases h4 with ⟨rfl, h⟩ | ⟨rfl, h, -⟩ <;> rcases a4 with ⟨rfl, h'⟩ | ⟨rfl, h', -⟩
    · rfl
    · exact absurd h h'
    · exact absurd h' h
    · rfl

/-! ## The cursor as a stream bit (R16) -/

/-- The parts of the invariant that speak of the source and the cursor. -/
structure CursorInv (s : State) : Prop where
  source : s.src.wf = true
  cursor : CursorOk s
  buffer : BufferOk s

theorem State.Inv.cursorInv {s : State} (h : s.Inv) : CursorInv s := ⟨h.source, h.cursor, h.buffer⟩

theorem CursorInv.len_lt {s : State} (h : CursorInv s) : s.src.len < 2 ^ 63 := wf_len h.source

theorem CursorInv.cnt_le {s : State} (h : CursorInv s) : s.cnt.toNat ≤ 7 := h.cursor.1

theorem CursorInv.pos_le {s : State} (h : CursorInv s) : s.pos.toNat ≤ s.src.len := h.cursor.2

theorem CursorInv.cnt_le_pos {s : State} (h : CursorInv s) : s.cnt.toNat ≤ 8 * s.pos.toNat := by
  have := h.cnt_le
  by_cases hc : 0 < s.cnt.toNat
  · have := (h.buffer.2 hc).1; omega
  · omega

theorem CursorInv.pos_eq {s : State} (h : CursorInv s) : s.pos.toNat = (s.bp + 7) / 8 := by
  have h1 := h.cnt_le; have h2 := h.cnt_le_pos; unfold State.bp; omega

theorem CursorInv.cnt_eq {s : State} (h : CursorInv s) : s.cnt.toNat = 8 * ((s.bp + 7) / 8) - s.bp := by
  have h1 := h.cnt_le; have h2 := h.cnt_le_pos; unfold State.bp; omega

theorem CursorInv.bp_le {s : State} (h : CursorInv s) : s.bp ≤ 8 * s.src.len := by
  have := h.pos_le; unfold State.bp; omega

/-- A cursor stands at its stream bit. -/
theorem atBit_bp {s : State} (h : CursorInv s) : atBit s.bp s = s := by
  have hp := h.pos_eq
  have hc := h.cnt_eq
  have ha : s.acc = BitVec.ofNat 64 ((s.src.byteAt (s.pos.toNat - 1)).toNat % 2 ^ s.cnt.toNat) := by
    apply BitVec.eq_of_toNat_eq
    rw [BitVec.toNat_ofNat, ← h.buffer.1, Nat.mod_eq_of_lt s.acc.isLt]
  unfold atBit
  rw [← hc, ← hp, ← ha]
  simp

@[simp] theorem atBit_atBit (a b : Nat) (s : State) : atBit a (atBit b s) = atBit a s := rfl

theorem setCursor_eq_atBit {s : State} {p k b : Nat} (hp : p = (b + 7) / 8) (hk : k = 8 * ((b + 7) / 8) - b) :
    setCursor standard p k s = atBit b s := by
  have h := bufferedBits_eq (src := s.src) (p := p) (k := k) (by omega) (by omega)
  subst hp hk
  simp only [setCursor, atBit, h, accWord_standard, posWord_standard]

theorem atBit_pos {b : Nat} {s : State} (h : (b + 7) / 8 < 2 ^ 64) : (atBit b s).pos.toNat = (b + 7) / 8 := by
  simp only [atBit, BitVec.toNat_ofNat]; exact Nat.mod_eq_of_lt h

theorem atBit_cnt (b : Nat) (s : State) : (atBit b s).cnt.toNat = 8 * ((b + 7) / 8) - b := by
  simp only [atBit, BitVec.toNat_ofNat]; exact Nat.mod_eq_of_lt (by omega)

theorem bp_atBit {b : Nat} {s : State} (h : (b + 7) / 8 < 2 ^ 64) : (atBit b s).bp = b := by
  unfold State.bp; rw [atBit_pos h, atBit_cnt]; omega

theorem cursorInv_atBit {b : Nat} {s : State} (hs : s.src.wf = true) (hb : b ≤ 8 * s.src.len)
    (he : b % 8 ≠ 0 → b / 8 ∉ s.src.errs) : CursorInv (atBit b s) := by
  have hl := wf_len hs
  have hlt : (b + 7) / 8 < 2 ^ 64 := by omega
  refine ⟨hs, ⟨?_, ?_⟩, ?_, ?_⟩
  · rw [atBit_cnt]; omega
  · rw [atBit_pos hlt]; show (b + 7) / 8 ≤ s.src.len; omega
  · rw [atBit_pos hlt, atBit_cnt]
    show (BitVec.ofNat 64 _).toNat = _
    rw [BitVec.toNat_ofNat, Nat.mod_eq_of_lt]
    · rfl
    · refine lt_of_le_of_lt (Nat.mod_le _ _) ?_
      have := (s.src.byteAt ((b + 7) / 8 - 1)).isLt
      omega
  · rw [atBit_pos hlt, atBit_cnt]
    intro h0
    refine ⟨by omega, ?_⟩
    show (b + 7) / 8 - 1 ∉ s.src.errs
    have : (b + 7) / 8 - 1 = b / 8 := by omega
    rw [this]
    exact he (by omega)

theorem refill_eq {s : State} (h : CursorInv s) (n : Nat) :
    s.pos.toNat + standard.refill n s.cnt.toNat = (s.bp + n + 7) / 8 := by
  have h1 := h.cnt_le; have h2 := h.cnt_le_pos; rw [standard_refill]; unfold State.bp refillBytes; omega

/-- `ReadField` in terms of the stream bit: it moves the cursor from `BP` to `BP + n`. -/
theorem readField_at {n : Nat} {s : State} (h : CursorInv s) (hr : Readable s.src s.pos.toNat ((s.bp + n + 7) / 8)) :
    readField standard n s = .ok (s.src.field s.bp n, atBit (s.bp + n) s) := by
  have e := refill_eq h n
  rw [readField_ok (by rw [e]; exact hr), setCursor_eq_atBit (b := s.bp + n) e]
  have h1 := h.cnt_le; have h2 := h.cnt_le_pos; rw [standard_refill]; unfold State.bp refillBytes; omega

/-- Everything `ReadField` can do, in terms of the stream bit. -/
theorem readField_at_cases {s : State} (h : CursorInv s) (n : Nat) :
    (Readable s.src s.pos.toNat ((s.bp + n + 7) / 8) ∧ (s.bp + n + 7) / 8 ≤ s.src.len ∧
      readField standard n s = .ok (s.src.field s.bp n, atBit (s.bp + n) s)) ∨
    (∃ x e, readField standard n s = .error x ∧ s.pos.toNat ≤ e ∧ e < (s.bp + n + 7) / 8 ∧ Readable s.src s.pos.toNat e ∧
      (x = .ioFailure ∧ e ∈ s.src.errs ∨ x = .endOfStream ∧ e ∉ s.src.errs ∧ s.src.len ≤ e)) := by
  rcases readField_cases standard n s with ⟨hr, -⟩ | ⟨x, e, h1, h2, h3, h4⟩
  · rw [refill_eq h n] at hr
    refine .inl ⟨hr, ?_, readField_at h hr⟩
    by_cases hlt : s.pos.toNat < (s.bp + n + 7) / 8
    · have := (hr ((s.bp + n + 7) / 8 - 1) (by omega) (by omega)).1; omega
    · have := h.pos_le; omega
  · rw [refill_eq h n] at h3
    exact .inr ⟨x, e, h1, h2, h3, h4⟩

/-- A read that succeeds leaves a cursor as the invariant wants it. -/
theorem cursorInv_readField {n v : Nat} {s s' : State} (h : CursorInv s) (hr : readField standard n s = .ok (v, s')) :
    CursorInv s' ∧ s' = atBit (s.bp + n) s ∧ v = s.src.field s.bp n ∧ s'.bp = s.bp + n ∧ s'.pos.toNat = (s.bp + n + 7) / 8 ∧
      Readable s.src s.pos.toNat ((s.bp + n + 7) / 8) := by
  have hl := h.len_lt
  rcases readField_at_cases h n with ⟨h1, h2, h3⟩ | ⟨x, e, hx, -⟩
  · rw [h3] at hr
    obtain ⟨rfl, rfl⟩ : s.src.field s.bp n = v ∧ atBit (s.bp + n) s = s' := by simpa using hr
    refine ⟨cursorInv_atBit h.source (by omega) fun hne => ?_, rfl, rfl, bp_atBit (by omega), atBit_pos (by omega), h1⟩
    by_cases hlt : s.pos.toNat ≤ (s.bp + n) / 8
    · exact (h1 _ hlt (by omega)).2
    · have hp := h.pos_eq
      have hc := h.cnt_eq
      have := (h.buffer.2 (by omega)).2
      have e : s.pos.toNat - 1 = (s.bp + n) / 8 := by omega
      rwa [e] at this
  · rw [hx] at hr; cases hr

/-! ## Skip (R85) -/

/-- Everything `Skip` can do. -/
theorem skip_cases (c : Config) (k : Int) (s : State) :
    ((s.pos.toNat : Int) + k < 0 ∧ skip c k s = .error (.contract .badSkip)) ∨
    ((s.src.len : Int) < s.pos.toNat + k ∧ skip c k s = .error .endOfStream) ∨
    (0 ≤ (s.pos.toNat : Int) + k ∧ (s.pos.toNat : Int) + k ≤ s.src.len ∧
      skip c k s = .ok (setCursor c ((s.pos.toNat : Int) + k).toNat 0 s)) := by
  unfold skip Source.seekOk
  by_cases h1 : (s.pos.toNat : Int) + k < 0
  · exact .inl ⟨h1, by simp [h1]⟩
  · by_cases h2 : (s.src.len : Int) < s.pos.toNat + k
    · refine .inr (.inl ⟨h2, ?_⟩)
      have : ¬ ((s.pos.toNat : Int) + k).toNat ≤ s.src.len := by omega
      simp only [h1, if_false, this, decide_false, Bool.false_eq_true]
    · refine .inr (.inr ⟨by omega, by omega, ?_⟩)
      have : ((s.pos.toNat : Int) + k).toNat ≤ s.src.len := by omega
      simp only [h1, if_false, this, decide_true, if_true]

theorem setCursor_aligned (p : Nat) (s : State) : setCursor standard p 0 s = atBit (8 * p) s :=
  setCursor_eq_atBit (by omega) (by omega)

/-! ## Loops -/

@[simp] theorem andThen_done (s : State) (f : State → Micro) : (Micro.done s).andThen f = f s := rfl

@[simp] theorem andThen_raised (x : Exn) (s : State) (f : State → Micro) : (Micro.raised x s).andThen f = .raised x s := rfl

theorem andThen_assoc (m : Micro) (f g : State → Micro) :
    (m.andThen f).andThen g = m.andThen (fun s => (f s).andThen g) := by cases m <;> rfl

/-- The exceptions a read of the source can raise, and where they come from (R203, R204). -/
def SourceExn (x : Exn) (s : State) : Prop := (x = .ioFailure ∧ ∃ a, a ∈ s.src.errs) ∨ x = .endOfStream

/-- A property holds of the state a stretch ends in, whether it ran to its end or a read of the source raised. -/
def Micro.All (P : State → Prop) : Micro → Prop
  | .done s => P s
  | .raised x s => P s ∧ SourceExn x s

theorem all_andThen {P : State → Prop} {m : Micro} {f : State → Micro} (hm : m.All P)
    (hf : ∀ s, P s → (f s).All P) : (m.andThen f).All P := by
  cases m with
  | done s => exact hf s hm
  | raised x s => exact hm

theorem all_mono {P Q : State → Prop} {m : Micro} (hm : m.All P) (h : ∀ s, P s → Q s) : m.All Q := by
  cases m with
  | done s => exact h s hm
  | raised x s => exact ⟨h s hm.1, hm.2⟩

/-- A property every element's stretch keeps is kept by the loop. -/
theorem all_forEach {α : Type} {P : State → Prop} {f : α → State → Micro} (l : List α) {s : State} (hs : P s)
    (hf : ∀ x ∈ l, ∀ s, P s → (f x s).All P) : (forEach f l s).All P := by
  induction l generalizing s with
  | nil => exact hs
  | cons x l ih =>
    exact all_andThen (hf x (by simp) s hs) fun t ht => ih ht fun y hy => hf y (by simp [hy])

theorem sourceExn_of_error {c : Config} {n : Nat} {s : State} {x : Exn} (h : readField c n s = .error x) : SourceExn x s := by
  rcases readField_cases c n s with ⟨-, h'⟩ | ⟨x', e, h', -, -, -, h4⟩
  · rw [h'] at h; cases h
  · rw [h'] at h
    cases h
    rcases h4 with ⟨h, he⟩ | ⟨h, -⟩
    · exact .inl ⟨h, e, he⟩
    · exact .inr h

/-- Reading a field and storing it keeps a property that moving the cursor and storing keep. -/
theorem all_readInto {P : State → Prop} {c : Config} {n : Nat} {store : Nat → State → State} {s : State} (hs : P s)
    (hf : ∀ v s', readField c n s = .ok (v, s') → P (store v s')) : (readInto c n store s).All P := by
  unfold readInto
  rcases h : readField c n s with x | ⟨v, s'⟩
  · exact ⟨hs, sourceExn_of_error h⟩
  · exact hf v s' h

theorem forEach_append {α : Type} (f : α → State → Micro) (l l' : List α) (s : State) :
    forEach f (l ++ l') s = (forEach f l s).andThen (forEach f l') := by
  induction l generalizing s with
  | nil => rfl
  | cons x l ih =>
    rw [List.cons_append, forEach, forEach, andThen_assoc]
    congr 1
    funext t
    exact ih t

/-- A loop of loops is a loop over the pairs. -/
theorem forEach_flatMap {α β : Type} (f : β → State → Micro) (g : α → List β) (l : List α) (s : State) :
    forEach f (l.flatMap g) s = forEach (fun x => forEach f (g x)) l s := by
  induction l generalizing s with
  | nil => rfl
  | cons x l ih =>
    rw [List.flatMap_cons, forEach_append, forEach]
    congr 1
    funext t
    exact ih t

theorem forEach_map {α β : Type} (f : β → State → Micro) (g : α → β) (l : List α) (s : State) :
    forEach f (l.map g) s = forEach (fun x => f (g x)) l s := by
  induction l generalizing s with
  | nil => rfl
  | cons x l ih =>
    rw [List.map_cons, forEach, forEach]
    congr 1
    funext t
    exact ih t

/-- A loop that never raises, step by step: from `Q 0` at the start to `Q n` at the end. -/
theorem forEach_steps {α : Type} {f : α → State → Micro} (l : List α) {Q : Nat → State → Prop} {s : State} (hs : Q 0 s)
    (hf : ∀ i (hi : i < l.length) t, Q i t → ∃ t', f l[i] t = .done t' ∧ Q (i + 1) t') :
    ∃ t, forEach f l s = .done t ∧ Q l.length t := by
  induction l generalizing s Q with
  | nil => exact ⟨s, rfl, hs⟩
  | cons x l ih =>
    obtain ⟨t, ht, hq⟩ := hf 0 (by simp) s hs
    obtain ⟨u, hu, hqu⟩ := ih (Q := fun i => Q (i + 1)) hq fun i hi t' h => by
      exact hf (i + 1) (by simpa using hi) t' h
    refine ⟨u, ?_, by simpa using hqu⟩
    rw [forEach]
    simp only [List.getElem_cons_zero] at ht
    rw [ht, andThen_done, hu]

end Sys2Proof.Machine
end

