-- ==== Sys2Proof/Laws/FrameSync.lean ====
section
/-! SUPPORT. Laws of the frame synchronizer: what one round of the scan does, and that a scan never uses up its rounds. -/

namespace Sys2Proof.Machine

/-- Reading a byte on an aligned cursor. -/
theorem readByte_ok {s : State} {p : Nat} (hs : s.src.wf = true) (hp : p < s.src.len) (he : p ∉ s.src.errs) :
    readField standard 8 (atBit (8 * p) s) = .ok ((s.src.byteAt p).toNat, atBit (8 * (p + 1)) s) := by
  have hl := wf_len hs
  have hc : CursorInv (atBit (8 * p) s) := cursorInv_atBit hs (by omega) (fun h => absurd (Nat.mul_mod_right 8 p) h)
  have hb : (atBit (8 * p) s).bp = 8 * p := bp_atBit (by omega)
  rw [readField_at hc, hb, atBit_atBit]
  · rw [show (atBit (8 * p) s).src = s.src from rfl, field_byte]; rfl
  · rw [hb, atBit_pos (by omega)]
    intro a h1 h2
    obtain rfl : a = p := by omega
    exact ⟨hp, he⟩

/-- Reading a byte that answers `ERR` or `END`. -/
theorem readByte_error {s : State} {p : Nat} (hs : s.src.wf = true) (hp : p ≤ s.src.len) {x : Exn}
    (hx : x = .ioFailure ∧ p ∈ s.src.errs ∨ x = .endOfStream ∧ p ∉ s.src.errs ∧ s.src.len ≤ p) :
    readField standard 8 (atBit (8 * p) s) = .error x := by
  have hl := wf_len hs
  have hpos : (atBit (8 * p) s).pos.toNat = p := by rw [atBit_pos (by omega)]; omega
  have hcnt : (atBit (8 * p) s).cnt.toNat = 0 := by rw [atBit_cnt]; omega
  refine readField_error (e := p) (by rw [hpos]) ?_ ?_ hx
  · rw [hpos, hcnt]; simp [refillBytes]
  · rw [hpos]; exact fun a h1 h2 => absurd h2 (by omega)

/-- The outcome of a match: the cursor on byte B, `RES = 1` (R100, R102). -/
theorem endFound_at {s : State} {p : Nat} (hs : s.src.wf = true) (hp : p + 2 ≤ s.src.len) :
    endFound standard (atBit (8 * (p + 2)) s) = endOk { atBit (8 * (p + 1)) s with res := 1 } := by
  have hl := wf_len hs
  have hpos : (atBit (8 * (p + 2)) s).pos.toNat = p + 2 := by rw [atBit_pos (by omega)]; omega
  unfold endFound
  rcases skip_cases standard (-1) (atBit (8 * (p + 2)) s) with ⟨h, -⟩ | ⟨h, -⟩ | ⟨-, -, h⟩
  · rw [hpos] at h; omega
  · rw [hpos, show (atBit (8 * (p + 2)) s).src = s.src from rfl] at h; omega
  · rw [h, hpos, setCursor_aligned, atBit_atBit]
    rw [show ((p + 2 : Nat) + (-1 : Int)).toNat = p + 1 by omega]

/-- A round that finds a frame start. -/
theorem scan_match {s : State} {p r : Nat} (hs : s.src.wf = true) (hr : Readable s.src p (p + 2))
    (hm : syncMatch standard (s.src.byteAt p) (s.src.byteAt (p + 1)) = true) :
    scan standard (r + 1) (atBit (8 * p) s) = endOk { atBit (8 * (p + 1)) s with res := 1 } := by
  have h0 := hr p (by omega) (by omega)
  have h1 := hr (p + 1) (by omega) (by omega)
  rw [scan, readByte_ok hs h0.1 h0.2]
  simp only
  rw [readByte_ok hs h1.1 h1.2]
  simp only [BitVec.ofNat_toNat, BitVec.setWidth_eq, hm, if_true]
  exact endFound_at hs h1.1

/-- A round whose pair does not match: both bytes stay consumed, and the scan goes on two bytes further (R103). -/
theorem scan_skip {s : State} {p r : Nat} (hs : s.src.wf = true) (hr : Readable s.src p (p + 2))
    (hm : syncMatch standard (s.src.byteAt p) (s.src.byteAt (p + 1)) = false) :
    scan standard (r + 1) (atBit (8 * p) s) = scan standard r (atBit (8 * (p + 2)) s) := by
  have h0 := hr p (by omega) (by omega)
  have h1 := hr (p + 1) (by omega) (by omega)
  rw [scan, readByte_ok hs h0.1 h0.2]
  simp only
  rw [readByte_ok hs h1.1 h1.2]
  simp only [BitVec.ofNat_toNat, BitVec.setWidth_eq, hm, Bool.false_eq_true, if_false]

/-- A round stopped at byte A. -/
theorem scan_stop_first {s : State} {p r : Nat} (hs : s.src.wf = true) (hp : p ≤ s.src.len) {x : Exn}
    (hx : x = .ioFailure ∧ p ∈ s.src.errs ∨ x = .endOfStream ∧ p ∉ s.src.errs ∧ s.src.len ≤ p) :
    scan standard (r + 1) (atBit (8 * p) s) = scanFailed x (atBit (8 * p) s) := by
  rw [scan, readByte_error hs hp hx]

/-- A round stopped at byte B: A stays consumed (R100, D16). -/
theorem scan_stop_second {s : State} {p r : Nat} (hs : s.src.wf = true) (h0 : p < s.src.len)
    (he : p ∉ s.src.errs) {x : Exn}
    (hx : x = .ioFailure ∧ p + 1 ∈ s.src.errs ∨ x = .endOfStream ∧ p + 1 ∉ s.src.errs ∧ s.src.len ≤ p + 1) :
    scan standard (r + 1) (atBit (8 * p) s) = scanFailed x (atBit (8 * (p + 1)) s) := by
  rw [scan, readByte_ok hs h0 he]
  simp only
  rw [readByte_error hs h0 hx]

/-- Everything one round can do. -/
theorem scan_round (s : State) (p r : Nat) (hs : s.src.wf = true) (hp : p ≤ s.src.len) :
    (Readable s.src p (p + 2) ∧ syncMatch standard (s.src.byteAt p) (s.src.byteAt (p + 1)) = true ∧
      scan standard (r + 1) (atBit (8 * p) s) = endOk { atBit (8 * (p + 1)) s with res := 1 }) ∨
    (Readable s.src p (p + 2) ∧ syncMatch standard (s.src.byteAt p) (s.src.byteAt (p + 1)) = false ∧
      scan standard (r + 1) (atBit (8 * p) s) = scan standard r (atBit (8 * (p + 2)) s)) ∨
    (∃ e x, p ≤ e ∧ e ≤ p + 1 ∧ e ≤ s.src.len ∧ Readable s.src p e ∧
      (x = .ioFailure ∧ e ∈ s.src.errs ∨ x = .endOfStream ∧ e ∉ s.src.errs ∧ s.src.len ≤ e) ∧
      scan standard (r + 1) (atBit (8 * p) s) = scanFailed x (atBit (8 * e) s)) := by
  have answers : ∀ a, (a < s.src.len ∧ a ∉ s.src.errs) ∨
      (∃ x : Exn, x = .ioFailure ∧ a ∈ s.src.errs ∨ x = .endOfStream ∧ a ∉ s.src.errs ∧ s.src.len ≤ a) := by
    intro a
    by_cases h1 : a ∈ s.src.errs
    · exact .inr ⟨.ioFailure, .inl ⟨rfl, h1⟩⟩
    · by_cases h2 : a < s.src.len
      · exact .inl ⟨h2, h1⟩
      · exact .inr ⟨.endOfStream, .inr ⟨rfl, h1, by omega⟩⟩
  rcases answers p with h0 | ⟨x, hx⟩
  · rcases answers (p + 1) with h1 | ⟨x, hx⟩
    · have hr : Readable s.src p (p + 2) := by
        intro a ha hb
        rcases (by omega : a = p ∨ a = p + 1) with rfl | rfl
        · exact h0
        · exact h1
      cases hm : syncMatch standard (s.src.byteAt p) (s.src.byteAt (p + 1))
      · exact .inr (.inl ⟨hr, rfl, scan_skip hs hr hm⟩)
      · exact .inl ⟨hr, rfl, scan_match hs hr hm⟩
    · refine .inr (.inr ⟨p + 1, x, by omega, le_refl _, by omega, ?_, hx, scan_stop_second hs h0.1 h0.2 hx⟩)
      intro a ha hb
      obtain rfl : a = p := by omega
      exact h0
  · exact .inr (.inr ⟨p, x, le_refl p, by omega, hp, fun a ha hb => absurd hb (by omega), hx, scan_stop_first hs hp hx⟩)

/-- More rounds than the scan standardan take change nothing: `scanRounds` is never used up. -/
theorem scan_more_rounds (s : State) (hs : s.src.wf = true) (r p k : Nat) (hp : p ≤ s.src.len)
    (hr : s.src.len < p + 2 * r) : scan standard (r + k) (atBit (8 * p) s) = scan standard r (atBit (8 * p) s) := by
  induction r generalizing p with
  | zero => omega
  | succ r ih =>
    have e : r + 1 + k = (r + k) + 1 := by omega
    rw [e]
    rcases scan_round s p r hs hp with ⟨h1, h2, h3⟩ | ⟨h1, h2, h3⟩ | ⟨_, _, _, h2, h3, h4, h5, h6⟩
    · rw [scan_match hs h1 h2, scan_match hs h1 h2]
    · have := (h1 (p + 1) (by omega) (by omega)).1
      rw [scan_skip hs h1 h2, scan_skip hs h1 h2]
      exact ih (p + 2) (by omega) (by omega)
    · rename_i e' x hpe
      rw [h6]
      rcases (by omega : e' = p ∨ e' = p + 1) with rfl | rfl
      · exact scan_stop_first hs hp h5
      · have := h4 p (le_refl p) (by omega)
        exact scan_stop_second hs this.1 this.2 h5

/-- The cursor of an aligned command. -/
theorem aligned_at {s : State} (h : CursorInv s) (ha : s.aligned = true) :
    s.cnt.toNat = 0 ∧ s.bp = 8 * s.pos.toNat ∧ atBit (8 * s.pos.toNat) s = s := by
  have h1 := h.cnt_le
  have h2 : s.cnt.toNat % 8 = 0 := by simpa [State.aligned] using ha
  have h3 : s.cnt.toNat = 0 := by omega
  have h4 : s.bp = 8 * s.pos.toNat := by unfold State.bp; omega
  refine ⟨h3, h4, ?_⟩
  rw [← h4]
  exact atBit_bp h

end Sys2Proof.Machine
end

