-- ==== Sys2Proof/Laws/Commands.lean ====
section
/-! SUPPORT. What each command can do: one inversion lemma per command rule, which says once every way it can end. -/

namespace Sys2Proof.Machine

/-! ## What may have moved -/

/-- Only the cursor differs. -/
def CursorMoved (s t : State) : Prop := t = { s with acc := t.acc, cnt := t.cnt, pos := t.pos }

/-- Only the cursor and the Layer I arrays differ. -/
def Layer1Moved (s t : State) : Prop :=
  t = { s with acc := t.acc, cnt := t.cnt, pos := t.pos, alloc := t.alloc, scf := t.scf, samp := t.samp }

theorem CursorMoved.refl (s : State) : CursorMoved s s := rfl

theorem CursorMoved.trans {s t u : State} (h : CursorMoved s t) (h' : CursorMoved t u) : CursorMoved s u := by
  unfold CursorMoved at *; rw [h', h]

theorem Layer1Moved.refl (s : State) : Layer1Moved s s := rfl

theorem Layer1Moved.trans {s t u : State} (h : Layer1Moved s t) (h' : Layer1Moved t u) : Layer1Moved s u := by
  unfold Layer1Moved at *; rw [h', h]

theorem CursorMoved.src {s t : State} (h : CursorMoved s t) : t.src = s.src := by rw [h]

theorem Layer1Moved.src {s t : State} (h : Layer1Moved s t) : t.src = s.src := by rw [h]

theorem CursorMoved.layer1 {s t : State} (h : CursorMoved s t) : Layer1Moved s t := by
  unfold CursorMoved at h; unfold Layer1Moved; rw [h]

theorem cursorMoved_setCursor (c : Config) (p k : Nat) (s : State) : CursorMoved s (setCursor c p k s) := rfl

theorem cursorMoved_readField {c : Config} {n v : Nat} {s s' : State} (h : readField c n s = .ok (v, s')) : CursorMoved s s' := by
  rcases readField_cases c n s with ⟨-, h'⟩ | ⟨x, e, h', -⟩
  · rw [h'] at h; cases h; rfl
  · rw [h'] at h; cases h

/-! ## The bit cursor -/

theorem readBitsRule_cases (c : Config) (n : Nat) (s : State) :
    (64 < n ∧ readBitsRule c n s = raise (.contract .badOperand) s) ∨
    (n = 0 ∧ readBitsRule c n s = endOk { s with res := 0 }) ∨
    (1 ≤ n ∧ n ≤ 64 ∧ ∃ v s', readField c n s = .ok (v, s') ∧
      readBitsRule c n s = endOk { s' with res := posWord c v }) ∨
    (1 ≤ n ∧ n ≤ 64 ∧ ∃ x, readField c n s = .error x ∧ SourceExn x s ∧ readBitsRule c n s = raise x s) := by
  unfold readBitsRule widthRefused
  by_cases h1 : 64 < n
  · exact .inl ⟨h1, by simp [h1]⟩
  · by_cases h2 : n = 0
    · subst h2; exact .inr (.inl ⟨rfl, rfl⟩)
    · rw [decide_eq_false h1, if_neg Bool.false_ne_true, if_neg h2]
      rcases h : readField c n s with x | ⟨v, s'⟩
      · exact .inr (.inr (.inr ⟨by omega, by omega, x, rfl, sourceExn_of_error h, rfl⟩))
      · exact .inr (.inr (.inl ⟨by omega, by omega, v, s', rfl, rfl⟩))

theorem skipBytesRule_cases (c : Config) (k : Int) (s : State) :
    ((s.pos.toNat : Int) + k < 0 ∧ skipBytesRule c k s = raise (.contract .badSkip) s) ∨
    ((s.src.len : Int) < s.pos.toNat + k ∧ skipBytesRule c k s = raise .endOfStream s) ∨
    (0 ≤ (s.pos.toNat : Int) + k ∧ (s.pos.toNat : Int) + k ≤ s.src.len ∧
      skipBytesRule c k s = endOk (setCursor c ((s.pos.toNat : Int) + k).toNat 0 s)) := by
  unfold skipBytesRule
  rcases skip_cases c k s with ⟨h, e⟩ | ⟨h, e⟩ | ⟨h, h', e⟩ <;> rw [e]
  · exact .inl ⟨h, rfl⟩
  · exact .inr (.inl ⟨h, rfl⟩)
  · exact .inr (.inr ⟨h, h', rfl⟩)

/-! ## The frame synchronizer -/

/-- Every way a scan can end, in any state: the cursor has moved, and then it is `NOSYNC`, an I/O failure, a match with the
byte B rewound to, or (in no state of the block) a match that could not be rewound. -/
theorem scan_cases (c : Config) (r : Nat) (s : State) :
    ∃ s', CursorMoved s s' ∧
      (scan c r s = endNoSync s' ∨ (scan c r s = raise .ioFailure s' ∧ ∃ a, a ∈ s.src.errs) ∨
        scan c r s = endOk { s' with res := 1 } ∨ ∃ x, skip c (-1) s' = .error x ∧ scan c r s = raise x s') := by
  induction r generalizing s with
  | zero => exact ⟨s, rfl, .inl rfl⟩
  | succ r ih =>
    have stop : ∀ (x : Exn) (u : State), CursorMoved s u → SourceExn x u →
        (scanFailed x u = endNoSync u ∨ (scanFailed x u = raise .ioFailure u ∧ ∃ a, a ∈ s.src.errs)) := by
      intro x u hu hx
      rcases hx with ⟨rfl, h⟩ | rfl
      · exact .inr ⟨rfl, by rwa [← hu.src]⟩
      · exact .inl rfl
    rw [scan]
    rcases h1 : readField c 8 s with x | ⟨a, s1⟩
    · refine ⟨s, rfl, ?_⟩
      rcases stop x s rfl (sourceExn_of_error h1) with h | h
      · exact .inl h
      · exact .inr (.inl h)
    · have m1 := cursorMoved_readField h1
      simp only
      rcases h2 : readField c 8 s1 with x | ⟨b, s2⟩
      · refine ⟨s1, m1, ?_⟩
        rcases stop x s1 m1 (sourceExn_of_error h2) with h | h
        · exact .inl h
        · exact .inr (.inl h)
      · have m2 := m1.trans (cursorMoved_readField h2)
        simp only
        split
        · unfold endFound
          rcases h3 : skip c (-1) s2 with x | s3
          · exact ⟨s2, m2, .inr (.inr (.inr ⟨x, h3, rfl⟩))⟩
          · refine ⟨s3, m2.trans ?_, .inr (.inr (.inl rfl))⟩
            rcases skip_cases c (-1) s2 with ⟨-, e⟩ | ⟨-, e⟩ | ⟨-, -, e⟩ <;> rw [e] at h3 <;> cases h3
            rfl
        · obtain ⟨s', hm, h⟩ := ih s2
          rw [m2.src] at h
          exact ⟨s', m2.trans hm, h⟩

/-- From an aligned position inside a source in canonical form, a scan moves forward and ends in one of three ways. -/
theorem scan_at_cases (s : State) (hs : s.src.wf = true) (r p : Nat) (hp : p ≤ s.src.len)
    (hr : s.src.len < p + 2 * r) :
    (∃ q, p < q ∧ q < s.src.len ∧ scan standard r (atBit (8 * p) s) = endOk { atBit (8 * q) s with res := 1 }) ∨
    (scan standard r (atBit (8 * p) s) = endNoSync (atBit (8 * s.src.len) s)) ∨
    (∃ q, p ≤ q ∧ q ≤ s.src.len ∧ Readable s.src p q ∧ q ∈ s.src.errs ∧
      scan standard r (atBit (8 * p) s) = raise .ioFailure (atBit (8 * q) s)) := by
  induction r generalizing p with
  | zero => omega
  | succ r ih =>
    rcases scan_round s p r hs hp with ⟨h1, h2, h3⟩ | ⟨h1, h2, h3⟩ | ⟨e, x, h1, h2, h3, h4, h5, h6⟩
    · have := (h1 (p + 1) (by omega) (by omega)).1
      exact .inl ⟨p + 1, by omega, by omega, h3⟩
    · have := (h1 (p + 1) (by omega) (by omega)).1
      rw [h3]
      rcases ih (p + 2) (by omega) (by omega) with ⟨q, a, b, h⟩ | h | ⟨q, a, b, hr, d, h⟩
      · exact .inl ⟨q, by omega, b, h⟩
      · exact .inr (.inl h)
      · refine .inr (.inr ⟨q, by omega, b, fun x hx hxq => ?_, d, h⟩)
        by_cases hlt : x < p + 2
        · exact h1 x hx hlt
        · exact hr x (by omega) hxq
    · rw [h6]
      rcases h5 with ⟨rfl, h⟩ | ⟨rfl, h, hl⟩
      · exact .inr (.inr ⟨e, h1, h3, h4, h, rfl⟩)
      · obtain rfl : e = s.src.len := by omega
        exact .inr (.inl rfl)

/-- Every way `FINDSYNC` can end on a state of the block. -/
theorem findSyncRule_cases {s : State} (h : CursorInv s) :
    (s.cnt.toNat % 8 ≠ 0 ∧ findSyncRule standard s = raise (.contract .unaligned) s) ∨
    (∃ q, s.pos.toNat < q ∧ q < s.src.len ∧ findSyncRule standard s = endOk { atBit (8 * q) s with res := 1 }) ∨
    (findSyncRule standard s = endNoSync (atBit (8 * s.src.len) s)) ∨
    (∃ q, s.pos.toNat ≤ q ∧ q ≤ s.src.len ∧ Readable s.src s.pos.toNat q ∧ q ∈ s.src.errs ∧
      findSyncRule standard s = raise .ioFailure (atBit (8 * q) s)) := by
  unfold findSyncRule
  cases ha : s.aligned with
  | false => exact .inl ⟨by simpa [State.aligned] using ha, rfl⟩
  | true =>
    obtain ⟨-, -, he⟩ := aligned_at h ha
    have := scan_at_cases s h.source (scanRounds s) s.pos.toNat h.pos_le (by unfold scanRounds; omega)
    rw [he] at this
    exact .inr this

/-! ## The header decoder -/

theorem decHdrRule_cases (c : Config) (s : State) :
    (s.cnt.toNat % 8 ≠ 0 ∧ decHdrRule c s = raise (.contract .unaligned) s) ∨
    (s.cnt.toNat % 8 = 0 ∧ ∃ x, readField c 24 s = .error x ∧ SourceExn x s ∧ decHdrRule c s = raise x s) ∨
    (s.cnt.toNat % 8 = 0 ∧ ∃ w s', readField c 24 s = .ok (w, s') ∧ decHdrRule c s = loadHeader c w s') := by
  unfold decHdrRule
  cases ha : s.aligned with
  | false => exact .inl ⟨by simpa [State.aligned] using ha, rfl⟩
  | true =>
    have ha' : s.cnt.toNat % 8 = 0 := by simpa [State.aligned] using ha
    rw [if_pos rfl]
    rcases h : readField c 24 s with x | ⟨w, s'⟩
    · exact .inr (.inl ⟨ha', x, rfl, sourceExn_of_error h, rfl⟩)
    · exact .inr (.inr ⟨ha', w, s', rfl, rfl⟩)

/-- The two ends of a `DECHDR` that has its bytes. -/
theorem loadHeader_cases (c : Config) (w : Nat) (s : State) :
    (∃ r, decodeWindow c w = .error r ∧ loadHeader c w s =
      raise (.invalidHeader r) (forgetHeader (forgetLayer1 { s with hdrValid := false, l1Valid := false }))) ∨
    (∃ h, decodeWindow c w = .ok h ∧ loadHeader c w s =
      endOk { forgetLayer1 { s with hdrValid := false, l1Valid := false } with hdr := h, hdrValid := true }) := by
  unfold loadHeader
  rcases h : decodeWindow c w with r | h'
  · exact .inl ⟨r, rfl, rfl⟩
  · exact .inr ⟨h', rfl, rfl⟩

/-- A header that is built has table values for bitrate and frequency, and its stereo flags only in joint stereo
(R22, R119). -/
theorem decodeFields_ok {c : Config} {f : RawHeader} {h : Header} (hd : decodeFields c f = .ok h) :
    ∃ rate hz, rate ∈ c.bitrateTab (versionClass h.version) h.layer ∧ hz ∈ c.freqTab h.version ∧
      h.bitrate = BitVec.ofNat 9 rate ∧ h.freq = BitVec.ofNat 16 hz ∧
      (h.mode ≠ .jointStereo → h.iStereo = false ∧ h.msStereo = false) := by
  unfold decodeFields at hd
  repeat' split at hd
  all_goals cases hd
  rename_i v _ _ l _ _ rate hr _ hz hf _ e _
  refine ⟨rate, hz, List.mem_of_getElem? hr, List.mem_of_getElem? hf, rfl, rfl, fun hm => ?_⟩
  simp only [intensityFlag, msFlag]
  generalize c.modeDec f.mcode = m at *
  cases m
  · exact ⟨rfl, rfl⟩
  · exact absurd rfl hm
  · exact ⟨rfl, rfl⟩
  · exact ⟨rfl, rfl⟩

/-! ## Layer I -/

theorem layer1Moved_foldl {α : Type} {f : State → α → State} (hf : ∀ s a, Layer1Moved s (f s a)) (l : List α) (s : State) :
    Layer1Moved s (l.foldl f s) := by
  induction l generalizing s with
  | nil => rfl
  | cons a l ih => exact (hf s a).trans (ih _)

theorem layer1Moved_readInto {c : Config} {n : Nat} {store : Nat → State → State} (hf : ∀ v s, Layer1Moved s (store v s)) (s : State) :
    (readInto c n store s).All (Layer1Moved s) :=
  all_readInto rfl fun v _ h => (cursorMoved_readField h).layer1.trans (hf v _)

theorem layer1Moved_forEach {α : Type} {f : α → State → Micro} (hf : ∀ a s, (f a s).All (Layer1Moved s)) (l : List α)
    (s : State) : (forEach f l s).All (Layer1Moved s) :=
  all_forEach l rfl fun x _ t ht => all_mono (hf x t) fun _ hu => ht.trans hu

theorem layer1Moved_readAudioData (c : Config) (chs : List (Fin 2)) (bound : Nat) (s : State) :
    (readAudioData c chs bound s).All (Layer1Moved s) := by
  refine all_andThen (all_andThen ?_ fun t ht => ?_) fun t ht => ?_
  · exact layer1Moved_forEach (fun sb s => layer1Moved_forEach (fun group s =>
      layer1Moved_readInto (fun v s => layer1Moved_foldl (by intros; rfl) _ _) s) _ s) _ s
  · refine all_mono (layer1Moved_forEach (fun sb s => layer1Moved_forEach (fun ch s => ?_) _ s) _ t) fun _ hu => ht.trans hu
    unfold readScaleFactor
    split
    · exact Layer1Moved.refl s
    · exact layer1Moved_readInto (by intros; rfl) s
  · refine all_mono (layer1Moved_forEach (fun q s => layer1Moved_forEach (fun sb s => layer1Moved_forEach (fun group s =>
      ?_) _ s) _ s) _ t) fun _ hu => ht.trans hu
    unfold readSample
    simp only
    split
    · exact Layer1Moved.refl s
    · exact layer1Moved_readInto (fun v s => layer1Moved_foldl (by intros; rfl) _ _) s

theorem decL1Rule_cases (c : Config) (s : State) :
    (¬ (s.hdrValid = true ∧ s.hdr.layer = .layer1) ∧ decL1Rule c s = raise (.contract .noHeader) s) ∨
    ((s.hdrValid = true ∧ s.hdr.layer = .layer1) ∧
      ((∃ t, readAudioData c (channels s.hdr.mode) (stereoBound s.hdr) (clearLayer1 { s with l1Valid := false }) = .done t ∧
          Layer1Moved { s with l1Valid := false } t ∧ decL1Rule c s = endOk { t with l1Valid := true }) ∨
        (∃ x t, readAudioData c (channels s.hdr.mode) (stereoBound s.hdr) (clearLayer1 { s with l1Valid := false }) =
            .raised x t ∧ Layer1Moved { s with l1Valid := false } t ∧ SourceExn x s ∧
          decL1Rule c s = raise x (forgetLayer1 t)))) := by
  unfold decL1Rule
  by_cases h : s.hdrValid = true ∧ s.hdr.layer = .layer1
  · refine .inr ⟨h, ?_⟩
    have hv : (s.hdrValid && s.hdr.layer == .layer1) = true := by simp [h.1, h.2]
    rw [if_pos hv]
    have hm := layer1Moved_readAudioData c (channels s.hdr.mode) (stereoBound s.hdr) (clearLayer1 { s with l1Valid := false })
    have h0 : Layer1Moved { s with l1Valid := false } (clearLayer1 { s with l1Valid := false }) := rfl
    rcases hr : readAudioData c (channels s.hdr.mode) (stereoBound s.hdr) (clearLayer1 { s with l1Valid := false }) with t | ⟨x, t⟩
    · rw [hr] at hm
      exact .inl ⟨t, rfl, h0.trans hm, rfl⟩
    · rw [hr] at hm
      refine .inr ⟨x, t, rfl, h0.trans hm.1, ?_, rfl⟩
      have := hm.2
      unfold SourceExn at *
      rwa [(h0.trans hm.1).src] at this
  · have hv : (s.hdrValid && s.hdr.layer == .layer1) = false := by
      rcases hb : (s.hdrValid && s.hdr.layer == .layer1) with _ | _
      · rfl
      · exfalso; apply h; simpa using hb
    rw [hv]
    exact .inl ⟨h, rfl⟩

/-! ## Every instruction -/

/-- Every instruction is its rule behind the prologue. -/
theorem exec_eq (i : Instr) (s : State) : exec i s = prologue s (ruleOf standard i) := by cases i <;> rfl

theorem exec_running {i : Instr} {s : State} (h : s.halted = false) : exec i s = .next (ruleOf standard i s) := by
  rw [exec_eq, prologue_running h]

theorem exec_halted {i : Instr} {s : State} (h : s.halted = true) : exec i s = .next (endHalted s) := by
  rw [exec_eq, prologue_halted h]

/-- What `exec` answers, said once. -/
theorem exec_cases {i : Instr} {s t : State} (h : exec i s = .next t) :
    (s.halted = true ∧ t = endHalted s) ∨ (s.halted = false ∧ t = ruleOf standard i s) := by
  cases hh : s.halted with
  | true => rw [exec_halted hh] at h; cases h; exact .inl ⟨rfl, rfl⟩
  | false => rw [exec_running hh] at h; cases h; exact .inr ⟨rfl, rfl⟩

/-- What a command's rule leaves, said once for all commands: `u` is the state before the status registers are written and
`c` the completion. The source and the host's plan stay; `IOFAIL` comes from a data read that met an `ERR`; `HDR` is the
header decoder's, the Layer I registers the two decoders'; `RES` is written by success, but for `NOSYNC`; a contract
violation changes nothing, on a state of the block. -/
structure RuleEnd (i : Instr) (s u : State) (c : Completion) : Prop where
  src : u.src = s.src
  inputs : u.inputs = s.inputs
  errs : u.errs = s.errs
  ioFail : c = .ioFail →
    (i = .findSync ∨ i = .decHdr ∨ i = .decL1 ∨ ∃ n, i = .readBits n ∧ s.cnt.toNat < n) ∧ ∃ a, a ∈ s.src.errs
  hdr : i ≠ .decHdr → u.hdrValid = s.hdrValid ∧ u.hdr = s.hdr
  layer1 : i ≠ .decHdr → i ≠ .decL1 →
    u.l1Valid = s.l1Valid ∧ u.alloc = s.alloc ∧ u.scf = s.scf ∧ u.samp = s.samp ∧ u.draws = s.draws
  res : u.res ≠ s.res →
    (c = .ok ∧ (i = .align ∨ i = .position ∨ i = .findSync ∨ i = .fLen ∨ (∃ n, i = .readBits n) ∨
      ∃ code a f, i = .requant code a f)) ∨ (c = .noSync ∧ i = .findSync)
  contract : ∀ r, c = .contract r → CursorInv s → u = s

theorem RuleEnd.plain {i : Instr} {s : State} {c : Completion} (hc : c ≠ .ioFail) : RuleEnd i s s c :=
  ⟨rfl, rfl, rfl, fun h => absurd h hc, fun _ => ⟨rfl, rfl⟩, fun _ _ => ⟨rfl, rfl, rfl, rfl, rfl⟩, fun h => absurd rfl h,
    fun _ _ _ => rfl⟩

theorem ruleOf_ends (i : Instr) (s : State) : ∃ u c, ruleOf standard i s = finish c u ∧ RuleEnd i s u c := by
  cases i with
  | readBits n =>
    show ∃ u c, readBitsRule standard n s = finish c u ∧ RuleEnd _ s u c
    rcases readBitsRule_cases standard n s with ⟨-, e⟩ | ⟨-, e⟩ | ⟨-, -, v, s', h, e⟩ | ⟨h1, -, x, h, hx, e⟩
    · rw [e]; exact ⟨s, _, rfl, .plain (by simp [Exn.completion])⟩
    · exact ⟨_, _, e, rfl, rfl, rfl, by simp, by simp, by simp, by simp, by simp⟩
    · have m := cursorMoved_readField h
      rw [m] at e
      exact ⟨_, _, e, rfl, rfl, rfl, by simp, by simp, by simp, by simp, by simp⟩
    · refine ⟨_, _, e, rfl, rfl, rfl, ?_, by simp, by simp, by simp, by simp⟩
      rcases hx with ⟨rfl, hx⟩ | rfl
      · intro _
        refine ⟨.inr (.inr (.inr ⟨n, rfl, ?_⟩)), hx⟩
        rcases readField_cases standard n s with ⟨-, h'⟩ | ⟨_, e, -, h3, h4, -⟩
        · rw [h'] at h; cases h
        · rw [standard_refill] at h4; unfold refillBytes at h4; omega
      · simp [Exn.completion]
  | align => exact ⟨{ (alignRule s) with ended := s.ended }, .ok, rfl, rfl, rfl, rfl, by simp, by simp [alignRule, endOk, finish], by simp [alignRule, endOk, finish], by simp, by simp⟩
  | skipBytes k =>
    show ∃ u c, skipBytesRule standard k s = finish c u ∧ RuleEnd _ s u c
    rcases skipBytesRule_cases standard k s with ⟨-, e⟩ | ⟨-, e⟩ | ⟨-, -, e⟩
    · rw [e]; exact ⟨s, _, rfl, .plain (by simp [Exn.completion])⟩
    · rw [e]; exact ⟨s, _, rfl, .plain (by simp [Exn.completion])⟩
    · exact ⟨_, _, e, rfl, rfl, rfl, by simp, by simp [setCursor], by simp [setCursor], by simp [setCursor], by simp⟩
  | position => exact ⟨{ s with res := s.pos }, .ok, rfl, rfl, rfl, rfl, by simp, by simp, by simp, by simp, by simp⟩
  | findSync =>
    show ∃ u c, findSyncRule standard s = finish c u ∧ RuleEnd _ s u c
    unfold findSyncRule
    split
    · obtain ⟨s', m, h⟩ := scan_cases standard (scanRounds s) s
      have key : CursorInv s → ∀ x, skip standard (-1) s' = .error x → scan standard (scanRounds s) s = raise x s' → False := by
        intro hi x h1 h2
        have := findSyncRule_cases hi
        rw [findSyncRule, if_pos ‹_›, h2] at this
        have hx : x = .contract .badSkip ∨ x = .endOfStream := by
          rcases skip_cases standard (-1) s' with ⟨-, e⟩ | ⟨-, e⟩ | ⟨-, -, e⟩ <;> rw [e] at h1 <;> cases h1
          · exact .inl rfl
          · exact .inr rfl
        rcases this with ⟨hc, -⟩ | ⟨q, -, -, h⟩ | h | ⟨q, -, -, -, -, h⟩
        · have : s.aligned = true := ‹_›
          simp [State.aligned] at this; omega
        all_goals
          have := congrArg State.ended h
          rcases hx with rfl | rfl <;> simp [raise, endOk, endNoSync, Exn.completion] at this
      rcases h with h | ⟨h, ha⟩ | h | ⟨x, h1, h2⟩
      · rw [h]; rw [m]
        exact ⟨_, _, rfl, rfl, rfl, rfl, by simp, by simp, by simp, by simp, by simp⟩
      · rw [h]; rw [m]
        exact ⟨_, _, rfl, rfl, rfl, rfl, fun _ => ⟨.inl rfl, ha⟩, by simp, by simp, by simp, by simp [Exn.completion]⟩
      · rw [h]; rw [m]
        exact ⟨_, _, rfl, rfl, rfl, rfl, by simp, by simp, by simp, by simp, by simp⟩
      · have k := key
        rw [h2]
        refine ⟨s', _, rfl, by rw [m], by rw [m], by rw [m], ?_, by rw [m]; simp, by rw [m]; simp, by rw [m]; simp, ?_⟩
        · rcases skip_cases standard (-1) s' with ⟨-, e⟩ | ⟨-, e⟩ | ⟨-, -, e⟩ <;> rw [e] at h1 <;> cases h1 <;> simp [Exn.completion]
        · intro r _ hi; exact (key hi x h1 h2).elim
    · exact ⟨s, _, rfl, .plain (by simp [Exn.completion])⟩
  | decHdr =>
    show ∃ u c, decHdrRule standard s = finish c u ∧ RuleEnd _ s u c
    rcases decHdrRule_cases standard s with ⟨-, e⟩ | ⟨-, x, h, hx, e⟩ | ⟨-, w, s', h, e⟩
    · rw [e]; exact ⟨s, _, rfl, .plain (by simp [Exn.completion])⟩
    · refine ⟨_, _, e, rfl, rfl, rfl, ?_, by simp, by simp, by simp, by simp⟩
      rcases hx with ⟨rfl, hx⟩ | rfl
      · exact fun _ => ⟨.inr (.inl rfl), hx⟩
      · simp [Exn.completion]
    · have m := cursorMoved_readField h
      rw [m] at e
      rcases loadHeader_cases standard w s' with ⟨r, -, e'⟩ | ⟨h', -, e'⟩ <;> rw [m] at e' <;> rw [e'] at e
      · exact ⟨_, _, e, rfl, rfl, rfl, by simp [Exn.completion], by simp, by simp, by simp [forgetHeader, forgetLayer1], by simp [Exn.completion]⟩
      · exact ⟨_, _, e, rfl, rfl, rfl, by simp, by simp, by simp, by simp [forgetLayer1], by simp⟩
  | fLen =>
    show ∃ u c, fLenRule standard s = finish c u ∧ RuleEnd _ s u c
    unfold fLenRule
    split
    · exact ⟨_, _, rfl, rfl, rfl, rfl, by simp, by simp, by simp, by simp, by simp⟩
    · exact ⟨s, _, rfl, .plain (by simp [Exn.completion])⟩
  | decL1 =>
    show ∃ u c, decL1Rule standard s = finish c u ∧ RuleEnd _ s u c
    rcases decL1Rule_cases standard s with ⟨-, e⟩ | ⟨-, ⟨t, -, m, e⟩ | ⟨x, t, -, m, hx, e⟩⟩
    · rw [e]; exact ⟨s, _, rfl, .plain (by simp [Exn.completion])⟩
    · rw [m] at e
      exact ⟨_, _, e, rfl, rfl, rfl, by simp, by simp, by simp, by simp, by simp⟩
    · rw [m] at e
      refine ⟨_, _, e, rfl, rfl, rfl, ?_, by simp [forgetLayer1], by simp, by simp [forgetLayer1], ?_⟩
      · rcases hx with ⟨rfl, hx⟩ | rfl
        · exact fun _ => ⟨.inr (.inr (.inl rfl)), hx⟩
        · simp [Exn.completion]
      · rcases hx with ⟨rfl, hx⟩ | rfl <;> simp [Exn.completion]
  | requant code a f =>
    show ∃ u c, requantRule standard code a f s = finish c u ∧ RuleEnd _ s u c
    unfold requantRule
    split
    · exact ⟨s, _, rfl, .plain (by simp [Exn.completion])⟩
    · exact ⟨_, _, rfl, rfl, rfl, rfl, by simp, by simp, by simp, by simp, by simp⟩

end Sys2Proof.Machine
end

