-- ==== Sys2Proof/Laws/Decode.lean ====
section
/-! SUPPORT. Laws of the decoder: one inversion lemma for decoding a word, and the fields of a word put together from its
opcode and its immediate. -/

namespace Sys2Proof

theorem opcodeOf_some {b : Byte} {o : Opcode} (h : opcodeOf b = some o) : opByte o = b := by
  have := List.find?_some h
  simpa using this

theorem opcodeOf_opByte (o : Opcode) : opcodeOf (opByte o) = some o := by cases o <;> decide

/-- The mask of every row covers the opcode field whole. -/
theorem opField_of_match {w : CmdWord} {o : Opcode} (h : w &&& opMask o = opMatch o) : opField w = opByte o := by
  have h1 := congrArg (fun x => x.extractLsb' 56 8) h
  simp only [BitVec.extractLsb'_and] at h1
  have h2 : ((opMask o).extractLsb' 56 8) = BitVec.allOnes 8 := by cases o <;> decide
  have h3 : ((opMatch o).extractLsb' 56 8) = opByte o := by cases o <;> decide
  rw [h2, h3, BitVec.and_allOnes] at h1
  exact h1

/-- What a word that decodes looks like. -/
theorem decode_ok_iff {w : CmdWord} {i : Instr} :
    decode w = .ok i ↔ ∃ o, w &&& opMask o = opMatch o ∧ i = operandsOf o w := by
  constructor
  · intro h
    unfold decode at h
    split at h
    · cases h
    · rename_i o _
      split at h
      · exact ⟨o, ‹_›, by cases h; rfl⟩
      · cases h
  · rintro ⟨o, hm, rfl⟩
    rw [decode, opField_of_match hm, opcodeOf_opByte]
    simp [hm]

/-- A word put together from a row's opcode and an immediate is that row's command exactly when the must-be-zero bits of
the immediate are 0. -/
theorem cmdWord_match {o : Opcode} {imm m : BitVec 56} (hm : opMask o = 0xFF#8 ++ m) (h : imm &&& m = 0) :
    cmdWord o imm &&& opMask o = opMatch o := by
  have h2 : opMatch o = (opByte o &&& 0xFF#8) ++ (0 : BitVec 56) := by cases o <;> decide
  rw [cmdWord, hm, BitVec.and_append, h, h2]

/-- Bits of the immediate of a word put together. -/
theorem cmdWord_extract (o : Opcode) (imm : BitVec 56) (i n : Nat) (h : i + n ≤ 56) :
    (cmdWord o imm).extractLsb' i n = imm.extractLsb' i n := by
  apply BitVec.eq_of_toNat_eq
  rw [BitVec.extractLsb'_toNat, BitVec.extractLsb'_toNat, cmdWord, BitVec.toNat_append, Nat.shiftRight_eq_div_pow,
    Nat.shiftRight_eq_div_pow, ← Nat.shiftLeft_add_eq_or_of_lt imm.isLt, Nat.shiftLeft_eq]
  have e : (2 : Nat) ^ 56 = 2 ^ n * 2 ^ (56 - i - n) * 2 ^ i := by
    rw [← pow_add, ← pow_add]; congr 1; omega
  rw [e, ← mul_assoc, Nat.add_comm, Nat.add_mul_div_right _ _ (by positivity), ← mul_assoc, mul_comm (BitVec.toNat _) (2 ^ n),
    mul_assoc, Nat.add_mul_mod_self_left]

/-- A word is its opcode field and its immediate. -/
theorem word_split (w : CmdWord) : w = opField w ++ w.extractLsb' 0 56 := by
  apply BitVec.eq_of_toNat_eq
  rw [BitVec.toNat_append, ← Nat.shiftLeft_add_eq_or_of_lt (BitVec.isLt _), opField, BitVec.extractLsb'_toNat,
    BitVec.extractLsb'_toNat, Nat.shiftLeft_eq, Nat.shiftRight_eq_div_pow, Nat.shiftRight_eq_div_pow]
  have := w.isLt
  omega

/-- The must-be-zero bits of the immediate of a legal word. -/
theorem imm_of_match {w : CmdWord} {o : Opcode} {m : BitVec 56} (hm : opMask o = 0xFF#8 ++ m)
    (h : w &&& opMask o = opMatch o) : w.extractLsb' 0 56 &&& m = 0 := by
  have h1 := congrArg (fun x => x.extractLsb' 0 56) h
  simp only [BitVec.extractLsb'_and] at h1
  have h2 : (opMatch o).extractLsb' 0 56 = 0 := by cases o <;> decide
  have h3 : (0xFF#8 ++ m).extractLsb' 0 56 = m := by
    apply BitVec.eq_of_toNat_eq
    rw [BitVec.extractLsb'_toNat, BitVec.toNat_append, ← Nat.shiftLeft_add_eq_or_of_lt m.isLt, Nat.shiftLeft_eq,
      Nat.shiftRight_eq_div_pow]
    have := m.isLt
    omega
  rw [hm, h3, h2] at h1
  exact h1

/-- An immediate whose bits from `k` on must be zero is less than 2^k. -/
theorem imm_lt {imm m : BitVec 56} {k : Nat} (hk : k ≤ 56) (hm : m.extractLsb' k (56 - k) = BitVec.allOnes (56 - k))
    (h : imm &&& m = 0) : imm.toNat < 2 ^ k := by
  have h1 := congrArg (fun x => (x.extractLsb' k (56 - k)).toNat) h
  simp only [BitVec.extractLsb'_and, hm, BitVec.and_allOnes, BitVec.extractLsb'_toNat, Nat.shiftRight_eq_div_pow] at h1
  have h2 : imm.toNat / 2 ^ k < 2 ^ (56 - k) := by
    rw [Nat.div_lt_iff_lt_mul (by positivity), ← pow_add, show 56 - k + k = 56 by omega]
    exact imm.isLt
  rw [Nat.mod_eq_of_lt h2] at h1
  have h3 : (0 : BitVec 56).toNat / 2 ^ k % 2 ^ (56 - k) = 0 := by simp
  rw [h3, Nat.div_eq_zero_iff] at h1
  rcases h1 with h1 | h1
  · exact absurd h1 (by positivity)
  · exact h1

end Sys2Proof
end

