-- ==== Sys2Proof/Laws/HeaderDecoder.lean ====
section
/-! SUPPORT. Laws of the header decoder: what the bytes it reads mean as a window, which bits a field is, and which codes the
tables call reserved. -/

namespace Sys2Proof.Machine

/-- The three bytes `DECHDR` reads are the window it decodes (R110). -/
theorem decodeWindow_field (c : Config) (src : Source) (p : Nat) :
    decodeWindow c (src.field (8 * p) 24) =
      decodeFields c (extract (src.byteAt p) (src.byteAt (p+1)) (src.byteAt (p+2))) := by
  have h1 := (src.byteAt p).isLt
  have h2 := (src.byteAt (p + 1)).isLt
  have h3 := (src.byteAt (p + 2)).isLt
  have hf : src.field (8 * p) 24 = (src.byteAt p).toNat * 65536 + (src.byteAt (p+1)).toNat * 256 + (src.byteAt (p+2)).toNat := by
    have e := field_add src (8 * p) 8 (8 + 8)
    rw [field_add src (8 * p + 8) 8 8, field_byte, show 8 * p + 8 = 8 * (p + 1) by omega, field_byte, show 8 * (p + 1) + 8 = 8 * (p + 2) by omega, field_byte] at e
    rw [show 24 = 8 + (8 + 8) from rfl, e]; omega
  unfold decodeWindow
  simp only [hf]
  congr 2 <;> apply BitVec.eq_of_toNat_eq <;> simp only [BitVec.extractLsb'_toNat, BitVec.toNat_ofNat, Nat.shiftRight_eq_div_pow] <;> omega

/-! ## Mask-then-shift takes a field's own bits (R111) -/

theorem maskShift_vcode (b : Byte) : (maskShift b 0x18 3).setWidth 2 = b.extractLsb' 3 2 := by revert b; decide
theorem maskShift_lcode (b : Byte) : (maskShift b 0x06 1).setWidth 2 = b.extractLsb' 1 2 := by revert b; decide
theorem maskShift_bridx (b : Byte) : (maskShift b 0xF0 4).setWidth 4 = b.extractLsb' 4 4 := by revert b; decide
theorem maskShift_fridx (b : Byte) : (maskShift b 0x0C 2).setWidth 2 = b.extractLsb' 2 2 := by revert b; decide
theorem maskShift_pad (b : Byte) : ((maskShift b 0x02 1).setWidth 1 == 1#1) = b.getLsbD 1 := by revert b; decide
theorem maskShift_pbit (b : Byte) : ((maskShift b 0x01 0).setWidth 1 == 0#1) = !b.getLsbD 0 := by revert b; decide
theorem maskShift_mcode (b : Byte) : (maskShift b 0xC0 6).setWidth 2 = b.extractLsb' 6 2 := by revert b; decide
theorem maskShift_mext (b : Byte) : (maskShift b 0x30 4).setWidth 2 = b.extractLsb' 4 2 := by revert b; decide
theorem maskShift_copy (b : Byte) : ((maskShift b 0x08 3).setWidth 1 == 1#1) = b.getLsbD 3 := by revert b; decide
theorem maskShift_orig (b : Byte) : ((maskShift b 0x04 2).setWidth 1 == 1#1) = b.getLsbD 2 := by revert b; decide
theorem maskShift_ecode (b : Byte) : (maskShift b 0x03 0).setWidth 2 = b.extractLsb' 0 2 := by revert b; decide

/-! ## The reserved codes of the value tables (R117, R118) -/

theorem bitrateTab_none : ∀ c l, ∀ i : BitVec 4, (bitrateTab c l)[i.toNat]? = none ↔ i = 15 := by
  intro c l; cases c <;> cases l <;> decide
theorem freqTab_none : ∀ v, ∀ i : BitVec 2, (freqTab v)[i.toNat]? = none ↔ i = 3 := by
  intro c; cases c <;> decide
theorem emphDec_none : ∀ i : BitVec 2, emphDec i = none ↔ i = 2 := by decide

end Sys2Proof.Machine
end

