-- ==== Sys2Proof/Laws/Layer1.lean ====
section
/-! SUPPORT. Laws of the Layer I decoder: its three phases as loops over the frame's fields, and what they leave in the
arrays and where they leave the cursor, in terms of the places Safety.lean computes. -/

namespace Sys2Proof.Machine

/-! ## Storing one field -/

theorem alloc_setAlloc (ch ch' : Fin 2) (sb sb' : Fin 32) (v : BitVec 4) (s : State) :
    (setAlloc ch sb v s).alloc[ch'][sb'] = if ch' = ch ∧ sb' = sb then v else s.alloc[ch'][sb'] := by
  simp only [setAlloc, Fin.getElem_fin, Vector.getElem_set, Fin.ext_iff]
  by_cases h1 : ch.val = ch'.val <;> by_cases h2 : sb.val = sb'.val <;> simp_all [eq_comm]

theorem scf_setScf (ch ch' : Fin 2) (sb sb' : Fin 32) (v : BitVec 6) (s : State) :
    (setScf ch sb v s).scf[ch'][sb'] = if ch' = ch ∧ sb' = sb then v else s.scf[ch'][sb'] := by
  simp only [setScf, Fin.getElem_fin, Vector.getElem_set, Fin.ext_iff]
  by_cases h1 : ch.val = ch'.val <;> by_cases h2 : sb.val = sb'.val <;> simp_all [eq_comm]

theorem samp_setSamp (ch ch' : Fin 2) (sb sb' : Fin 32) (t t' : Fin 12) (v : BitVec 32) (s : State) :
    (setSamp ch sb t v s).samp[ch'][sb'][t'] = if ch' = ch ∧ sb' = sb ∧ t' = t then v else s.samp[ch'][sb'][t'] := by
  simp only [setSamp, Fin.getElem_fin, Vector.getElem_set, Fin.ext_iff]
  by_cases h1 : ch.val = ch'.val <;> by_cases h2 : sb.val = sb'.val <;> by_cases h3 : t.val = t'.val <;>
    simp_all [eq_comm]

theorem alloc_foldl (g : List (Fin 2)) (sb : Fin 32) (v : BitVec 4) (s : State) (ch' : Fin 2) (sb' : Fin 32) :
    (g.foldl (fun s ch => setAlloc ch sb v s) s).alloc[ch'][sb'] =
      if ch' ∈ g ∧ sb' = sb then v else s.alloc[ch'][sb'] := by
  induction g generalizing s with
  | nil => simp
  | cons ch g ih =>
    rw [List.foldl_cons, ih, alloc_setAlloc]
    by_cases h1 : ch' ∈ g <;> by_cases h2 : sb' = sb <;> by_cases h3 : ch' = ch <;> simp [h1, h2, h3]

theorem samp_foldl (c : Config) (g : List (Fin 2)) (sb : Fin 32) (t : Fin 12) (code : Nat) (s : State) (ch' : Fin 2)
    (sb' : Fin 32) (t' : Fin 12) :
    (g.foldl (storeSample c t sb code) s).samp[ch'][sb'][t'] =
      if ch' ∈ g ∧ sb' = sb ∧ t' = t then sampWord c (c.req code s.alloc[ch'][sb'].toNat s.scf[ch'][sb'].toNat)
      else s.samp[ch'][sb'][t'] := by
  induction g generalizing s with
  | nil => simp
  | cons ch g ih =>
    rw [List.foldl_cons, ih]
    have e1 : (storeSample c t sb code s ch).alloc = s.alloc := rfl
    have e2 : (storeSample c t sb code s ch).scf = s.scf := rfl
    rw [e1, e2, storeSample, samp_setSamp]
    by_cases h1 : ch' ∈ g <;> by_cases h2 : sb' = sb <;> by_cases h3 : ch' = ch <;> by_cases h4 : t' = t <;>
      simp [h1, h2, h3, h4]

theorem alloc_foldl_moved (g : List (Fin 2)) (sb : Fin 32) (v : BitVec 4) (s : State) :
    g.foldl (fun s ch => setAlloc ch sb v s) s = { s with alloc := (g.foldl (fun s ch => setAlloc ch sb v s) s).alloc } := by
  induction g generalizing s with
  | nil => rfl
  | cons ch g ih => rw [List.foldl_cons, ih]; rfl

theorem samp_foldl_moved (c : Config) (g : List (Fin 2)) (sb : Fin 32) (t : Fin 12) (code : Nat) (s : State) :
    g.foldl (storeSample c t sb code) s = { s with samp := (g.foldl (storeSample c t sb code) s).samp } := by
  induction g generalizing s with
  | nil => rfl
  | cons ch g ih => rw [List.foldl_cons, ih]; rfl

/-! ## The three phases as loops over one list of fields -/

/-- The allocation and sample fields in their order: a subband and the channels that share the field (R152, R154). -/
def fieldList (chs : List (Fin 2)) (bound : Nat) : List (Fin 32 × List (Fin 2)) :=
  subbands.flatMap fun sb => (fieldGroups chs bound sb).map fun g => (sb, g)

/-- The places of the scale factors in their order (R153). -/
def scaleList (chs : List (Fin 2)) : List (Fin 32 × Fin 2) := subbands.flatMap fun sb => chs.map fun ch => (sb, ch)

theorem readAllocations_eq (c : Config) (chs : List (Fin 2)) (bound : Nat) (s : State) :
    readAllocations c chs bound s = forEach (fun x => readAlloc c x.1 x.2) (fieldList chs bound) s := by
  rw [readAllocations, fieldList, forEach_flatMap]
  congr 1; funext sb t; rw [forEach_map]

theorem readScaleFactors_eq (c : Config) (chs : List (Fin 2)) (s : State) :
    readScaleFactors c chs s = forEach (fun x => readScaleFactor c x.1 x.2) (scaleList chs) s := by
  rw [readScaleFactors, scaleList, forEach_flatMap]
  congr 1; funext sb t; rw [forEach_map]

theorem readSamples_eq (c : Config) (chs : List (Fin 2)) (bound : Nat) (s : State) :
    readSamples c chs bound s =
      forEach (fun q => forEach (fun x => readSample c q x.1 x.2) (fieldList chs bound)) slots s := by
  rw [readSamples]
  congr 1; funext q t
  rw [fieldList, forEach_flatMap]
  congr 1; funext sb t; rw [forEach_map]

/-! ## The layout of a frame: the list of fields agrees with the places Safety.lean computes -/

/-- What the proofs need of a header's field list. -/
structure Layout (h : Header) (chs : List (Fin 2)) (bound : Nat) : Prop where
  fields_length : (fieldList chs bound).length = fieldCount h
  scales_length : (scaleList chs).length = frameChannels h * 32
  group : ∀ i (hi : i < (fieldList chs bound).length), ∀ (ch : Fin 2) (sb : Fin 32),
    ch ∈ (fieldList chs bound)[i].2 ∧ sb = (fieldList chs bound)[i].1 ↔ ch.val < frameChannels h ∧ fieldIndex h ch sb = i
  head : ∀ i (hi : i < (fieldList chs bound).length), (fieldList chs bound)[i].2.headD 0 ∈ (fieldList chs bound)[i].2 ∧
    ((fieldList chs bound)[i].2.headD 0).val = fieldChannel h i ∧ (fieldList chs bound)[i].1.val = fieldSubband h i
  scale : ∀ i (hi : i < (scaleList chs).length), (scaleList chs)[i].2.val = i % frameChannels h ∧
    (scaleList chs)[i].1.val = i / frameChannels h
  chans : 1 ≤ frameChannels h ∧ frameChannels h ≤ 2

/-- The layout facts of one channel count and bound, as a computation. -/
def layoutCheck (nch bound : Nat) (chs : List (Fin 2)) : Bool :=
  let F := fieldList chs bound
  let S := scaleList chs
  let fi := fun ch sb => if sb < bound then nch * sb + ch else nch * bound + (sb - bound)
  F.length == nch * bound + (32 - bound) && S.length == nch * 32 &&
  F.zipIdx.all (fun x => (List.finRange 2).all (fun ch => (List.finRange 32).all fun sb =>
    decide (ch ∈ x.1.2 ∧ sb = x.1.1) == decide (ch.val < nch ∧ fi ch.val sb.val = x.2))
    && decide (x.1.2.headD 0 ∈ x.1.2) && (x.1.2.headD 0).val == (if x.2 < nch * bound then x.2 % nch else 0) &&
     x.1.1.val == if x.2 < nch * bound then x.2 / nch else bound + (x.2 - nch * bound)) &&
  S.zipIdx.all (fun x => x.1.2.val == x.2 % nch && x.1.1.val == x.2 / nch)

theorem layout_of_check {h : Header} {chs : List (Fin 2)} {nch bound : Nat} (h1 : frameChannels h = nch)
    (h2 : stereoBound h = bound) (h3 : 1 ≤ nch ∧ nch ≤ 2) (hc : layoutCheck nch bound chs = true) : Layout h chs bound := by
  simp only [layoutCheck, Bool.and_eq_true, beq_iff_eq, List.all_eq_true, decide_eq_decide, decide_eq_true_eq] at hc
  obtain ⟨⟨⟨c1, c2⟩, c3⟩, c4⟩ := hc
  have z : ∀ i (hi : i < (fieldList chs bound).length), ((fieldList chs bound)[i], i) ∈ (fieldList chs bound).zipIdx := by
    intro i hi; rw [List.mem_zipIdx_iff_getElem?]; simp [hi]
  have z' : ∀ i (hi : i < (scaleList chs).length), ((scaleList chs)[i], i) ∈ (scaleList chs).zipIdx := by
    intro i hi; rw [List.mem_zipIdx_iff_getElem?]; simp [hi]
  subst h1 h2
  refine ⟨c1, c2, fun i hi ch sb => ?_, fun i hi => ?_, fun i hi => c4 _ (z' i hi), h3⟩
  · exact (c3 _ (z i hi)).1.1.1 ch (List.mem_finRange _) sb (List.mem_finRange _)
  · obtain ⟨⟨⟨-, a⟩, b⟩, c⟩ := c3 _ (z i hi)
    exact ⟨a, b, c⟩

/-- The six shapes a Layer I frame can have. -/
theorem layoutCheck_all : layoutCheck 1 32 [0] = true ∧ layoutCheck 2 32 [0, 1] = true ∧ layoutCheck 2 4 [0, 1] = true ∧
    layoutCheck 2 8 [0, 1] = true ∧ layoutCheck 2 12 [0, 1] = true ∧ layoutCheck 2 16 [0, 1] = true := by
  decide +kernel

theorem layout (h : Header) : Layout h (channels h.mode) (stereoBound h) := by
  obtain ⟨c1, c2, c3, c4, c5, c6⟩ := layoutCheck_all
  cases hm : h.mode with
  | singleChannel =>
    have e : stereoBound h = 32 := by simp [stereoBound, hm]
    rw [e]; exact layout_of_check (by simp [frameChannels, hm]) e ⟨by omega, by omega⟩ c1
  | stereo =>
    have e : stereoBound h = 32 := by simp [stereoBound, hm]
    rw [e]; exact layout_of_check (by simp [frameChannels, hm]) e ⟨by omega, by omega⟩ c2
  | dualChannel =>
    have e : stereoBound h = 32 := by simp [stereoBound, hm]
    rw [e]; exact layout_of_check (by simp [frameChannels, hm]) e ⟨by omega, by omega⟩ c2
  | jointStereo =>
    have e : stereoBound h = (h.modeExt.toNat + 1) * 4 := by simp [stereoBound, hm]
    have hn : frameChannels h = 2 := by simp [frameChannels, hm]
    have hx := h.modeExt.isLt
    have : stereoBound h = 4 ∨ stereoBound h = 8 ∨ stereoBound h = 12 ∨ stereoBound h = 16 := by omega
    rcases this with e | e | e | e <;> rw [e]
    · exact layout_of_check hn e ⟨by omega, by omega⟩ c3
    · exact layout_of_check hn e ⟨by omega, by omega⟩ c4
    · exact layout_of_check hn e ⟨by omega, by omega⟩ c5
    · exact layout_of_check hn e ⟨by omega, by omega⟩ c6


/-! ## Field boundaries: no boundary lies inside a field -/

theorem widths_le (f : Nat → Nat) {p q : Nat} (h : p ≤ q) : ((List.range p).map f).sum ≤ ((List.range q).map f).sum := by
  induction q with
  | zero => rw [show p = 0 by omega]
  | succ q ih =>
    rcases Nat.eq_or_lt_of_le h with rfl | h'
    · exact le_refl _
    · have := ih (by omega)
      rw [List.range_succ, List.map_append, List.sum_append]; omega

theorem widths_succ (f : Nat → Nat) (p : Nat) : ((List.range (p + 1)).map f).sum = ((List.range p).map f).sum + f p := by
  rw [List.range_succ, List.map_append, List.sum_append]; simp

theorem sampleStart_le {src : Source} {h : Header} {b p : Nat} (hp : p ≤ frameChannels h * 32) :
    scaleStart h b + scaleOffset src h b p ≤ sampleStart src h b := by
  have := widths_le (scaleWidth src h b) hp
  unfold sampleStart scaleOffset; omega

theorem slot_le {src : Source} {h : Header} {b t q : Nat} (ht : t < 12) (hq : q ≤ fieldCount h) :
    sampleStart src h b + t * slotBits src h b + sampleOffset src h b q ≤ frameEnd src h b := by
  have h1 : sampleOffset src h b q ≤ slotBits src h b := widths_le (sampleWidth src h b) hq
  have h2 : (t + 1) * slotBits src h b ≤ 12 * slotBits src h b := Nat.mul_le_mul_right _ (by omega)
  rw [Nat.succ_mul] at h2
  unfold frameEnd; omega

theorem boundary_alloc {src : Source} {h : Header} {b i x : Nat} (hi : i < fieldCount h) (hx : FieldBoundary src h b x) :
    x ≤ b + 4 * i ∨ b + 4 * (i + 1) ≤ x := by
  rcases hx with ⟨j, -, rfl⟩ | ⟨p, -, rfl⟩ | ⟨t, q, -, -, rfl⟩
  · omega
  · unfold scaleStart; omega
  · unfold sampleStart scaleStart; omega

theorem boundary_scale {src : Source} {h : Header} {b p x : Nat} (hp : p < frameChannels h * 32)
    (hx : FieldBoundary src h b x) :
    x ≤ scaleStart h b + scaleOffset src h b p ∨ scaleStart h b + scaleOffset src h b (p + 1) ≤ x := by
  rcases hx with ⟨j, hj, rfl⟩ | ⟨p', -, rfl⟩ | ⟨t, q, -, -, rfl⟩
  · unfold scaleStart; omega
  · rcases Nat.lt_or_ge p p' with h' | h'
    · have : scaleOffset src h b (p + 1) ≤ scaleOffset src h b p' := widths_le _ h'
      omega
    · have : scaleOffset src h b p' ≤ scaleOffset src h b p := widths_le _ h'
      omega
  · have := sampleStart_le (src := src) (b := b) (show p + 1 ≤ frameChannels h * 32 by omega)
    omega

theorem boundary_sample {src : Source} {h : Header} {b u q x : Nat} (hq : q < fieldCount h)
    (hx : FieldBoundary src h b x) :
    x ≤ sampleStart src h b + u * slotBits src h b + sampleOffset src h b q ∨
      sampleStart src h b + u * slotBits src h b + sampleOffset src h b (q + 1) ≤ x := by
  have slot : ∀ k, k ≤ fieldCount h → sampleOffset src h b k ≤ slotBits src h b := fun k hk => widths_le _ hk
  have rows : ∀ m n, m < n → m * slotBits src h b + slotBits src h b ≤ n * slotBits src h b := fun m n hmn => by
    rw [← Nat.succ_mul]; exact Nat.mul_le_mul_right _ hmn
  rcases hx with ⟨j, hj, rfl⟩ | ⟨p', hp', rfl⟩ | ⟨t, k, -, hk, rfl⟩
  · unfold sampleStart scaleStart; omega
  · have := sampleStart_le (src := src) (b := b) hp'
    omega
  · rcases Nat.lt_trichotomy t u with h' | rfl | h'
    · have := rows t u h'; have := slot k hk; omega
    · rcases Nat.lt_or_ge q k with h' | h'
      · have : sampleOffset src h b (q + 1) ≤ sampleOffset src h b k := widths_le _ h'
        omega
      · have : sampleOffset src h b k ≤ sampleOffset src h b q := widths_le _ h'
        omega
    · have := rows u t h'; have := slot (q + 1) hq; omega

/-! ## Reading fields one after the other -/

/-- `t` is `s0` with the cursor at stream bit `b`, every byte up to there read, and perhaps other arrays. -/
structure Reached (s0 : State) (b : Nat) (t : State) : Prop where
  frame : t = { atBit b s0 with alloc := t.alloc, scf := t.scf, samp := t.samp }
  inv : CursorInv t
  bp : t.bp = b
  le : s0.bp ≤ b
  readable : Readable s0.src s0.pos.toNat ((b + 7) / 8)

/-- A field of at most 16 bits that ends by the stream bit `limit` could not be read for byte `e`; the cursor stands at the
last field boundary before that byte. -/
def Cut (s0 : State) (h : Header) (limit : Nat) (x : Exn) (t : State) : Prop :=
  ∃ b e, Reached s0 b t ∧ LastBoundaryBefore s0.src h s0.bp e b ∧ 8 * e < b + 16 ∧ 8 * e < limit ∧ Readable s0.src s0.pos.toNat e ∧
    (x = .ioFailure ∧ e ∈ s0.src.errs ∨ x = .endOfStream ∧ e ∉ s0.src.errs ∧ s0.src.len ≤ e)

theorem Reached.src {s0 t : State} {b : Nat} (h : Reached s0 b t) : t.src = s0.src := by rw [h.frame]; rfl

theorem Reached.start {s0 : State} (h : CursorInv s0) : Reached s0 s0.bp s0 := by
  refine ⟨by rw [atBit_bp h], h, rfl, le_refl _, ?_⟩
  rw [← h.pos_eq]; exact fun a h1 h2 => absurd h2 (by omega)

theorem Reached.arrays {s0 t t' : State} {b : Nat} (h : Reached s0 b t)
    (e : t' = { t with alloc := t'.alloc, scf := t'.scf, samp := t'.samp }) : Reached s0 b t' := by
  have h1 := h.frame
  have hi := h.inv
  refine ⟨?_, ?_, ?_, h.le, h.readable⟩
  · rw [e, h1]
  · rw [e]; exact ⟨hi.source, hi.cursor, hi.buffer⟩
  · rw [e]; exact h.bp

theorem Reached.pos {s0 t : State} {b : Nat} (h : Reached s0 b t) : t.pos.toNat = (b + 7) / 8 := by
  rw [h.inv.pos_eq, h.bp]

theorem Reached.read {s0 t : State} {hd : Header} {b n limit : Nat} (h : Reached s0 b t) (hn : n ≤ 16) (hl : b + n ≤ limit)
    (hb : FieldBoundary s0.src hd s0.bp b) (hx : ∀ x, FieldBoundary s0.src hd s0.bp x → x ≤ b ∨ b + n ≤ x)
    (store : Nat → State → State) :
    (∃ t', readInto standard n store t = .done (store (streamValue s0.src b n) t') ∧ Reached s0 (b + n) t' ∧ t'.alloc = t.alloc ∧
      t'.scf = t.scf ∧ t'.samp = t.samp) ∨
    (∃ x, readInto standard n store t = .raised x t ∧ Cut s0 hd limit x t) := by
  have hp := h.pos
  rcases readField_at_cases h.inv n with ⟨h1, h2, h3⟩ | ⟨x, e, h1, h2, h3, h4, h5⟩
  · obtain ⟨g1, g2, g3, g4, g5, g6⟩ := cursorInv_readField h.inv h3
    rw [h.bp] at h3 g1 g6 g4
    refine .inl ⟨_, ?_, ⟨?_, g1, g4, ?_, ?_⟩, rfl, rfl, rfl⟩
    · rw [readInto, h3, h.src, field_eq_streamValue]
    · conv => lhs; rw [h.frame]
      rfl
    · have := h.le; omega
    · intro a ha hb
      by_cases hlt : a < (b + 7) / 8
      · exact h.readable a ha hlt
      · rw [← h.src]; exact g6 a (by omega) hb
  · rw [h.bp] at h3
    rw [h.src] at h5 h4
    refine .inr ⟨x, by rw [readInto, h1], b, e, h, ⟨hb, by omega, fun y hy he => ?_⟩, by omega, by omega, ?_, h5⟩
    · rcases hx y hy with h' | h'
      · exact h'
      · omega
    intro a ha hb
    by_cases hlt : a < (b + 7) / 8
    · exact h.readable a ha hlt
    · exact h4 a (by omega) hb

/-- A loop that may raise, step by step. -/
theorem forEach_walk {α : Type} {f : α → State → Micro} (l : List α) {Q : Nat → State → Prop} {R : Exn → State → Prop}
    {s : State} (hs : Q 0 s)
    (hf : ∀ i (hi : i < l.length) t, Q i t →
      (∃ t', f l[i] t = .done t' ∧ Q (i + 1) t') ∨ ∃ x t', f l[i] t = .raised x t' ∧ R x t') :
    (∃ t, forEach f l s = .done t ∧ Q l.length t) ∨ ∃ x t, forEach f l s = .raised x t ∧ R x t := by
  induction l generalizing s Q with
  | nil => exact .inl ⟨s, rfl, hs⟩
  | cons x l ih =>
    rw [forEach]
    rcases hf 0 (by simp) s hs with ⟨t, ht, hq⟩ | ⟨y, t, ht, hr⟩ <;> rw [List.getElem_cons_zero] at ht <;> rw [ht]
    · exact ih (Q := fun i => Q (i + 1)) hq fun i hi t' h => hf (i + 1) (by simpa using hi) t' h
    · exact .inr ⟨y, t, rfl, hr⟩

theorem frameAlloc_lt (src : Source) (h : Header) (b ch sb : Nat) : frameAlloc src h b ch sb < 16 := by
  unfold frameAlloc
  split
  · rw [← field_eq_streamValue]; exact field_lt src _ 4
  · omega

/-! ## What each phase leaves -/

/-- The first `i` allocation fields are stored. -/
def AllocAt (s0 : State) (h : Header) (i : Nat) (t : State) : Prop := ∀ (ch : Fin 2) (sb : Fin 32),
  t.alloc[ch][sb] = BitVec.ofNat 4 (if fieldIndex h ch sb < i then frameAlloc s0.src h s0.bp ch sb else 0)

/-- The first `p` scale-factor places are stored. -/
def ScfAt (s0 : State) (h : Header) (p : Nat) (t : State) : Prop := ∀ (ch : Fin 2) (sb : Fin 32),
  t.scf[ch][sb] = BitVec.ofNat 6
    (if ch.val < frameChannels h ∧ frameChannels h * sb + ch < p then frameScf s0.src h s0.bp ch sb else 0)

/-- The sample slots before `u`, and the first `q` fields of slot `u`, are stored. -/
def SampAt (s0 : State) (h : Header) (u q : Nat) (t : State) : Prop :=
  ∀ (ch : Fin 2) (sb : Fin 32) (k : Fin 12),
    t.samp[ch][sb][k] = BitVec.ofInt 32
      (if k.val < u ∨ k.val = u ∧ fieldIndex h ch sb < q then frameSamp standard s0.src h s0.bp ch sb k else 0)

theorem allocations_walk {s0 : State} (h0 : CursorInv s0) (h : Header) (ha : ∀ (ch : Fin 2) (sb : Fin 32), s0.alloc[ch][sb] = 0)
    {chs : List (Fin 2)} {bound limit : Nat} (L : Layout h chs bound) (hl : scaleStart h s0.bp ≤ limit) :
    (∃ t, readAllocations standard chs bound s0 = .done t ∧ Reached s0 (scaleStart h s0.bp) t ∧ AllocAt s0 h (fieldCount h) t ∧
      t.scf = s0.scf ∧ t.samp = s0.samp) ∨
    (∃ x t, readAllocations standard chs bound s0 = .raised x t ∧ Cut s0 h limit x t) := by
  rw [readAllocations_eq]
  have := forEach_walk (f := fun x => readAlloc standard x.1 x.2) (fieldList chs bound) (s := s0)
    (Q := fun i t => Reached s0 (s0.bp + 4 * i) t ∧ AllocAt s0 h i t ∧ t.scf = s0.scf ∧ t.samp = s0.samp) (R := Cut s0 h limit)
    ⟨Reached.start h0, fun ch sb => by rw [ha]; simp, rfl, rfl⟩ ?_
  · rw [L.fields_length] at this; exact this
  · rintro i hi t ⟨q1, q2, q3, q4⟩
    have hi' := hi
    rw [L.fields_length] at hi'
    unfold scaleStart at hl
    rcases q1.read (hd := h) (n := 4) (limit := limit) (by omega) (by omega) (.inl ⟨i, by omega, rfl⟩)
        (fun x hx => by have := boundary_alloc hi' hx; omega)
        (fun v s => (fieldList chs bound)[i].2.foldl
          (fun s ch => setAlloc ch (fieldList chs bound)[i].1 (BitVec.ofNat 4 v) s) s) with ⟨t', e, r, e1, e2, e3⟩ | ⟨x, e, r⟩
    · refine .inl ⟨_, e, ?_, ?_, ?_, ?_⟩
      · rw [show s0.bp + 4 * (i + 1) = s0.bp + 4 * i + 4 by omega]
        refine r.arrays ?_
        conv => lhs; rw [alloc_foldl_moved]
        conv => rhs; rw [alloc_foldl_moved]
      · intro ch sb
        rw [alloc_foldl]
        have hg := L.group i hi ch sb
        by_cases hm : ch.val < frameChannels h ∧ fieldIndex h ch sb = i
        · rw [if_pos (hg.2 hm), if_pos (by omega), frameAlloc, if_pos hm.1, hm.2]
        · rw [if_neg (fun hc => hm (hg.1 hc)), e1, q2]
          congr 1
          by_cases hlt : fieldIndex h ch sb < i
          · rw [if_pos hlt, if_pos (by omega)]
          · rw [if_neg hlt]
            split
            · rw [frameAlloc, if_neg (fun hc => hm ⟨hc, by omega⟩)]
            · rfl
      · rw [alloc_foldl_moved]; exact e2.trans q3
      · rw [alloc_foldl_moved]; exact e3.trans q4
    · exact .inr ⟨x, t, e, r⟩

theorem fieldIndex_lt {h : Header} (hb : stereoBound h ≤ 32) (ch : Fin 2) (sb : Fin 32)
   (hc : ch.val < frameChannels h) : fieldIndex h ch sb < fieldCount h := by
  have := sb.isLt
  unfold fieldIndex fieldCount
  split
  · have : frameChannels h * (sb.val + 1) ≤ frameChannels h * stereoBound h := Nat.mul_le_mul_left _ (by omega)
    rw [Nat.mul_succ] at this; omega
  · omega

theorem frameAlloc_absent {src : Source} {h : Header} {b ch sb : Nat} (hc : ¬ ch < frameChannels h) :
    frameAlloc src h b ch sb = 0 := if_neg hc

/-- All of `ALLOC` is as the stream says. -/
def AllocDone (s0 : State) (h : Header) (t : State) : Prop := ∀ (ch : Fin 2) (sb : Fin 32),
  t.alloc[ch][sb] = BitVec.ofNat 4 (frameAlloc s0.src h s0.bp ch sb)

theorem allocDone {s0 t : State} {h : Header} (hb : stereoBound h ≤ 32)
    (ha : AllocAt s0 h (fieldCount h) t) : AllocDone s0 h t := by
  intro ch sb
  rw [ha]
  congr 1
  by_cases hc : ch.val < frameChannels h
  · rw [if_pos (fieldIndex_lt hb ch sb hc)]
  · rw [frameAlloc_absent hc]; simp

theorem AllocDone.toNat {s0 t : State} {h : Header} (ha : AllocDone s0 h t) (ch : Fin 2) (sb : Fin 32) :
    t.alloc[ch][sb].toNat = frameAlloc s0.src h s0.bp ch sb := by
  rw [ha, BitVec.toNat_ofNat]; exact Nat.mod_eq_of_lt (frameAlloc_lt ..)

theorem AllocDone.eq_zero {s0 t : State} {h : Header} (ha : AllocDone s0 h t) (ch : Fin 2) (sb : Fin 32) :
    t.alloc[ch][sb] = 0 ↔ frameAlloc s0.src h s0.bp ch sb = 0 := by
  rw [← ha.toNat]
  exact ⟨fun h => by rw [h]; rfl, fun h => BitVec.eq_of_toNat_eq h⟩

theorem scaleFactors_walk {s0 t0 : State} {h : Header} {chs : List (Fin 2)} {bound limit : Nat} (L : Layout h chs bound)
    (hr : Reached s0 (scaleStart h s0.bp) t0) (ha : AllocDone s0 h t0) (hz : ∀ (ch : Fin 2) (sb : Fin 32), t0.scf[ch][sb] = 0)
    (hl : sampleStart s0.src h s0.bp ≤ limit) :
    (∃ t, readScaleFactors standard chs t0 = .done t ∧ Reached s0 (sampleStart s0.src h s0.bp) t ∧ AllocDone s0 h t ∧
      ScfAt s0 h (frameChannels h * 32) t ∧ t.samp = t0.samp) ∨
    (∃ x t, readScaleFactors standard chs t0 = .raised x t ∧ Cut s0 h limit x t) := by
  rw [readScaleFactors_eq]
  have := forEach_walk (f := fun x => readScaleFactor standard x.1 x.2) (scaleList chs) (s := t0)
    (Q := fun p t => Reached s0 (scaleStart h s0.bp + scaleOffset s0.src h s0.bp p) t ∧ AllocDone s0 h t ∧
      ScfAt s0 h p t ∧ t.samp = t0.samp)
    (R := Cut s0 h limit) ⟨hr, ha, fun ch sb => by rw [hz]; simp, rfl⟩ ?_
  · rw [L.scales_length] at this; exact this
  · rintro p hp t ⟨q1, q2, q3, q4⟩
    have hp' := hp
    rw [L.scales_length] at hp'
    obtain ⟨g1, g2⟩ := L.scale p hp
    obtain ⟨c1, c2⟩ := L.chans
    generalize (scaleList chs)[p] = x at *
    have hdm : frameChannels h * x.1.val + x.2.val = p := by rw [g1, g2, Nat.div_add_mod]
    have hlt : x.2.val < frameChannels h := by rw [g1]; exact Nat.mod_lt _ (by omega)
    have off : scaleOffset s0.src h s0.bp (p + 1) =
        scaleOffset s0.src h s0.bp p + scaleWidth s0.src h s0.bp p := widths_succ _ _
    have hle := sampleStart_le (src := s0.src) (b := s0.bp) (show p + 1 ≤ frameChannels h * 32 by omega)
    have uniq : ∀ (ch : Fin 2) (sb : Fin 32), ch.val < frameChannels h → frameChannels h * sb + ch = p →
        ch = x.2 ∧ sb = x.1 := by
      intro ch sb h1 h2
      constructor
      · apply Fin.ext; rw [g1, ← h2, Nat.mul_add_mod, Nat.mod_eq_of_lt h1]
      · apply Fin.ext; rw [g2, ← h2, Nat.mul_add_div (by omega), Nat.div_eq_of_lt h1, Nat.add_zero]
    have key : ∀ t', t'.alloc = t.alloc → t'.samp = t.samp →
        Reached s0 (scaleStart h s0.bp + scaleOffset s0.src h s0.bp (p + 1)) t' →
        (∀ (ch : Fin 2) (sb : Fin 32), t'.scf[ch][sb] =
          if ch = x.2 ∧ sb = x.1 then BitVec.ofNat 6 (frameScf s0.src h s0.bp x.2 x.1) else t.scf[ch][sb]) →
        Reached s0 (scaleStart h s0.bp + scaleOffset s0.src h s0.bp (p + 1)) t' ∧ AllocDone s0 h t' ∧
          ScfAt s0 h (p + 1) t' ∧ t'.samp = t0.samp := by
      intro t' e1 e2 e3 e4
      refine ⟨e3, fun ch sb => by rw [e1]; exact q2 ch sb, fun ch sb => ?_, e2.trans q4⟩
      rw [e4]
      by_cases hm : ch = x.2 ∧ sb = x.1
      · rw [if_pos hm]
        obtain ⟨rfl, rfl⟩ := hm
        rw [if_pos ⟨hlt, by omega⟩]
      · rw [if_neg hm, q3]
        congr 1
        by_cases hlt' : ch.val < frameChannels h ∧ frameChannels h * sb + ch < p
        · rw [if_pos hlt', if_pos ⟨hlt'.1, by omega⟩]
        · rw [if_neg hlt', if_neg]
          intro hc
          exact hm (uniq ch sb hc.1 (by have := hlt'; by_contra hne; exact hlt' ⟨hc.1, by omega⟩))
    have hw : scaleWidth s0.src h s0.bp p = if frameAlloc s0.src h s0.bp x.2 x.1 = 0 then 0 else 6 := by
      rw [scaleWidth, ← g1, ← g2]
    simp only [readScaleFactor]
    by_cases hz' : frameAlloc s0.src h s0.bp x.2 x.1 = 0
    · rw [if_pos ((q2.eq_zero _ _).2 hz')]
      rw [if_pos hz'] at hw
      refine .inl ⟨t, rfl, key t rfl rfl (by rw [off, hw]; exact q1) fun ch sb => ?_⟩
      split
      · rename_i hm
        obtain ⟨rfl, rfl⟩ := hm
        rw [q3, frameScf, if_pos hz']; simp
      · rfl
    · rw [if_neg (fun hc => hz' ((q2.eq_zero _ _).1 hc))]
      rw [if_neg hz'] at hw
      rcases q1.read (hd := h) (n := 6) (limit := limit) (by omega) (by omega) (.inr (.inl ⟨p, by omega, rfl⟩))
        (fun x hx => by have := boundary_scale hp' hx; omega)
        (fun v s => setScf x.2 x.1 (BitVec.ofNat 6 v) s) with ⟨t', e, r, e1, e2, e3⟩ | ⟨y, e, r⟩
      · refine .inl ⟨_, e, key _ e1 e3 ?_ fun ch sb => ?_⟩
        · rw [off, hw, ← Nat.add_assoc]; exact r.arrays rfl
        · rw [scf_setScf, e2, frameScf, if_neg hz', hdm]
      · exact .inr ⟨y, t, e, r⟩

theorem scfDone {s0 t : State} {h : Header} (ha : ScfAt s0 h (frameChannels h * 32) t) (ch : Fin 2) (sb : Fin 32) :
  t.scf[ch][sb] = BitVec.ofNat 6 (frameScf s0.src h s0.bp ch sb) := by
  rw [ha]
  congr 1
  by_cases hc : ch.val < frameChannels h
  · have hsb := sb.isLt
    have : frameChannels h * (sb.val + 1) ≤ frameChannels h * 32 := Nat.mul_le_mul_left _ (by omega)
    rw [Nat.mul_succ] at this
    rw [if_pos ⟨hc, by omega⟩]
  · rw [if_neg (fun h => hc h.1), frameScf, if_pos (frameAlloc_absent hc)]

theorem frameScf_lt (src : Source) (h : Header) (b ch sb : Nat) : frameScf src h b ch sb < 64 := by
  unfold frameScf
  split
  · omega
  · rw [← field_eq_streamValue]; exact field_lt src _ 6

/-- All of `SCF` is as the stream says. -/
def ScfDone (s0 : State) (h : Header) (t : State) : Prop := ∀ (ch : Fin 2) (sb : Fin 32),
  t.scf[ch][sb] = BitVec.ofNat 6 (frameScf s0.src h s0.bp ch sb)

theorem ScfDone.toNat {s0 t : State} {h : Header} (ha : ScfDone s0 h t) (ch : Fin 2) (sb : Fin 32) :
    t.scf[ch][sb].toNat = frameScf s0.src h s0.bp ch sb := by
  rw [ha, BitVec.toNat_ofNat]; exact Nat.mod_eq_of_lt (frameScf_lt ..)

theorem sampleSlot_walk {s0 t0 : State} {h : Header} {chs : List (Fin 2)} {bound limit : Nat} (L : Layout h chs bound)
    (u : Fin 12) (hr : Reached s0 (sampleStart s0.src h s0.bp + u * slotBits s0.src h s0.bp) t0)
    (ha : AllocDone s0 h t0) (hs : ScfDone s0 h t0)
    (hz : SampAt s0 h u 0 t0) (hl : frameEnd s0.src h s0.bp ≤ limit) :
    (∃ t, forEach (fun x => readSample standard u x.1 x.2) (fieldList chs bound) t0 = .done t ∧
      Reached s0 (sampleStart s0.src h s0.bp + (u + 1) * slotBits s0.src h s0.bp) t ∧ AllocDone s0 h t ∧ ScfDone s0 h t ∧
      SampAt s0 h u (fieldCount h) t) ∨
    (∃ x t, forEach (fun x => readSample standard u x.1 x.2) (fieldList chs bound) t0 = .raised x t ∧ Cut s0 h limit x t) := by
  have := forEach_walk (f := fun x => readSample standard u x.1 x.2) (fieldList chs bound) (s := t0)
    (Q := fun q t =>
      Reached s0 (sampleStart s0.src h s0.bp + u * slotBits s0.src h s0.bp + sampleOffset s0.src h s0.bp q) t ∧
      AllocDone s0 h t ∧ ScfDone s0 h t ∧ SampAt s0 h u q t)
    (R := Cut s0 h limit) ⟨hr, ha, hs, hz⟩ ?_
  · rw [L.fields_length] at this
    rw [Nat.succ_mul, ← Nat.add_assoc]; exact this
  · rintro q hq t ⟨q1, q2, q3, q4⟩
    have hq' := hq
    rw [L.fields_length] at hq'
    obtain ⟨g0, g1, g2⟩ := L.head q hq
    have hg := L.group q hq
    generalize (fieldList chs bound)[q] = x at *
    have off : sampleOffset s0.src h s0.bp (q + 1) =
        sampleOffset s0.src h s0.bp q + sampleWidth s0.src h s0.bp q := widths_succ _ _
    have hle := slot_le (src := s0.src) (b := s0.bp) u.isLt (show q + 1 ≤ fieldCount h by omega)
    have same : ∀ (ch : Fin 2) (sb : Fin 32), ch ∈ x.2 ∧ sb = x.1 →
        frameAlloc s0.src h s0.bp ch sb = frameAlloc s0.src h s0.bp (x.2.headD 0) x.1 := by
      intro ch sb hm
      have h1 := (hg ch sb).1 hm
      have h2 := (hg _ _).1 ⟨g0, rfl⟩
      rw [frameAlloc, frameAlloc, if_pos h1.1, if_pos h2.1, h1.2, h2.2]
    have key : ∀ t', t'.alloc = t.alloc → t'.scf = t.scf →
        Reached s0 (sampleStart s0.src h s0.bp + u * slotBits s0.src h s0.bp + sampleOffset s0.src h s0.bp (q + 1)) t' →
        (∀ (ch : Fin 2) (sb : Fin 32) (k : Fin 12), t'.samp[ch][sb][k] =
          if ch ∈ x.2 ∧ sb = x.1 ∧ k = u then BitVec.ofInt 32 (frameSamp standard s0.src h s0.bp ch sb k) else t.samp[ch][sb][k]) →
        Reached s0 (sampleStart s0.src h s0.bp + u * slotBits s0.src h s0.bp + sampleOffset s0.src h s0.bp (q + 1)) t' ∧
          AllocDone s0 h t' ∧ ScfDone s0 h t' ∧ SampAt s0 h u (q + 1) t' := by
      intro t' e1 e2 e3 e4
      refine ⟨e3, fun ch sb => by rw [e1]; exact q2 ch sb, fun ch sb => by rw [e2]; exact q3 ch sb, fun ch sb k => ?_⟩
      rw [e4]
      by_cases hm : ch ∈ x.2 ∧ sb = x.1 ∧ k = u
      · rw [if_pos hm]
        have := (hg ch sb).1 ⟨hm.1, hm.2.1⟩
        rw [if_pos (.inr ⟨by rw [hm.2.2], by omega⟩)]
      · rw [if_neg hm, q4]
        congr 1
        by_cases hlt' : k.val < u ∨ k.val = u ∧ fieldIndex h ch sb < q
        · rw [if_pos hlt', if_pos (by omega)]
        · rw [if_neg hlt']
          split
          · rename_i hc
            have hk : k = u := Fin.ext (by omega)
            have hnc : ¬ ch.val < frameChannels h := fun hc' => hm (by
              have := (hg ch sb).2 ⟨hc', by omega⟩; exact ⟨this.1, this.2, hk⟩)
            rw [frameSamp]; simp only [frameAlloc_absent hnc, if_true]
          · rfl
    have hw : sampleWidth s0.src h s0.bp q =
        if frameAlloc s0.src h s0.bp (x.2.headD 0) x.1 = 0 then 0 else frameAlloc s0.src h s0.bp (x.2.headD 0) x.1 + 1 := by
      rw [sampleWidth, ← g1, ← g2]
    simp only [readSample]
    rw [q2.toNat]
    by_cases hz' : frameAlloc s0.src h s0.bp (x.2.headD 0) x.1 = 0
    · rw [if_pos hz']
      rw [if_pos hz'] at hw
      refine .inl ⟨t, rfl, key t rfl rfl (by rw [off, hw]; exact q1) fun ch sb k => ?_⟩
      split
      · rename_i hm
        have hfa := (same ch sb ⟨hm.1, hm.2.1⟩).trans hz'
        rw [q4]
        congr 1
        split
        · rfl
        · rw [frameSamp]; simp only [hfa, if_true]
      · rfl
    · rw [if_neg hz']
      rw [if_neg hz'] at hw
      have hlt := frameAlloc_lt s0.src h s0.bp (x.2.headD 0) x.1
      rcases q1.read (hd := h) (n := frameAlloc s0.src h s0.bp (x.2.headD 0) x.1 + 1) (limit := limit) (by omega)
        (by omega) (.inr (.inr ⟨u, q, u.isLt, by omega, rfl⟩)) (fun x hx => by have := boundary_sample (u := u) hq' hx; omega)
        (fun v s => x.2.foldl (storeSample standard u x.1 v) s) with ⟨t', e, r, e1, e2, e3⟩ | ⟨y, e, r⟩
      · refine .inl ⟨_, e, key _ ?_ ?_ ?_ fun ch sb k => ?_⟩
        · rw [samp_foldl_moved]; exact e1
        · rw [samp_foldl_moved]; exact e2
        · rw [off, hw, ← Nat.add_assoc]
          refine r.arrays ?_
          conv => lhs; rw [samp_foldl_moved]
          conv => rhs; rw [samp_foldl_moved]
        · rw [samp_foldl, e3]
          by_cases hm : ch ∈ x.2 ∧ sb = x.1 ∧ k = u
          · rw [if_pos hm, if_pos hm]
            obtain ⟨hm1, rfl, rfl⟩ := hm
            have hs' := same ch x.1 ⟨hm1, rfl⟩
            have hi := ((hg ch x.1).1 ⟨hm1, rfl⟩).2
            rw [e1, e2, q2.toNat, q3.toNat, sampWord_standard, frameSamp]
            simp only [hs', hz', if_false, hi]
          · rw [if_neg hm, if_neg hm]
      · exact .inr ⟨y, t, e, r⟩

theorem samples_walk {s0 t0 : State} {h : Header} {chs : List (Fin 2)} {bound limit : Nat} (L : Layout h chs bound)
    (hfi : ∀ (ch : Fin 2) (sb : Fin 32), ch.val < frameChannels h → fieldIndex h ch sb < fieldCount h)
    (hr : Reached s0 (sampleStart s0.src h s0.bp) t0) (ha : AllocDone s0 h t0) (hs : ScfDone s0 h t0)
    (hz : ∀ (ch : Fin 2) (sb : Fin 32) (k : Fin 12), t0.samp[ch][sb][k] = 0) (hl : frameEnd s0.src h s0.bp ≤ limit) :
    (∃ t, readSamples standard chs bound t0 = .done t ∧
      Reached s0 (frameEnd s0.src h s0.bp) t ∧ AllocDone s0 h t ∧ ScfDone s0 h t ∧
      ∀ (ch : Fin 2) (sb : Fin 32) (k : Fin 12), t.samp[ch][sb][k] = BitVec.ofInt 32 (frameSamp standard s0.src h s0.bp ch sb k)) ∨
    (∃ x t, readSamples standard chs bound t0 = .raised x t ∧ Cut s0 h limit x t) := by
  rw [readSamples_eq]
  have hlen : slots.length = 12 := by simp [slots]
  have := forEach_walk (f := fun q => forEach (fun x => readSample standard q x.1 x.2) (fieldList chs bound)) slots (s := t0)
    (Q := fun u t => Reached s0 (sampleStart s0.src h s0.bp + u * slotBits s0.src h s0.bp) t ∧
      AllocDone s0 h t ∧ ScfDone s0 h t ∧ SampAt s0 h u 0 t)
    (R := Cut s0 h limit) ⟨by simpa using hr, ha, hs, fun ch sb k => by rw [hz]; simp⟩ ?_
  · rw [hlen] at this
    rcases this with ⟨t, h1, h2, h3, h4, h5⟩ | h'
    · refine .inl ⟨t, h1, h2, h3, h4, fun ch sb k => ?_⟩
      rw [h5, if_pos (.inl k.isLt)]
    · exact .inr h'
  · rintro u hu t ⟨q1, q2, q3, q4⟩
    have he : slots[u] = ⟨u, by omega⟩ := by simp [slots]
    rw [he]
    rcases sampleSlot_walk L ⟨u, by omega⟩ q1 q2 q3 q4 hl with ⟨t', h1, h2, h3, h4, h5⟩ | h'
    · refine .inl ⟨t', h1, h2, h3, h4, fun ch sb k => ?_⟩
      rw [h5]
      congr 1
      by_cases hc : ch.val < frameChannels h
      · have := hfi ch sb hc
        simp only [show (k.val < u ∨ k.val = u ∧ fieldIndex h ch sb < fieldCount h) ↔
          (k.val < u + 1 ∨ k.val = u + 1 ∧ fieldIndex h ch sb < 0) from by omega]
      · have : frameSamp standard s0.src h s0.bp ch sb k = 0 := by rw [frameSamp]; simp only [frameAlloc_absent hc, if_true]
        rw [this]; simp
    · exact .inr h'

theorem stereoBound_le (h : Header) : stereoBound h ≤ 32 := by
  unfold stereoBound; have := h.modeExt.isLt; split <;> omega

/-- Everything the three phases can do: they leave the arrays of the frame and the cursor at its end, every byte having been
readable; or a field cannot be read, and the cursor stands before it. -/
theorem readAudioData_cases (h : Header) {s0 : State} (h0 : CursorInv s0)
    (ha : ∀ (ch : Fin 2) (sb : Fin 32), s0.alloc[ch][sb] = 0 ∧ s0.scf[ch][sb] = 0 ∧ ∀ k : Fin 12, s0.samp[ch][sb][k] = 0) :
    (∃ t, readAudioData standard (channels h.mode) (stereoBound h) s0 = .done t ∧ Reached s0 (frameEnd s0.src h s0.bp) t ∧
      ∀ (ch : Fin 2) (sb : Fin 32), t.alloc[ch][sb].toNat = frameAlloc s0.src h s0.bp ch sb ∧
        t.scf[ch][sb].toNat = frameScf s0.src h s0.bp ch sb ∧
        ∀ k : Fin 12, t.samp[ch][sb][k] = BitVec.ofInt 32 (frameSamp standard s0.src h s0.bp ch sb k)) ∨
    (∃ x t, readAudioData standard (channels h.mode) (stereoBound h) s0 = .raised x t ∧ Cut s0 h (frameEnd s0.src h s0.bp) x t) := by
  have L := layout h
  have l2 : sampleStart s0.src h s0.bp ≤ frameEnd s0.src h s0.bp := Nat.le_add_right _ _
  have l1 : scaleStart h s0.bp ≤ frameEnd s0.src h s0.bp := le_trans (Nat.le_add_right _ _) l2
  have hfi := fieldIndex_lt (stereoBound_le h)
  unfold readAudioData
  rcases allocations_walk h0 h (fun ch sb => (ha ch sb).1) L l1 with ⟨t, e, r, a, b, b'⟩ | ⟨x, t, e, r⟩ <;> rw [e]
  · rw [andThen_done]
    have a' := allocDone (stereoBound_le h) a
    rcases scaleFactors_walk L r a' (fun ch sb => by rw [b]; exact (ha ch sb).2.1) l2 with ⟨t', e, r, a, c', d⟩ | ⟨x, t, e, r⟩ <;> rw [e]
    · rw [andThen_done]
      rcases samples_walk L hfi r a (scfDone c') (fun ch sb k => by rw [d, b']; exact (ha ch sb).2.2 k) (le_refl _) with ⟨t', e, r, a, c', d⟩ | ⟨x, t, e, r⟩
      · exact .inl ⟨t', e, r, fun ch sb => ⟨a.toNat ch sb, c'.toNat ch sb, d ch sb⟩⟩
      · exact .inr ⟨x, t, e, r⟩
    · exact .inr ⟨x, t, rfl, r⟩
  · exact .inr ⟨x, t, rfl, r⟩

/-- Every way `DECL1` can end on a state of the block: no Layer I header; the arrays of the frame and the cursor at its end,
every byte up to there having been readable; or the exception of byte `e`, with the cursor at the last field boundary before
it. -/
theorem decL1Rule_at_cases {s : State} (h : CursorInv s) :
    (¬ (s.hdrValid = true ∧ s.hdr.layer = .layer1) ∧ decL1Rule standard s = raise (.contract .noHeader) s) ∨
    (∃ t : State, decL1Rule standard s = endOk { atBit (frameEnd s.src s.hdr s.bp) s with
        alloc := t.alloc, scf := t.scf, samp := t.samp, l1Valid := true } ∧
      Readable s.src s.pos.toNat ((frameEnd s.src s.hdr s.bp + 7) / 8) ∧
      ∀ (ch : Fin 2) (sb : Fin 32), t.alloc[ch][sb].toNat = frameAlloc s.src s.hdr s.bp ch sb ∧
        t.scf[ch][sb].toNat = frameScf s.src s.hdr s.bp ch sb ∧
        ∀ k : Fin 12, t.samp[ch][sb][k] = BitVec.ofInt 32 (frameSamp standard s.src s.hdr s.bp ch sb k)) ∨
    (∃ (x : Exn) (b e : Nat) (al : AllocArray) (sc : ScfArray) (sa : SampArray) (d : Nat),
      decL1Rule standard s = raise x { atBit b s with
        alloc := al, scf := sc, samp := sa, draws := d, l1Valid := false } ∧
      s.bp ≤ b ∧ LastBoundaryBefore s.src s.hdr s.bp e b ∧ 8 * e < b + 16 ∧ 8 * e < frameEnd s.src s.hdr s.bp ∧
      Readable s.src s.pos.toNat e ∧
      (x = .ioFailure ∧ e ∈ s.src.errs ∨ x = .endOfStream ∧ e ∉ s.src.errs ∧ s.src.len ≤ e)) := by
  by_cases hv : s.hdrValid = true ∧ s.hdr.layer = .layer1
  · refine .inr ?_
    unfold decL1Rule
    rw [if_pos (show (s.hdrValid && s.hdr.layer == .layer1) = true by simp [hv.1, hv.2])]
    have frame : ∀ {b : Nat} {t : State}, Reached (clearLayer1 { s with l1Valid := false }) b t →
        t = { atBit b s with alloc := t.alloc, scf := t.scf, samp := t.samp, l1Valid := false } := fun r => r.frame
    rcases readAudioData_cases s.hdr (s0 := clearLayer1 { s with l1Valid := false }) ⟨h.source, h.cursor, h.buffer⟩
        (fun ch sb => by simp [clearLayer1]) with ⟨t, e, r, a⟩ | ⟨x, t, et, b, e, r, h1, h2, h3, h4, h5⟩
    · refine .inl ⟨t, ?_, r.readable, a⟩
      rw [e]
      conv => lhs; rw [frame r]
      rfl
    · refine .inr ⟨x, b, e, Config.freeAlloc t.draws, Config.freeScf t.draws, Config.freeSamp t.draws, t.draws + 1, ?_, r.le, h1, h2, h3, h4, h5⟩
      rw [et]
      show raise x (forgetLayer1 t) = _
      rw [frame r]
      rfl
  · exact .inl ⟨hv, (decL1Rule_cases standard s).elim (·.2) fun h' => absurd h'.1 hv⟩

end Sys2Proof.Machine
end

