-- ==== Sys2Proof/Laws/Parameters.lean ====
section
/-! SUPPORT. The block with its parameters as an argument: at the defaults it is the machine of `exec` and `step`, and any
legal `REFILL` reads the same field. -/

namespace Sys2Proof.Machine

theorem standard_legal : LegalConfig standard := by
  refine ⟨le_refl _, by decide, by decide, by decide, fun n cnt _ => ?_⟩
  rw [standard_refill]
  unfold refillBytes
  exact ⟨le_refl _, by omega, by omega⟩

theorem execWith_standard (i : Instr) (s : State) : execWith standard i s = exec i s := (exec_eq i s).symm

/-- A word of the default length stands where it is. -/
theorem widenWord_standard (w : CmdWord) : widenWord standard w = w := by
  apply BitVec.eq_of_toNat_eq
  have h1 : (w.setWidth (standard.cmdLen - 8)).signExtend 56 = w.setWidth 56 := BitVec.signExtend_eq _
  rw [widenWord, h1, BitVec.toNat_append, BitVec.toNat_setWidth, BitVec.toNat_setWidth, BitVec.toNat_ushiftRight,
    ← Nat.shiftLeft_add_eq_or_of_lt (Nat.mod_lt _ (Nat.two_pow_pos 56)), Nat.shiftLeft_eq, Nat.shiftRight_eq_div_pow,
    show standard.cmdLen - 8 = 56 from rfl]
  have := w.isLt
  omega

theorem runWordWith_standard : runWordWith standard = runWord := by
  funext w s
  rw [runWordWith, runWord, widenWord_standard]
  cases decode w with
  | error r => rfl
  | ok i => exact execWith_standard i s

theorem stepWith_standard (s : State) : stepWith standard s = step s := by rw [stepWith, runWordWith_standard, step]

/-- Whatever a legal `REFILL` fetches beyond what suffices, a field that can be read has the value of its stream bits, and
the cursor moves by exactly its width (R80, R82, D7). -/
theorem readField_legal {c : Config} (hc : LegalConfig c) {n : Nat} {s : State} (hn : n ≤ 64)
    (hr : Readable s.src s.pos.toNat (s.pos.toNat + c.refill n s.cnt.toNat)) (h0 : s.cnt.toNat ≤ 8 * s.pos.toNat)
    (hp : s.pos.toNat + c.refill n s.cnt.toNat < 2 ^ c.xlenPos) :
    ∃ t, readField c n s = .ok (streamValue s.src s.bp n, t) ∧ t.bp = s.bp + n ∧ CursorMoved s t := by
  obtain ⟨h1, -, h3⟩ := hc.refill n s.cnt.toNat hn
  have h3' := h3 s.cnt.isLt
  have h2 : 2 ^ c.xlenPos ≤ 2 ^ 64 := Nat.pow_le_pow_right (by omega) hc.pos.2
  refine ⟨_, by rw [readField_ok hr, field_eq_streamValue], ?_, cursorMoved_setCursor ..⟩
  unfold State.bp refillBytes at *
  rw [setCursor_pos, setCursor_cnt, posWord, BitVec.toNat_ofNat, BitVec.toNat_ofNat, Nat.mod_eq_of_lt hp,
    Nat.mod_eq_of_lt (by omega), Nat.mod_eq_of_lt (by omega)]
  omega

end Sys2Proof.Machine
end

