-- ==== Sys2Proof/Laws/PerInstr.lean ====
section
/-! SUPPORT. What is said of every instruction as syntax, one lemma per constructor: its word decodes to it, and belongs to
its row of the opcode map. -/

namespace Sys2Proof.Laws.EncodeDecode

/-- A well-formed instruction's word is a word of its own row (R62) and decodes to it. -/
def Statement (i : Instr) : Prop :=
  i.wellFormed = true → encode i &&& opMask (Machine.rowOf i) = opMatch (Machine.rowOf i) ∧ decode (encode i) = .ok i

/-- From the row's mask and the operands read back. -/
theorem of_row {i : Instr} (o : Opcode) (hr : Machine.rowOf i = o) (hm : encode i &&& opMask o = opMatch o)
    (hi : operandsOf o (encode i) = i) : Statement i := fun _ => by
  subst hr
  exact ⟨hm, decode_ok_iff.2 ⟨_, hm, hi.symm⟩⟩

theorem readBits (n : Nat) : Statement (.readBits n) := by
  intro h
  have hn : n < 128 := by simpa [Instr.wellFormed] using h
  refine of_row .readBits rfl ?_ ?_ h
  · refine cmdWord_match (m := 0xFFFFFFFFFFFF80) (by decide) ?_
    have e : BitVec.ofNat 56 n = (0 : BitVec 49) ++ BitVec.ofNat 7 n := by
      apply BitVec.eq_of_toNat_eq
      rw [BitVec.toNat_append, ← Nat.shiftLeft_add_eq_or_of_lt (BitVec.isLt _)]
      simp only [BitVec.ofNat_eq_ofNat, BitVec.toNat_ofNat, Nat.shiftLeft_eq]
      omega
    rw [e, show (0xFFFFFFFFFFFF80 : BitVec 56) = BitVec.allOnes 49 ++ (0 : BitVec 7) by decide, BitVec.and_append]
    simp
  · show Instr.readBits _ = _
    rw [encode, cmdWord_extract _ _ _ _ (by omega), BitVec.extractLsb'_toNat, BitVec.toNat_ofNat]
    congr 1
    simp only [Nat.shiftRight_zero]
    omega

theorem align : Statement .align := of_row .align rfl (by decide) rfl

theorem skipBytes (k : Int) : Statement (.skipBytes k) := by
  intro h
  simp only [Instr.wellFormed, Bool.and_eq_true, decide_eq_true_eq] at h
  refine of_row .skipBytes rfl (cmdWord_match (m := 0) (by decide) (by simp)) ?_ (by simpa [Instr.wellFormed] using h)
  show Instr.skipBytes _ = _
  rw [encode, cmdWord_extract _ _ _ _ (by omega)]
  have e : (BitVec.ofInt 56 k).extractLsb' 0 56 = BitVec.ofInt 56 k := by simp
  rw [e, BitVec.toInt_ofInt, Int.bmod_eq_of_le]
  · simpa using h.1
  · simpa using h.2

theorem position : Statement .position := of_row .position rfl (by decide) rfl

theorem findSync : Statement .findSync := of_row .findSync rfl (by decide) rfl

theorem decHdr : Statement .decHdr := of_row .decHdr rfl (by decide) rfl

theorem fLen : Statement .fLen := of_row .fLen rfl (by decide) rfl

theorem decL1 : Statement .decL1 := of_row .decL1 rfl (by decide) rfl

theorem requant (code alloc scf : Nat) : Statement (.requant code alloc scf) := by
  intro h
  have h' := h
  simp only [Instr.wellFormed, Bool.and_eq_true, decide_eq_true_eq] at h'
  obtain ⟨⟨hc, ha⟩, hf⟩ := h'
  refine of_row .requant rfl ?_ ?_ h
  · refine cmdWord_match (m := BitVec.allOnes 30 ++ (0 : BitVec 6) ++ (0 : BitVec 4) ++ (0 : BitVec 16)) (by decide) ?_
    rw [BitVec.and_append, BitVec.and_append, BitVec.and_append]
    simp
  · have e : ((0 : BitVec 30) ++ BitVec.ofNat 6 scf ++ BitVec.ofNat 4 alloc ++ BitVec.ofNat 16 code).toNat =
        scf * 2 ^ 20 + alloc * 2 ^ 16 + code := by
      rw [BitVec.toNat_append, ← Nat.shiftLeft_add_eq_or_of_lt (BitVec.isLt _), BitVec.toNat_append,
        ← Nat.shiftLeft_add_eq_or_of_lt (BitVec.isLt _), BitVec.toNat_append,
        ← Nat.shiftLeft_add_eq_or_of_lt (BitVec.isLt _)]
      simp only [BitVec.ofNat_eq_ofNat, BitVec.toNat_ofNat, Nat.shiftLeft_eq]
      omega
    show Instr.requant _ _ _ = _
    rw [encode, cmdWord_extract _ _ _ _ (by omega), cmdWord_extract _ _ _ _ (by omega), cmdWord_extract _ _ _ _ (by omega)]
    simp only [BitVec.extractLsb'_toNat, e, Nat.shiftRight_eq_div_pow]
    congr 1 <;> omega

end Sys2Proof.Laws.EncodeDecode
end

