-- ==== Sys2Proof/Laws/Requantizer.lean ====
section
/-! SUPPORT. Laws of the requantizer's arithmetic: the bit length and the fractional part (R8, R160). -/

namespace Sys2Proof.Machine

/-- R8: the bit length of a number between two powers. -/
theorem bitlen_eq {v k : Nat} (h1 : 2 ^ k ≤ v) (h2 : v < 2 ^ (k+1)) : bitlen v = k + 1 := by
  have : v ≠ 0 := by have := Nat.two_pow_pos k; omega
  unfold bitlen; rw [if_neg this, (Nat.log2_eq_iff this).2 ⟨h1, h2⟩]

/-- The fractional part is the code without its highest 1 bit. -/
theorem fractional_add {v k : Nat} (h1 : 2 ^ k ≤ v) (h2 : v < 2 ^ (k+1)) : fractional v + 2 ^ k = v := by
  unfold fractional; simp only [bitlen_eq h1 h2]
  rw [if_pos (by omega), Nat.add_sub_cancel]
  obtain ⟨r, rfl⟩ : ∃ r, v = 2 ^ k + r := ⟨v - 2 ^ k, by omega⟩
  have hr : r < 2 ^ k := by rw [Nat.pow_succ] at h2; omega
  have e : 2 ^ k + r = 2 ^ k ^^^ r := by
    have := Nat.two_pow_add_eq_or_of_lt hr 1
    rw [Nat.mul_one] at this
    rw [this]
    apply Nat.eq_of_testBit_eq; intro i
    by_cases hi : i = k
    · subst hi; simp [Nat.testBit_lt_two_pow hr]
    · simp [Ne.symm hi]
  conv => lhs; rw [e, Nat.xor_comm (2^k) r, Nat.xor_assoc, Nat.xor_self, Nat.xor_zero]
  omega

theorem fractional_lt {v b : Nat} (h : v < 2 ^ (b + 1)) : fractional v < 2 ^ b := by
  by_cases h0 : v = 0
  · subst h0; simp [fractional, bitlen]
  · have h1 := Nat.log2_self_le h0
    have h2 : v < 2 ^ (Nat.log2 v + 1) := Nat.lt_log2_self
    have := fractional_add h1 h2
    have : Nat.log2 v ≤ b := by
      by_contra hc
      have : 2 ^ (b+1) ≤ 2 ^ Nat.log2 v := Nat.pow_le_pow_right (by omega) (by omega)
      omega
    have : 2 ^ Nat.log2 v ≤ 2 ^ b := Nat.pow_le_pow_right (by omega) (by omega)
    rw [Nat.pow_succ] at h2
    omega

end Sys2Proof.Machine
end

