-- ==== Sys2Proof/Machine/Assembler.lean ====
section
/-! DEFINITION. The assembler's line syntax (R65): a mnemonic in capitals, then its operands separated by commas, decimal
or 0x hexadecimal, the skip distance with an optional sign; a semicolon starts a comment. -/

namespace Sys2Proof.Machine

/-- The value of a digit in the given base. -/
def digitValue (base : Nat) (c : Char) : Option Nat :=
  let v :=
    if '0' ≤ c ∧ c ≤ '9' then c.toNat - '0'.toNat
    else if 'a' ≤ c ∧ c ≤ 'f' then c.toNat - 'a'.toNat + 10
    else if 'A' ≤ c ∧ c ≤ 'F' then c.toNat - 'A'.toNat + 10
    else base
  if v < base then some v else none

/-- Digits after a value already read. -/
def digits (base acc : Nat) : List Char → Option Nat
  | [] => some acc
  | c :: rest =>
    match digitValue base c with
    | none => none
    | some v => digits base (base * acc + v) rest

/-- An unsigned operand: decimal, or hexadecimal after 0x (R65). -/
def unsignedOperand : List Char → Option Nat
  | [] => none
  | '0' :: 'x' :: [] => none
  | '0' :: 'x' :: rest => digits 16 0 rest
  | cs => digits 10 0 cs

/-- A signed operand: an optional sign, then an unsigned one (R65). -/
def signedOperand : List Char → Option Int
  | '-' :: rest => (unsignedOperand rest).map (fun v => -(v : Int))
  | '+' :: rest => (unsignedOperand rest).map (fun v => (v : Int))
  | cs => (unsignedOperand cs).map (fun v => (v : Int))

/-- A blank of the line. -/
def isBlank (c : Char) : Bool := c == ' ' || c == '\t'

/-- A text without the blanks at its two ends. -/
def trimBlanks (cs : List Char) : List Char := (((cs.dropWhile isBlank).reverse).dropWhile isBlank).reverse

/-- The pieces of a text between its commas. -/
def splitCommas : List Char → List (List Char)
  | [] => [[]]
  | ',' :: rest => [] :: splitCommas rest
  | c :: rest =>
    match splitCommas rest with
    | [] => [[c]]
    | p :: ps => (c :: p) :: ps

/-- The instruction of a mnemonic and its operand texts. -/
def parseCommand (mnemonic : List Char) (operands : List (List Char)) : Option Instr :=
  match String.ofList mnemonic, operands with
  | "READBITS", [n] => (unsignedOperand n).map .readBits
  | "ALIGN", [] => some .align
  | "SKIPBYTES", [k] => (signedOperand k).map .skipBytes
  | "POSITION", [] => some .position
  | "FINDSYNC", [] => some .findSync
  | "DECHDR", [] => some .decHdr
  | "FLEN", [] => some .fLen
  | "DECL1", [] => some .decL1
  | "REQUANT", [code, alloc, scf] =>
    match unsignedOperand code, unsignedOperand alloc, unsignedOperand scf with
    | some c, some a, some f => some (.requant c a f)
    | _, _, _ => none
  | _, _ => none

/-- What one line of assembler text holds. -/
inductive AsmLine where
  /-- nothing, or a comment only -/
  | blank
  | command (i : Instr)
  | malformed
  deriving DecidableEq, Repr

/-- One line of assembler text (R65). A command whose operands no command word can hold is malformed (R61). -/
def parseLine (line : List Char) : AsmLine :=
  let text := trimBlanks (line.takeWhile (fun c => c != ';'))
  if text.isEmpty then .blank
  else
    let mnemonic := text.takeWhile (fun c => !isBlank c)
    let tail := trimBlanks (text.dropWhile (fun c => !isBlank c))
    let operands := if tail.isEmpty then [] else (splitCommas tail).map trimBlanks
    match parseCommand mnemonic operands with
    | none => .malformed
    | some i => if i.wellFormed then .command i else .malformed

/-- The command as the assembler writes it (R65). -/
def showInstr : Instr → String
  | .readBits n => "READBITS " ++ toString n
  | .align => "ALIGN"
  | .skipBytes k => "SKIPBYTES " ++ toString k
  | .position => "POSITION"
  | .findSync => "FINDSYNC"
  | .decHdr => "DECHDR"
  | .fLen => "FLEN"
  | .decL1 => "DECL1"
  | .requant code alloc scf => "REQUANT " ++ toString code ++ ", " ++ toString alloc ++ ", " ++ toString scf

end Sys2Proof.Machine
end

