-- ==== Sys2Proof/Tests/Slice0.lean ====
section
/-! SUPPORT. Tests: the smoke of WellFormed, words written out from the spec's encodings, single steps against the spec's own
worked examples and vectors (95_test_vectors.md, named with each), and for every statement with hypotheses a witness that
meets them. -/

namespace Sys2Proof.Machine

/-! ## Helpers -/

/-- Right after reset, on this source. -/
def start (bytes : List Byte) (errs : List Nat) : State := { State.reset with src := Source.ofBytes bytes errs }

/-- The cursor at stream bit `b`, everything else as after reset, on this source. -/
def startAt (b : Nat) (bytes : List Byte) (errs : List Nat) : State := atBit b (start bytes errs)

/-- `STATUS`, `REASON`, `RES`, `POS`, `CNT` after a command. -/
def seen : Result → List Nat
  | .next t => [t.status.toNat, t.reason.toNat, t.res.toNat, t.pos.toNat, t.cnt.toNat]
  | _ => []

/-- What a command leaves in one place, if it ends. -/
def holds (p : State → Bool) : Result → Bool
  | .next t => p t
  | _ => false

/-- The header of `FF 41 04` (V40), with another mode. -/
def layer1Header (m : Mode) : Header :=
  { version := .mpeg1, layer := .layer1, prot := false, bitrate := 128, freq := 44100, padded := false, mode := m,
    modeExt := 0, iStereo := decide (m = .jointStereo), msStereo := false, copyright := false, original := true,
    emphasis := .none }

/-- The header of `FB 90 64` (V42). -/
def layer3Header : Header :=
  { version := .mpeg1, layer := .layer3, prot := true, bitrate := 128, freq := 44100, padded := false,
    mode := .jointStereo, modeExt := 2, iStereo := false, msStereo := true, copyright := false, original := true,
    emphasis := .none }

/-- The header of `F5 C4 7B` (V45). -/
def layer2Header : Header :=
  { version := .mpeg2, layer := .layer2, prot := true, bitrate := 128, freq := 24000, padded := false,
    mode := .jointStereo, modeExt := 3, iStereo := true, msStereo := false, copyright := true, original := false,
    emphasis := .ccittJ17 }

/-- A state with a valid header. -/
def withHeader (h : Header) (s : State) : State := { s with hdrValid := true, hdr := h }

/-- The 31 bytes of program P3. -/
def p3 : List Byte :=
  [0xFF, 0xFF, 0x41, 0xC4, 0x31] ++ List.replicate 15 0 ++
    [0x04, 0x3F, 0xFA, 0xD7, 0x0B, 0xEA, 0x96, 0x07, 0xDA, 0x54, 0x00]

/-- The invariant of a state without valid Layer I data, as a computation. -/
def invCheck (s : State) : Bool :=
  s.src.wf && decide (s.cnt.toNat ≤ 7) && decide (s.pos.toNat ≤ s.src.len) &&
    decide (s.acc.toNat = (s.src.byteAt (s.pos.toNat - 1)).toNat % 2 ^ s.cnt.toNat) &&
    (s.cnt.toNat == 0 || (decide (1 ≤ s.pos.toNat) && decide (s.pos.toNat - 1 ∉ s.src.errs))) &&
    !s.errs.getLsbD 0 && (decide (s.ended = .ok) || s.errs.getLsbD (statusCode s.ended)) &&
    (!s.halted || decide (s.ended = .ioFail)) &&
    (!s.hdrValid || (decide (s.hdr.bitrate.toNat ∈ bitrateTab (versionClass s.hdr.version) s.hdr.layer) &&
      decide (s.hdr.freq.toNat ∈ freqTab s.hdr.version) &&
      (decide (s.hdr.mode = .jointStereo) || (!s.hdr.iStereo && !s.hdr.msStereo)))) &&
    !s.l1Valid

theorem inv_of_check {s : State} (h : invCheck s = true) : s.Inv := by
  simp only [invCheck, Bool.and_eq_true, Bool.or_eq_true, decide_eq_true_eq, Bool.not_eq_true', beq_iff_eq] at h
  obtain ⟨⟨⟨⟨⟨⟨⟨⟨⟨h1, h2⟩, h3⟩, h4⟩, h5⟩, h6⟩, h7⟩, h8⟩, h9⟩, h10⟩ := h
  refine ⟨h1, ⟨h2, h3⟩, ⟨h4, fun hc => ?_⟩, ⟨h6, fun hne => ?_, fun hh => ?_⟩, fun hv => ?_, fun hv => ?_⟩
  · rcases h5 with h5 | h5
    · omega
    · exact h5
  · exact h7.resolve_left hne
  · rcases h8 with h8 | h8
    · rw [hh] at h8; cases h8
    · exact h8
  · rcases h9 with h9 | ⟨⟨a, b⟩, c⟩
    · rw [hv] at h9; cases h9
    · exact ⟨a, b, fun hm => c.resolve_left hm⟩
  · rw [hv] at h10; cases h10

/-- `Readable`, as a computation. -/
def readableCheck (src : Source) (lo n : Nat) : Bool :=
  (List.range n).all fun j => decide (lo + j < src.len) && decide (lo + j ∉ src.errs)

theorem readable_of_check {src : Source} {lo hi n : Nat} (h : readableCheck src lo n = true) (hn : hi ≤ lo + n) :
    Readable src lo hi := by
  intro a h1 h2
  simp only [readableCheck, List.all_eq_true, List.mem_range, Bool.and_eq_true, decide_eq_true_eq] at h
  have := h (a - lo) (by omega)
  rwa [Nat.add_sub_cancel' h1] at this

/-! ## WellFormed: one ill-formed term for each check -/

theorem test_wellFormed_readBits : (Instr.readBits 127).wellFormed = true ∧ (Instr.readBits 128).wellFormed = false := by
  decide

theorem test_wellFormed_skipBytes_low : (Instr.skipBytes (-(2 ^ 55))).wellFormed = true ∧
    (Instr.skipBytes (-(2 ^ 55) - 1)).wellFormed = false := by decide

theorem test_wellFormed_skipBytes_high : (Instr.skipBytes (2 ^ 55 - 1)).wellFormed = true ∧
    (Instr.skipBytes (2 ^ 55)).wellFormed = false := by decide

theorem test_wellFormed_requant : (Instr.requant 65535 15 63).wellFormed = true ∧
    (Instr.requant 65536 15 63).wellFormed = false ∧ (Instr.requant 65535 16 63).wellFormed = false ∧
    (Instr.requant 65535 15 64).wellFormed = false := by decide

/-! ## Decoding: one written-out word per command (R62, the command words of 95_test_vectors.md) -/

theorem test_decode_readBits : decode 0x0100000000000040 = .ok (.readBits 64) := by decide
theorem test_decode_align : decode 0x0200000000000000 = .ok .align := by decide
theorem test_decode_skipBytes : decode 0x03FFFFFFFFFFFFFB = .ok (.skipBytes (-5)) := by decide
theorem test_decode_position : decode 0x0400000000000000 = .ok .position := by decide
theorem test_decode_findSync : decode 0x1000000000000000 = .ok .findSync := by decide
theorem test_decode_decHdr : decode 0x1100000000000000 = .ok .decHdr := by decide
theorem test_decode_fLen : decode 0x1200000000000000 = .ok .fLen := by decide
theorem test_decode_decL1 : decode 0x2000000000000000 = .ok .decL1 := by decide
theorem test_decode_requant : decode 0x210000000023000E = .ok (.requant 0xE 3 2) := by decide

/-- V100: the illegal words. -/
theorem test_decode_rejects : decode 0x0000000000000000 = .error .badOpcode ∧ decode 0x0500000000000000 = .error .badOpcode ∧
    decode 0x0200000000000001 = .error .badOperand ∧ decode 0x0100000000000080 = .error .badOperand ∧
    decode 0x2100000004000000 = .error .badOperand := by decide

theorem test_encode_words : encode (.readBits 3) = 0x0100000000000003 ∧ encode (.skipBytes (-1)) = 0x03FFFFFFFFFFFFFF ∧
    encode (.requant 0x7FFF 15 63) = 0x2100000003FF7FFF := by decide

theorem test_decodeTableWord : decodeTableWord 64 0x0100000000000003 = some (.readBits 3) ∧
    decodeTableWord 64 0x0500000000000000 = none := by decide

/-- The assembler lines of R65. -/
theorem test_assembler : parseLine "READBITS 3".toList = .command (.readBits 3) ∧
    parseLine "SKIPBYTES -3 ; back".toList = .command (.skipBytes (-3)) ∧
    parseLine "REQUANT 0xF, 3, 1".toList = .command (.requant 15 3 1) ∧ parseLine "READBITS 128".toList = .malformed := by
  decide +kernel

/-! ## Single steps -/

/-- V1, first row. -/
theorem test_readBits_first : seen (exec (.readBits 3) (start [0xA5, 0xC3] [])) = [0, 0, 5, 1, 5] := by decide

/-- V2, second row: 64 bits from bit 1 on. -/
theorem test_readBits_wide : seen (exec (.readBits 64) (startAt 1 [0x81, 2, 3, 4, 5, 6, 7, 8, 0xF1] [])) =
    [0, 0, 0x020406080A0C0E11, 9, 7] := by decide +kernel

/-- P1 row 2: `ALIGN` after 3 bits. -/
theorem test_align_drops : seen (exec .align (startAt 3 [0xA5, 0xC3] [])) = [0, 0, 0, 1, 0] := by decide

/-- V1 row 4. -/
theorem test_align_aligned : seen (exec .align (startAt 16 [0xA5, 0xC3] [])) = [0, 0, 1, 2, 0] := by decide

/-- V6 row 2: the buffered bits are dropped. -/
theorem test_skipBytes_drops : seen (exec (.skipBytes 2) (startAt 3 [1, 2, 3, 4, 5] [])) = [0, 0, 0, 3, 0] := by decide

/-- V6 row 7: before address 0. -/
theorem test_skipBytes_bad : seen (exec (.skipBytes (-1)) (start [1, 2, 3, 4, 5] [])) = [4, 5, 0, 0, 0] := by decide

/-- V7: a partly used byte counts. -/
theorem test_position_counts_fetched : seen (exec .position (startAt 1 [0xA5, 0xC3] [])) = [0, 0, 1, 1, 7] := by decide

/-- V30. -/
theorem test_findSync_match : seen (exec .findSync (start [0x12, 0x34, 0xFF, 0x00, 0xFF, 0xFB, 0x90, 0x64] [])) =
    [0, 0, 1, 5, 0] := by decide

/-- V31: a sync word at an odd offset is not seen. -/
theorem test_findSync_odd : seen (exec .findSync (start [0x12, 0x34, 0x56, 0xFF, 0xFB, 0x90, 0x64] [])) = [2, 0, 0, 7, 0] := by
  decide

/-- V45. -/
theorem test_decHdr_fields : holds (fun t => t.hdrValid && decide (t.hdr = layer2Header))
    (exec .decHdr (start [0xF5, 0xC4, 0x7B] [])) = true := by decide

/-- V61: the version is tested before the layer. -/
theorem test_decHdr_order : seen (exec .decHdr (start [0xE8, 0x41, 0x04] [])) = [3, 1, 0, 3, 0] := by decide

/-- V42's frame length. -/
theorem test_fLen_layer3 : seen (exec .fLen (withHeader layer3Header (start [] []))) = [0, 0, 417, 0, 0] := by decide

/-- V41: Layer I, padded. -/
theorem test_fLen_padded : seen (exec .fLen (withHeader { layer1Header .stereo with padded := true } (start [] []))) =
    [0, 0, 38, 0, 0] := by decide

/-- P3 step 5: the cursor and some of the samples. -/
theorem test_decL1_p3 : holds (fun t => t.l1Valid && decide (t.pos = 31 ∧ t.cnt = 4 ∧ t.alloc[0][1] = 1 ∧ t.scf[0][1] = 3 ∧
    t.samp[0][0][1] = 7 ∧ t.samp[0][0][8] = 3 ∧ t.samp[0][1][11] = 3 ∧ t.samp[1][0][1] = 0))
    (exec .decL1 (withHeader (layer1Header .singleChannel) (startAt 32 p3 []))) = true := by decide +kernel

/-- V74: one byte short, in the allocations. -/
theorem test_decL1_short : seen (exec .decL1 (withHeader (layer1Header .stereo) (startAt 32 ([0xFF, 0xFF, 0x41, 0x04] ++
    List.replicate 31 0) []))) = [1, 0, 0, 35, 0] := by decide +kernel

/-- V83. -/
theorem test_requant_rounds : seen (exec (.requant 0xE 3 2) (start [] [])) = [0, 0, 14, 0, 0] := by decide

/-- V90: the code does not fit. -/
theorem test_requant_refused : seen (exec (.requant 0x10 3 1) (start [] [])) = [4, 2, 0, 0, 0] := by decide

/-- V101: once halted, even an illegal word answers 5/0. -/
theorem test_halted : seen (step { start [1] [] with errs := 0b100000, inputs := [.command 0] }) = [5, 0, 0, 0, 0] := by decide

/-- V102: the address order decides between `ERR` and `END`. -/
theorem test_err_or_end : seen (exec (.readBits 24) (start [1, 2] [5])) = [1, 0, 0, 0, 0] ∧
    seen (exec (.readBits 24) (start [1, 2] [2])) = [5, 0, 0, 0, 0] := by decide

/-- S3, V120: synchsafe sizes. -/
theorem test_synchsafe : synchsafe 0x00000201 = 257 ∧ synchsafe 0x7F7F7F7F = 268435455 ∧ synchsafe 0x80808081 = 1 := by decide

/-- The very next step runs the word put in place. -/
theorem test_withFetchWord : seen (step (State.reset.withFetchWord 64 0x2100000003FFFFFF)) = [0, 0, 2064384, 0, 0] := by decide

/-! ## Witnesses: for every statement with hypotheses, a state and operands that meet them all -/

theorem witness_ResetAction : ({ start [1] [] with inputs := [.reset] } : State).inputs = .reset :: [] := rfl

theorem witness_StartRun : ({ start [1] [] with inputs := [.startRun (Source.ofBytes [2, 3] [1])] } : State).inputs =
      .startRun (Source.ofBytes [2, 3] [1]) :: [] ∧ (Source.ofBytes [2, 3] [1]).wf = true := ⟨rfl, by decide⟩

/-- `LEN = 2^63` is the first length that is no source's. -/
theorem witness_StartRun_refused : ({ cells := [], len := 2 ^ 63, errs := [] } : Source).wf = false ∧
    ({ cells := [], len := 2 ^ 63 - 1, errs := [] } : Source).wf = true := by decide

theorem witness_Idle : (start [1] []).inputs = [] := rfl

theorem witness_StepRuns : ({ start [1] [] with inputs := [.command 0x0100000000000003] } : State).inputs =
    .command 0x0100000000000003 :: [] ∧ decode 0x0100000000000003 = .ok (.readBits 3) := ⟨rfl, by decide⟩

/-- Every clause of the prologue: halted; an opcode that is none; a must-be-zero bit; a legal word. -/
theorem witness_Prologue : ({ start [1] [] with errs := 0b100000 } : State).halted = true ∧ (start [1] []).halted = false ∧
    (0x0500000000000000 : CmdWord).extractLsb' 56 8 ∉ ([0x01, 0x02, 0x03, 0x04, 0x10, 0x11, 0x12, 0x20, 0x21] : List Byte) ∧
    ((0x0100000000000080 : CmdWord).extractLsb' 56 8 = opByte .readBits ∧
      (0x0100000000000080 : CmdWord) &&& opMask .readBits ≠ opMatch .readBits) ∧
    ((0x010000000000007F : CmdWord).extractLsb' 56 8 = opByte .readBits ∧
      (0x010000000000007F : CmdWord) &&& opMask .readBits = opMatch .readBits) := by decide

theorem witness_Decoding : ∀ i ∈ [Instr.readBits 127, .align, .skipBytes (-(2 ^ 55)), .skipBytes (2 ^ 55 - 1), .position, .findSync,
    .decHdr, .fLen, .decL1, .requant 65535 15 63], i.wellFormed = true := by decide

theorem witness_LegalWord : decode 0x03FFFFFFFFFFFFFF = .ok (.skipBytes (-1)) := by decide

/-- `READBITS`, every clause: the widths 64 and 65 and 0 and 1; a readable stretch; a first byte that answers `ERR`, and one
that is past the end. -/
theorem witness_ReadBits : (start [1] []).halted = false ∧ (start [1] []).Inv ∧ (64 < 65 ∧ 1 ≤ 64) ∧
    (∃ s : State, s.halted = false ∧ Readable s.src s.pos.toNat (s.pos.toNat + (64 - s.cnt.toNat + 7) / 8)) ∧
    (∃ s : State, s.halted = false ∧ s.pos.toNat ≤ 1 ∧ 1 < s.pos.toNat + (16 - s.cnt.toNat + 7) / 8 ∧
      Readable s.src s.pos.toNat 1 ∧ 1 ∈ s.src.errs) ∧
    (∃ s : State, s.halted = false ∧ s.pos.toNat ≤ 1 ∧ 1 < s.pos.toNat + (16 - s.cnt.toNat + 7) / 8 ∧
      Readable s.src s.pos.toNat 1 ∧ 1 ∉ s.src.errs ∧ s.src.len ≤ 1) := by
  refine ⟨by decide, inv_of_check (by decide), by decide, ⟨startAt 1 [1, 2, 3, 4, 5, 6, 7, 8, 9] [], by decide, ?_⟩, ⟨start [1, 2] [1], by decide, by decide,
    by decide, ?_, by decide⟩, ⟨start [1] [5], by decide, by decide, by decide, ?_, by decide, by decide⟩⟩
  · exact readable_of_check (n := 8) (by decide) (by decide)
  · exact readable_of_check (n := 1) (by decide) (by decide)
  · exact readable_of_check (n := 1) (by decide) (by decide)

/-- Both sides of the equivalence: 13 bits left, 13 asked; and 14 asked. -/
theorem witness_ReadBitsEos : (startAt 3 [0xA5, 0xC3] []).Inv ∧ (startAt 3 [0xA5, 0xC3] []).halted = false ∧
    (startAt 3 [0xA5, 0xC3] []).src.errs = [] ∧ ¬ 8 * 2 < (startAt 3 [0xA5, 0xC3] []).bp + 13 ∧
    8 * 2 < (startAt 3 [0xA5, 0xC3] []).bp + 14 :=
  ⟨inv_of_check (by decide), by decide, by decide, by decide, by decide⟩

theorem witness_TwoReads : (start [0xA5, 0xC3] []).Inv ∧ (start [0xA5, 0xC3] []).halted = false ∧
    ∃ t u, exec (.readBits 3) (start [0xA5, 0xC3] []) = .next t ∧ t.ended = .ok ∧ exec (.readBits 7) t = .next u ∧ u.ended = .ok :=
  ⟨inv_of_check (by decide), by decide, _, _, rfl, by decide, rfl, by decide⟩

theorem witness_ExactSource : (Source.ofBytes [0x80] []).wf = true ∧ (Source.ofBytes [0x80] []).errs = [] ∧
    (Source.ofBytes [0x80] []).len = (1 + 7) / 8 ∧ (Source.ofBytes [1, 2, 3, 4, 5, 6, 7, 8] []).wf = true ∧
    (Source.ofBytes [1, 2, 3, 4, 5, 6, 7, 8] []).len = (64 + 7) / 8 := by decide

theorem witness_Align : (startAt 1 [0xA5] []).halted = false ∧ (startAt 1 [0xA5] []).Inv ∧ (startAt 1 [0xA5] []).cnt = 7 ∧
    (startAt 8 [0xA5] []).Inv ∧ (startAt 8 [0xA5] []).cnt = 0 :=
  ⟨by decide, inv_of_check (by decide), by decide, inv_of_check (by decide), by decide⟩

/-- `SKIPBYTES` from position 1 of 2: to -1, 0, 2 and 3. -/
theorem witness_SkipBytes : (startAt 8 [1, 2] []).halted = false ∧ ((startAt 8 [1, 2] []).pos.toNat : Int) + -2 < 0 ∧
    0 ≤ ((startAt 8 [1, 2] []).pos.toNat : Int) + -1 ∧
    ((startAt 8 [1, 2] []).pos.toNat : Int) + 1 ≤ (startAt 8 [1, 2] []).src.len ∧
    ((startAt 8 [1, 2] []).src.len : Int) < (startAt 8 [1, 2] []).pos.toNat + 2 := by decide

theorem witness_TwoSkips : (startAt 3 [1, 2, 3] []).Inv ∧ (startAt 3 [1, 2, 3] []).halted = false ∧
    ∃ t u, exec (.skipBytes 2) (startAt 3 [1, 2, 3] []) = .next t ∧ t.ended = .ok ∧ exec (.skipBytes (-3)) t = .next u ∧
      u.ended = .ok :=
  ⟨inv_of_check (by decide), by decide, _, _, rfl, by decide, rfl, by decide⟩

theorem witness_Position : (start [1] []).halted = false := by decide

/-- V30 as a match at pair 2. -/
theorem witness_FindSyncMatch : ∃ s : State, s.Inv ∧ s.halted = false ∧ s.cnt = 0 ∧
    Readable s.src s.pos.toNat (s.pos.toNat + 2 * 2 + 2) ∧
    (∀ j, j < 2 → syncMatch standard (s.src.byteAt (s.pos.toNat + 2 * j)) (s.src.byteAt (s.pos.toNat + 2 * j + 1)) = false) ∧
    syncMatch standard (s.src.byteAt (s.pos.toNat + 2 * 2)) (s.src.byteAt (s.pos.toNat + 2 * 2 + 1)) = true :=
  ⟨start [0x12, 0x34, 0xFF, 0x00, 0xFF, 0xFB, 0x90, 0x64] [], inv_of_check (by decide), by decide, by decide,
    readable_of_check (n := 6) (by decide) (by decide), by decide, by decide⟩

/-- V31, odd length; and the empty source. -/
theorem witness_FindSyncEnd : ∀ s ∈ [start [0x12, 0x34, 0x56, 0xFF, 0xFB, 0x90, 0x64] [], start [] []], s.Inv ∧ s.halted = false ∧
    s.cnt = 0 ∧ (∀ a, s.pos.toNat ≤ a → a ≤ s.src.len → a ∉ s.src.errs) ∧
    (∀ j, s.pos.toNat + 2 * j + 1 < s.src.len →
      syncMatch standard (s.src.byteAt (s.pos.toNat + 2 * j)) (s.src.byteAt (s.pos.toNat + 2 * j + 1)) = false) := by
  intro s hs
  rcases List.mem_cons.1 hs with rfl | hs
  · refine ⟨inv_of_check (by decide), by decide, by decide, fun a _ _ => by simp [start, Source.ofBytes], fun j hj => ?_⟩
    have hj : 0 + 2 * j + 1 < 7 := hj
    have : ∀ j < 3, syncMatch standard ((start [0x12, 0x34, 0x56, 0xFF, 0xFB, 0x90, 0x64] []).src.byteAt (0 + 2 * j))
        ((start [0x12, 0x34, 0x56, 0xFF, 0xFB, 0x90, 0x64] []).src.byteAt (0 + 2 * j + 1)) = false := by decide
    exact this j (by omega)
  · obtain rfl := List.mem_singleton.1 hs
    refine ⟨inv_of_check (by decide), by decide, by decide, fun a _ _ => by simp [start, Source.ofBytes], fun j hj => ?_⟩
    have hj : 0 + 2 * j + 1 < 0 := hj
    omega

/-- V38: the error on byte B; and an error at address `LEN`. -/
theorem witness_FindSyncError : ∃ s : State, s.Inv ∧ s.halted = false ∧ s.cnt = 0 ∧ s.pos.toNat ≤ 3 ∧ 3 ≤ s.src.len ∧
    3 ∈ s.src.errs ∧ Readable s.src s.pos.toNat 3 ∧
    (∀ j, s.pos.toNat + 2 * j + 1 < 3 →
      syncMatch standard (s.src.byteAt (s.pos.toNat + 2 * j)) (s.src.byteAt (s.pos.toNat + 2 * j + 1)) = false) := by
  refine ⟨start [0x00, 0x00, 0xFF, 0xFB] [3], inv_of_check (by decide), by decide, by decide, by decide, by decide, by decide,
    readable_of_check (n := 3) (by decide) (by decide), fun j hj => ?_⟩
  have hj : 0 + 2 * j + 1 < 3 := hj
  obtain rfl : j = 0 := by omega
  decide

theorem witness_Unaligned : (startAt 1 [0xFF, 0xFB] []).halted = false ∧ (startAt 1 [0xFF, 0xFB] []).cnt.toNat % 8 ≠ 0 := by decide

/-- V40: a legal header. -/
theorem witness_DecHdr : (start [0xFF, 0x41, 0x04] []).halted = false ∧ (start [0xFF, 0x41, 0x04] []).cnt = 0 ∧
    Readable (start [0xFF, 0x41, 0x04] []).src 0 (0 + 3) ∧
    versionDec ((0xFF : Byte).extractLsb' 3 2) = some .mpeg1 ∧ layerDec ((0xFF : Byte).extractLsb' 1 2) = some .layer1 ∧
    (bitrateTab (versionClass .mpeg1) .layer1)[((0x41 : Byte).extractLsb' 4 4).toNat]? = some 128 ∧
    (freqTab .mpeg1)[((0x41 : Byte).extractLsb' 2 2).toNat]? = some 44100 ∧
    emphDec ((0x04 : Byte).extractLsb' 0 2) = some .none :=
  ⟨by decide, by decide, readable_of_check (n := 3) (by decide) (by decide), by decide, by decide, by decide, by decide, by decide⟩

/-- V54 to V58: each reason alone. -/
theorem witness_DecHdrReserved : versionDec ((0xE9 : Byte).extractLsb' 3 2) = none ∧
    layerDec ((0xF9 : Byte).extractLsb' 1 2) = none ∧ versionDec ((0xF9 : Byte).extractLsb' 3 2) ≠ none ∧
    (0xF1 : Byte).extractLsb' 4 4 = 15 ∧ (0x4D : Byte).extractLsb' 2 2 = 3 ∧ (0x4D : Byte).extractLsb' 4 4 ≠ 15 ∧
    (0x06 : Byte).extractLsb' 0 2 = 2 ∧ (0x41 : Byte).extractLsb' 2 2 ≠ 3 ∧ (start [0xFF, 0x41, 0x06] []).halted = false ∧
    (start [0xFF, 0x41, 0x06] []).cnt = 0 ∧ readableCheck (start [0xFF, 0x41, 0x06] []).src 0 3 = true := by decide

/-- V67: one byte left; and an `ERR` on the third byte. -/
theorem witness_DecHdrCannotRead :
    (∃ s : State, s.halted = false ∧ s.cnt = 0 ∧ s.pos.toNat ≤ 4 ∧ 4 < s.pos.toNat + 3 ∧ Readable s.src s.pos.toNat 4 ∧
      4 ∉ s.src.errs ∧ s.src.len ≤ 4) ∧
    (∃ s : State, s.halted = false ∧ s.cnt = 0 ∧ s.pos.toNat ≤ 2 ∧ 2 < s.pos.toNat + 3 ∧ Readable s.src s.pos.toNat 2 ∧
      2 ∈ s.src.errs) :=
  ⟨⟨startAt 24 [0x00, 0x00, 0xFF, 0xFB] [], by decide, by decide, by decide, by decide,
      readable_of_check (n := 1) (by decide) (by decide), by decide, by decide⟩,
    ⟨start [1, 2, 3] [2], by decide, by decide, by decide, by decide, readable_of_check (n := 2) (by decide) (by decide),
      by decide⟩⟩

theorem witness_FLen : (withHeader layer3Header (start [] [])).halted = false ∧
    (withHeader layer3Header (start [] [])).hdrValid = true ∧ (start [] []).hdrValid = false := by decide

theorem witness_FrameLength : (withHeader layer3Header (start [] [])).Inv ∧ (withHeader layer3Header (start [] [])).halted = false ∧
    (withHeader layer3Header (start [] [])).hdrValid = true := ⟨inv_of_check (by decide), by decide, by decide⟩

/-- P3's `DECL1`. -/
theorem witness_DecL1 : ∃ s : State, s.Inv ∧ s.halted = false ∧ s.hdrValid = true ∧ s.hdr.layer = .layer1 ∧
    Readable s.src s.pos.toNat ((frameEnd s.src s.hdr s.bp + 7) / 8) :=
  ⟨withHeader (layer1Header .singleChannel) (startAt 32 p3 []), inv_of_check (by decide +kernel), by decide, by decide, by decide,
    readable_of_check (n := 27) (by decide +kernel) (by decide +kernel)⟩

/-- V75: P3 one byte short; and with an `ERR` at its last byte. -/
theorem witness_DecL1CutShort : ∀ s ∈ [withHeader (layer1Header .singleChannel) (startAt 32 (p3.take 30) []),
      withHeader (layer1Header .singleChannel) (startAt 32 p3 [30])], s.Inv ∧ s.halted = false ∧ s.hdrValid = true ∧
    s.hdr.layer = .layer1 ∧ s.pos.toNat ≤ 30 ∧ 30 < (frameEnd s.src s.hdr s.bp + 7) / 8 ∧ Readable s.src s.pos.toNat 30 ∧
    ¬ (30 < s.src.len ∧ 30 ∉ s.src.errs) := by
  intro s hs
  rcases List.mem_cons.1 hs with rfl | hs
  · exact ⟨inv_of_check (by decide +kernel), by decide, by decide, by decide, by decide +kernel, by decide +kernel,
      readable_of_check (n := 26) (by decide +kernel) (by decide +kernel), by decide +kernel⟩
  · obtain rfl := List.mem_singleton.1 hs
    exact ⟨inv_of_check (by decide +kernel), by decide, by decide, by decide, by decide +kernel, by decide +kernel,
      readable_of_check (n := 26) (by decide +kernel) (by decide +kernel), by decide +kernel⟩

/-- No header at all; and a Layer III one. -/
theorem witness_DecL1NoHeader : ∀ s ∈ [start [1] [], withHeader layer3Header (start [1] [])], s.halted = false ∧
    (s.hdrValid = true → s.hdr.layer ≠ .layer1) := by decide

/-- `REQUANT`: allocation 0; the first code that does not fit; the last that fits. -/
theorem witness_Requant : (start [] []).halted = false ∧ (0 = 0 ∨ 2 ^ (0 + 1) ≤ 0) ∧ (3 = 0 ∨ 2 ^ (3 + 1) ≤ 0x10) ∧
    (1 ≤ 1 ∧ 3 < 2 ^ (1 + 1)) ∧ (1 ≤ 15 ∧ 65535 < 2 ^ (15 + 1)) := by decide

theorem witness_Rounds : ∀ x ∈ [(0, 1, 0), (3, 1, 63), (0xF, 3, 1), (65535, 15, 63)],
    1 ≤ x.2.1 ∧ x.2.1 ≤ 15 ∧ x.1 < 2 ^ (x.2.1 + 1) ∧ x.2.2 ≤ 63 := by decide

theorem witness_Halted : ({ start [1] [] with errs := 0b100000, inputs := [.command 0] } : State).halted = true ∧
    (∃ t, exec (.readBits 8) (start [1] [0]) = .next t ∧ t.halted = true ∧ t.ended = .ioFail) ∧
    ∃ t, step { start [1] [] with errs := 0b100000, inputs := [.reset] } = .next t :=
  ⟨by decide, ⟨_, rfl, by decide, by decide⟩, _, rfl⟩

/-- Each command that reads, on a state of the block: `READBITS` and `DECHDR` stopped by the last byte of their field,
`FINDSYNC` by the byte at `LEN` of an empty source, `DECL1` in the middle of P3. -/
theorem witness_IoFailure : ∀ x ∈ [(Instr.readBits 16, startAt 4 [0xA5, 0, 0] [2]), (.decHdr, start [1, 2, 3] [2]),
      (.findSync, start [] [0]), (.decL1, withHeader (layer1Header .singleChannel) (startAt 32 p3 [30]))],
    x.2.Inv ∧ x.2.halted = false ∧ holds (fun t => t.ended = .ioFail) (exec x.1 x.2) = true := by
  intro x hx
  fin_cases hx
  · exact ⟨inv_of_check (by decide), by decide, by decide⟩
  · exact ⟨inv_of_check (by decide), by decide, by decide⟩
  · exact ⟨inv_of_check (by decide), by decide, by decide⟩
  · exact ⟨inv_of_check (by decide +kernel), by decide, by decide +kernel⟩

theorem witness_Errs : ∃ t, step { start [1] [] with inputs := [.command 0x0500000000000000] } = .next t ∧ t.errs = 0b010000 ∧
    (start [1] []).errs.getLsbD 0 = false := ⟨_, rfl, by decide, by decide⟩

theorem witness_Contract : ({ start [1] [] with inputs := [.command 0x0100000000000041] } : State).Inv ∧
    ∃ t, step { start [1] [] with inputs := [.command 0x0100000000000041] } = .next t ∧ t.ended = .contract .badOperand :=
  ⟨inv_of_check (by decide), _, rfl, by decide⟩

theorem witness_NoCommandWrites : ∃ t, exec .align (start [1] []) = .next t := ⟨_, rfl⟩

/-- `RES` changes under `ALIGN`, and under a `FINDSYNC` that ends `NOSYNC`. -/
theorem witness_Result : (∃ t, exec .align (start [1] []) = .next t ∧ t.res ≠ (start [1] []).res) ∧
    ∃ t, exec .findSync { start [] [] with res := 5 } = .next t ∧ t.res ≠ 5 ∧ t.ended = .noSync :=
  ⟨⟨_, rfl, by decide⟩, _, rfl, by decide, by decide⟩

theorem witness_OnlyTheDecoders : ∃ t, exec .fLen (withHeader layer3Header (start [] [])) = .next t ∧ Instr.fLen ≠ .decHdr ∧
    Instr.fLen ≠ .decL1 := ⟨_, rfl, by decide, by decide⟩

theorem witness_OnlySkips : (startAt 16 [1, 2] []).Inv ∧ ∃ t, exec (.skipBytes (-1)) (startAt 16 [1, 2] []) = .next t ∧
    t.pos.toNat < (startAt 16 [1, 2] []).pos.toNat ∧ t.bp < (startAt 16 [1, 2] []).bp :=
  ⟨inv_of_check (by decide), _, rfl, by decide, by decide⟩

/-- Two states that are the same for the host and not equal. -/
theorem witness_SameForHost : SameForHost (start [1] []) { start [1] [] with acc := 1, hdr := layer3Header, draws := 7 } ∧
    start [1] [] ≠ { start [1] [] with acc := 1, hdr := layer3Header, draws := 7 } :=
  ⟨⟨rfl, rfl, rfl, rfl, rfl, rfl, fun h => absurd h (by decide), rfl, fun h => absurd h (by decide), rfl, rfl⟩,
    fun h => absurd (congrArg State.draws h) (by decide)⟩

/-- Without a valid header, and with one. -/
theorem witness_HostReads : (start [1] []).hdrValid = false ∧ (withHeader layer3Header (start [1] [])).hdrValid = true := by
  decide

theorem witness_StepKeepsInv : ({ startAt 3 [0xA5, 0xC3] [] with inputs := [.command 0x0100000000000007] } : State).Inv ∧
    ∃ t, step { startAt 3 [0xA5, 0xC3] [] with inputs := [.command 0x0100000000000007] } = .next t :=
  ⟨inv_of_check (by decide), _, rfl⟩

/-- The invariant has states with valid Layer I data. -/
theorem witness_Inv_layer1 : ({ withHeader (layer1Header .singleChannel) (start [1] []) with l1Valid := true } : State).Inv := by
  have h : (withHeader (layer1Header .singleChannel) (start [1] [])).Inv := inv_of_check (by decide)
  refine ⟨h.source, h.cursor, h.buffer, h.status, h.header, fun _ => ⟨rfl, rfl, fun _ => by decide, by decide, by decide⟩⟩

/-- A tag, and no tag. -/
theorem witness_HasId3 : ∀ s ∈ [start [0x49, 0x44, 0x33, 4] [], start [0x49, 0x44, 0x34] []], s.Inv ∧ s.halted = false ∧ s.cnt = 0 ∧
    Readable s.src s.pos.toNat (s.pos.toNat + 3) := by
  intro s hs
  rcases List.mem_cons.1 hs with rfl | hs
  · exact ⟨inv_of_check (by decide), by decide, by decide, readable_of_check (n := 3) (by decide) (by decide)⟩
  · obtain rfl := List.mem_singleton.1 hs
    exact ⟨inv_of_check (by decide), by decide, by decide, readable_of_check (n := 3) (by decide) (by decide)⟩

/-- V123: a tag that ends exactly at the end. -/
theorem witness_SkipId3 : ∃ s : State, s.Inv ∧ s.halted = false ∧ s.cnt = 0 ∧
    Readable s.src (s.pos.toNat + 2) (s.pos.toNat + 7) ∧
    s.pos.toNat + 7 + (synchsafe (s.src.byteAt (s.pos.toNat + 3) ++ s.src.byteAt (s.pos.toNat + 4) ++
      s.src.byteAt (s.pos.toNat + 5) ++ s.src.byteAt (s.pos.toNat + 6)) +
      (if (s.src.byteAt (s.pos.toNat + 2)).getLsbD 4 then 10 else 0)) = s.src.len :=
  ⟨startAt 24 [0x49, 0x44, 0x33, 3, 0, 0, 0, 0, 0, 2, 0x11, 0x22] [], inv_of_check (by decide), by decide, by decide,
    readable_of_check (n := 5) (by decide) (by decide), by decide⟩

/-! ## The parameters (R5) -/

/-- A block that fetches one byte more than suffices, with narrower registers and 48-bit command words. -/
def otherBlock : Config :=
  { standard with xlenAcc := 32, xlenPos := 48, cmdLen := 48, sampW := 24,
                  refill := fun n cnt => if n ≤ cnt then 0 else refillBytes n cnt + 1 }

theorem otherBlock_legal : LegalConfig otherBlock := by
  refine ⟨by decide, by decide, by decide, by decide, fun n cnt _ => ?_⟩
  have e : otherBlock.refill n cnt = if n ≤ cnt then 0 else (n - cnt + 7) / 8 + 1 := rfl
  unfold refillBytes
  rw [e]
  by_cases h : n ≤ cnt
  · rw [if_pos h]; omega
  · rw [if_neg h]; omega

/-- Fields of 3 bits, of all 48 bits of `RES`, and of 64. -/
theorem witness_AnyRefill : ∀ n ∈ [3, 48, 64], LegalConfig otherBlock ∧ (start p3 []).halted = false ∧ 1 ≤ n ∧ n ≤ 64 ∧
    (start p3 []).cnt.toNat ≤ 8 * (start p3 []).pos.toNat ∧
    (start p3 []).pos.toNat + otherBlock.refill n (start p3 []).cnt.toNat < 2 ^ otherBlock.xlenPos ∧
    Readable (start p3 []).src (start p3 []).pos.toNat
      ((start p3 []).pos.toNat + otherBlock.refill n (start p3 []).cnt.toNat) := by
  intro n hn
  fin_cases hn <;> exact ⟨otherBlock_legal, by decide, by decide, by decide, by decide, by decide,
    readable_of_check (n := 9) (by decide) (by decide)⟩

/-- `101 00101 1100 0011`: 3 bits of two bytes fetched leave 13 in the buffer, `0x05C3` (R7, R12). -/
theorem test_otherRefill : seen (execWith otherBlock (.readBits 3) (start [0xA5, 0xC3] [])) = [0, 0, 5, 2, 13] ∧
    holds (fun t => t.acc == 0x05C3) (execWith otherBlock (.readBits 3) (start [0xA5, 0xC3] [])) = true := by decide

/-- 48-bit words: `op` in bits 47:40, `imm` in bits 39:0. -/
theorem test_otherCommandWords : decode (widenWord otherBlock 0x010000000003) = .ok (.readBits 3) ∧
    decode (widenWord otherBlock 0x03FFFFFFFFFD) = .ok (.skipBytes (-3)) := by decide

/-- `DECODE` on an empty source (R185): no Frame, and the identifier it was given. -/
theorem test_track : (match decodeTrack "a.mp3" (start [] []) with
    | .next (track, _) => decide (track = { source := "a.mp3", frames := [] })
    | _ => false) = true := by decide +kernel

end Sys2Proof.Machine
end

section
/-! PROOFS. The scope (00_scope.md): the step around a command, the block at its defaults, and what a legal `REFILL` may
not change. -/

namespace Sys2Proof.Machine

/-! ## The step -/

/-- A step with a command word first in the host's list runs that word, the list advanced (R9). -/
theorem step_of_command {s : State} {w : CmdWord} {rest : List HostAction} (h : s.inputs = .command w :: rest) :
    step s = runWord w { s with inputs := rest } := by
  rw [step, takeAction, h]

/-- A legal word is run as the instruction it decodes to (R205). -/
theorem runWord_of_decode_ok {w : CmdWord} {i : Instr} (h : decode w = .ok i) (s : State) : runWord w s = exec i s := by
  rw [runWord, h]

/-- Settles O5: with the word first in the host's list, the step is that word's run, and a legal word's run is `exec`. -/
theorem stepRunsTheDecodedInstruction : Obligations.StepRunsTheDecodedInstruction := by
  intro s w rest i hin hdec
  rw [step_of_command hin, runWord_of_decode_ok hdec]

/-! ## The block at its defaults (R5) -/

/-- Settles O50: `standard` is legal, and `exec` and `step` are the block it describes, by the laws of the parameters. -/
theorem theMachineIsTheBlockAtTheDefaults : Obligations.TheMachineIsTheBlockAtTheDefaults :=
  ⟨rfl, rfl, rfl, rfl, fun _ _ => rfl, standard_legal, fun i s => (execWith_standard i s).symm,
    fun s => (stepWith_standard s).symm⟩

/-! ## Any legal refill (R80, D7) -/

/-- `POS` and `RES` keep the low `XLEN_POS` bits of what is written to them. -/
theorem posWord_toNat {c : Config} (hc : LegalConfig c) (v : Nat) : (posWord c v).toNat = v % 2 ^ c.xlenPos := by
  have hw : 2 ^ c.xlenPos ≤ 2 ^ 64 := Nat.pow_le_pow_right (by omega) hc.pos.2
  rw [posWord, BitVec.toNat_ofNat, Nat.mod_eq_of_lt ((Nat.mod_lt v (Nat.two_pow_pos _)).trans_le hw)]

/-- A field of at most `XLEN_POS` bits is whole in its low `XLEN_POS` bits. -/
theorem streamValue_mod_of_le {src : Source} {i n k : Nat} (h : n ≤ k) :
    streamValue src i n % 2 ^ k = streamValue src i n := by
  rw [← field_eq_streamValue]
  exact Nat.mod_eq_of_lt ((field_lt src i n).trans_le (Nat.pow_le_pow_right (by omega) h))

/-- A `READBITS` whose field can be read writes the field to `RES` and ends `OK` (R81). -/
theorem readBitsRule_of_readField_ok {c : Config} {n v : Nat} {s s' : State} (h1 : 1 ≤ n) (h64 : n ≤ 64)
    (h : readField c n s = .ok (v, s')) : readBitsRule c n s = endOk { s' with res := posWord c v } := by
  rcases readBitsRule_cases c n s with ⟨hn, -⟩ | ⟨hn, -⟩ | ⟨-, -, v', t, hok, hrule⟩ | ⟨-, -, x, herr, -⟩
  · omega
  · omega
  · obtain ⟨rfl, rfl⟩ : v = v' ∧ s' = t := by simpa [h] using hok
    exact hrule
  · simp [h] at herr

/-- Settles O51: a legal refill reads the stream bits at `BP` and moves the cursor by `n` (`readField_legal`), and
`READBITS` writes what `RES` has room for. -/
theorem anyRefillReadsTheSameField : Obligations.AnyRefillReadsTheSameField := by
  intro c n s hc hrun h1 h64 h0 hp hr
  obtain ⟨u, hread, hbp, hmoved⟩ := readField_legal hc h64 hr h0 hp
  have hexec : execWith c (.readBits n) s = .next (endOk { u with res := posWord c (streamValue s.src s.bp n) }) := by
    rw [execWith, prologue_running hrun, ruleOf, readBitsRule_of_readField_ok h1 h64 hread]
  have hres := posWord_toNat hc (streamValue s.src s.bp n)
  exact ⟨_, hexec, rfl, fun hn => hres.trans (streamValue_mod_of_le hn), hres, hbp, hmoved.src⟩

end Sys2Proof.Machine
end

section
/-! PROOFS. The state of the block (10_state.md): what a host read gives, what a reset leaves, which registers a command
writes, the invariant, and that what the host cannot read influences nothing it can. -/

namespace Sys2Proof.Machine

/-! ## Host reads (R31) -/

/-- The 13 header fields as registers (R20). -/
def headerFields : List HostReg :=
  [.hdrVersion, .hdrLayer, .hdrProt, .hdrBitrate, .hdrFreq, .hdrPadded, .hdrMode, .hdrModeExt, .hdrIStereo,
    .hdrMsStereo, .hdrCopyright, .hdrOriginal, .hdrEmphasis]

/-- While `HDR.VALID` is 0 no header field has a definite value (R20, R30). -/
theorem hostRead_headerField {s : State} (h : s.hdrValid = false) :
    ∀ r ∈ headerFields, hostRead r s = .unspecified := by
  simp [headerFields, hostRead, guarded, h]

/-- While `L1VALID` is 0 no array entry has a definite value (R27, R30). -/
theorem hostRead_arrayEntry {s : State} (h : s.l1Valid = false) (ch : Fin 2) (sb : Fin 32) (t : Fin 12) :
    hostRead (.alloc ch sb) s = .unspecified ∧ hostRead (.scf ch sb) s = .unspecified ∧
      hostRead (.samp ch sb t) s = .unspecified := by
  simp [hostRead, guarded, h]

/-- `STATUS` has room for every status code (R18). -/
theorem status_toNat (s : State) : s.status.toNat = statusCode s.ended := by
  unfold State.status; cases s.ended <;> rfl

/-- `REASON` has room for every sub-code (R19). -/
theorem reason_toNat (s : State) : s.reason.toNat = reasonCode s.ended := by
  unfold State.reason
  cases s.ended with
  | invHdr r => cases r <;> rfl
  | contract c => cases c <;> rfl
  | ok => rfl
  | eos => rfl
  | noSync => rfl
  | ioFail => rfl

/-- Settles O44: the always-readable registers by definition, the codes by `status_toNat` and `reason_toNat`, the
guarded registers by their flags. -/
theorem hostReadsFollowTheValidFlags : Obligations.HostReadsFollowTheValidFlags := by
  intro s
  refine ⟨rfl, rfl, rfl, rfl, rfl, rfl, ?status, ?reason, rfl, rfl, rfl, hostRead_headerField, ?valid,
    fun _ _ _ => ⟨rfl, rfl, rfl⟩⟩
  case status =>
    rw [hostRead, status_toNat]
    cases s.ended <;> rfl
  case reason =>
    rw [hostRead, reason_toNat]
    cases s.ended with
    | invHdr r => cases r <;> rfl
    | contract c => cases c <;> rfl
    | ok => rfl
    | eos => rfl
    | noSync => rfl
    | ioFail => rfl
  case valid =>
    intro h
    have read : ∀ v, guarded s.hdrValid v = .bits v := fun v => by rw [h]; rfl
    simp only [hostRead, read, true_and]
    refine ⟨?_, ?_, ?_, ?_⟩
    · cases s.hdr.version <;> rfl
    · cases s.hdr.layer <;> rfl
    · cases s.hdr.mode <;> rfl
    · cases s.hdr.emphasis <;> rfl

/-! ## Reset (R30, R230) -/

theorem afterReset_applyReset (s : State) : AfterReset (applyReset s) :=
  ⟨rfl, rfl, rfl, rfl, rfl, rfl, rfl, rfl, rfl, hostRead_headerField rfl, hostRead_arrayEntry rfl⟩

/-- A reset has nothing buffered, an empty status and no valid data, so its invariant is the source's alone. -/
theorem inv_applyReset {s : State} (h : s.src.wf = true) : (applyReset s).Inv where
  source := h
  cursor := ⟨Nat.zero_le _, Nat.zero_le _⟩
  buffer := ⟨(Nat.mod_one _).symm, fun h0 => absurd h0 (Nat.lt_irrefl 0)⟩
  status := ⟨show (0 : BitVec 6).getLsbD 0 = false by decide, fun h0 => absurd rfl h0,
    fun h0 => absurd h0 (show (0 : BitVec 6).getLsbD 5 ≠ true by decide)⟩
  header := fun h0 => absurd h0 Bool.false_ne_true
  layer1 := fun h0 => absurd h0 Bool.false_ne_true

/-- Settles O1: the reset state is what a reset makes of it, and its source is canonical. -/
theorem resetMeetsTheInvariant : Obligations.ResetMeetsTheInvariant := inv_applyReset (s := State.reset) wf_reset.1

/-- Settles O2: the reset state and every reset action's state are an `applyReset`. -/
theorem resetLeavesTheSpecifiedRegisters : Obligations.ResetLeavesTheSpecifiedRegisters := by
  refine ⟨afterReset_applyReset State.reset, fun s rest hin => ?_⟩
  have hstep : step s = .next (applyReset { s with inputs := rest }) := by rw [step, takeAction, hin]
  exact ⟨_, hstep, afterReset_applyReset _, rfl, rfl⟩

/-! ## What a step and a command word can do -/

theorem prologue_cases {s t : State} {rule : State → State} (h : prologue s rule = .next t) :
    (s.halted = true ∧ t = endHalted s) ∨ (s.halted = false ∧ t = rule s) := by
  cases hh : s.halted with
  | true => rw [prologue_halted hh] at h; cases h; exact .inl ⟨rfl, rfl⟩
  | false => rw [prologue_running hh] at h; cases h; exact .inr ⟨rfl, rfl⟩

/-- What a command word does (R205): the halted answer, a rejected word's contract violation, or the command's rule. -/
theorem runWord_cases {w : CmdWord} {s t : State} (h : runWord w s = .next t) :
    (s.halted = true ∧ t = endHalted s) ∨
    (s.halted = false ∧ ∃ r, t = raise (rejectExn r) s) ∨
    (s.halted = false ∧ ∃ i, t = ruleOf standard i s) := by
  unfold runWord at h
  split at h
  next r _ =>
    rcases prologue_cases h with halt | ⟨hrun, ht⟩
    · exact .inl halt
    · exact .inr (.inl ⟨hrun, r, ht⟩)
  next i _ =>
    rcases exec_cases h with halt | ⟨hrun, ht⟩
    · exact .inl halt
    · exact .inr (.inr ⟨hrun, i, ht⟩)

/-- A command word on a running block ends by writing the status registers, which nothing wrote before (R201). -/
theorem runWord_ends {w : CmdWord} {s t : State} (h : runWord w s = .next t) :
    (s.halted = true ∧ t = endHalted s) ∨ (s.halted = false ∧ ∃ u c, t = finish c u ∧ u.errs = s.errs) := by
  rcases runWord_cases h with halt | ⟨hrun, r, rfl⟩ | ⟨hrun, i, rfl⟩
  · exact .inl halt
  · exact .inr ⟨hrun, s, _, rfl, rfl⟩
  · obtain ⟨u, c, e, hend⟩ := ruleOf_ends i s
    exact .inr ⟨hrun, u, c, e, hend.errs⟩

/-- What a step does with the host's next action (R9, R213, R230, R231). -/
theorem step_cases {s t : State} (h : step s = .next t) :
    t = s ∨
    (∃ rest, t = applyReset { s with inputs := rest }) ∨
    (∃ src rest, src.wf = true ∧ t = applyReset { s with inputs := rest, src := src }) ∨
    (∃ w rest, runWord w { s with inputs := rest } = .next t) := by
  unfold step takeAction at h
  split at h
  next => cases h; exact .inl rfl
  next w rest _ => exact .inr (.inr (.inr ⟨w, rest, h⟩))
  next rest _ => cases h; exact .inr (.inl ⟨rest, rfl⟩)
  next src rest _ =>
    unfold startRun at h
    split at h
    next hwf => cases h; exact .inr (.inr (.inl ⟨src, rest, hwf, rfl⟩))
    next => cases h

/-! ## The status registers (R23) -/

theorem statusCode_eq_zero_iff {c : Completion} : statusCode c = 0 ↔ c = .ok := by
  cases c <;> simp [statusCode]

/-- Settles O37: a running block sets the bit of the status (`errsAfter_getLsbD`), and a halted one has it set
already. -/
theorem errsIsSticky : Obligations.ErrsIsSticky := by
  intro s t w rest hin h
  rw [step_of_command hin] at h
  have bits : ∀ c : Nat,
      t.errs.getLsbD c = (s.errs.getLsbD c || decide (t.ended ≠ .ok ∧ c = statusCode t.ended)) := by
    intro c
    rcases runWord_ends h with ⟨hh, rfl⟩ | ⟨-, u, x, rfl, hu⟩
    · have h5 : s.errs.getLsbD 5 = true := hh
      by_cases hc : c = 5
      · simp [hc, h5]
      · simp [hc, statusCode]
    · rw [finish_errs, errsAfter_getLsbD, hu, finish_ended, Bool.decide_and]
  refine ⟨bits, fun h0 => ?_⟩
  rw [bits, h0, Bool.false_or, decide_eq_false_iff_not]
  rintro ⟨hne, hcode⟩
  exact hne (statusCode_eq_zero_iff.1 hcode.symm)

/-- Writing the status registers of a running block leaves them in agreement. -/
theorem statusOk_finish {c : Completion} {u : State} (h0 : u.errs.getLsbD 0 = false) (hrun : u.halted = false) :
    StatusOk (finish c u) := by
  refine ⟨?_, fun hne => ?_, fun hh => ?_⟩
  · rw [finish_errs, errsAfter_getLsbD, h0]
    cases c <;> rfl
  · rw [finish_ended] at hne ⊢
    simp [errsAfter_getLsbD, hne]
  · simpa [halted_finish, hrun] using hh

/-! ## Who writes which register (R17, R31) -/

/-- Settles O40: a halted block writes no `RES`, and a rule writes it as `ruleOf_ends` says. -/
theorem resultIsWrittenOnlyBySuccess : Obligations.ResultIsWrittenOnlyBySuccess := by
  intro i s t h hres
  rcases exec_cases h with ⟨-, rfl⟩ | ⟨-, rfl⟩
  · exact absurd rfl hres
  · obtain ⟨u, c, e, hend⟩ := ruleOf_ends i s
    rw [e] at hres ⊢
    exact hend.res hres

/-- Settles O41: a halted block writes neither, and a rule as `ruleOf_ends` says. -/
theorem onlyTheDecodersWriteTheirRegisters : Obligations.OnlyTheDecodersWriteTheirRegisters := by
  intro i s t h
  rcases exec_cases h with ⟨-, rfl⟩ | ⟨-, rfl⟩
  · exact ⟨fun _ => ⟨rfl, rfl⟩, fun _ _ => ⟨rfl, rfl, rfl, rfl, rfl⟩⟩
  · obtain ⟨u, c, e, hend⟩ := ruleOf_ends i s
    rw [e]
    exact ⟨hend.hdr, hend.layer1⟩

/-! ## The cursor under every command (R13 to R16) -/

/-- The same source, and the same cursor with the same buffer. -/
def SameCursor (s t : State) : Prop := t.src = s.src ∧ t.pos = s.pos ∧ t.cnt = s.cnt ∧ t.acc = s.acc

theorem SameCursor.inv {s t : State} (e : SameCursor s t) (h : CursorInv s) : CursorInv t := by
  obtain ⟨hsrc, hpos, hcnt, hacc⟩ := e
  have hcursor := h.cursor
  have hbuffer := h.buffer
  unfold CursorOk at hcursor
  unfold BufferOk at hbuffer
  rw [← hsrc, ← hpos, ← hcnt] at hcursor hbuffer
  rw [← hacc] at hbuffer
  exact ⟨hsrc ▸ h.source, hcursor, hbuffer⟩

theorem SameCursor.bp {s t : State} (e : SameCursor s t) : t.bp = s.bp := by
  obtain ⟨-, hpos, hcnt, -⟩ := e
  rw [State.bp, State.bp, hpos, hcnt]

/-- What a command does to the cursor of a state of the block: it stays within the source, and it does not move back, or
the command is a skip and it stands where the skip leads (R14, R85, R236). -/
structure CursorStep (i : Instr) (s t : State) : Prop where
  inv : CursorInv t
  moves : s.bp ≤ t.bp ∨ ∃ k : Int, i = .skipBytes k ∧ (t.bp : Int) = 8 * (s.pos.toNat + k)

/-- An aligned position inside the source is a cursor as the invariant wants it. -/
theorem cursorInv_atBit_aligned {s : State} {p : Nat} (hs : s.src.wf = true) (hp : p ≤ s.src.len) :
    CursorInv (atBit (8 * p) s) ∧ (atBit (8 * p) s).bp = 8 * p := by
  have hl := wf_len hs
  exact ⟨cursorInv_atBit hs (by omega) fun hne => absurd (Nat.mul_mod_right 8 p) hne, bp_atBit (by omega)⟩

/-- A stream bit up to which every byte could be read is a cursor as the invariant wants it. -/
theorem cursorInv_atBit_of_readable {s : State} {b : Nat} (h : CursorInv s) (hb : s.bp ≤ b)
    (hr : Readable s.src s.pos.toNat ((b + 7) / 8)) : CursorInv (atBit b s) ∧ (atBit b s).bp = b := by
  have hl := h.len_lt
  have hpos := h.pos_eq
  have hcnt := h.cnt_eq
  have hend : (b + 7) / 8 ≤ s.src.len := by
    by_cases hlt : s.pos.toNat < (b + 7) / 8
    · have hlast := (hr ((b + 7) / 8 - 1) (by omega) (by omega)).1
      omega
    · exact (by omega : (b + 7) / 8 ≤ s.pos.toNat).trans h.pos_le
  refine ⟨cursorInv_atBit h.source (by omega) fun hne => ?_, bp_atBit (by omega)⟩
  by_cases hlt : s.pos.toNat ≤ b / 8
  · exact (hr _ hlt (by omega)).2
  · have hbuf := (h.buffer.2 (by omega)).2
    rwa [show s.pos.toNat - 1 = b / 8 by omega] at hbuf

/-- `ALIGN` drops the buffered bits: the cursor stands at byte `POS` (R84). -/
theorem alignRule_cursor {s : State} (h : CursorInv s) : SameCursor (atBit (8 * s.pos.toNat) s) (alignRule s) := by
  have hcnt := h.cnt_le
  have hacc := h.buffer.1
  have hmod : s.cnt.toNat % 8 = s.cnt.toNat := by omega
  refine ⟨rfl, ?_, ?_, ?_⟩
  · show s.pos = BitVec.ofNat 64 ((8 * s.pos.toNat + 7) / 8)
    rw [show (8 * s.pos.toNat + 7) / 8 = s.pos.toNat by omega, BitVec.ofNat_toNat, BitVec.setWidth_eq]
  · show BitVec.ofNat 6 (s.cnt.toNat - s.cnt.toNat % 8) =
      BitVec.ofNat 6 (8 * ((8 * s.pos.toNat + 7) / 8) - 8 * s.pos.toNat)
    congr 1
    omega
  · apply BitVec.eq_of_toNat_eq
    show (s.acc >>> (s.cnt.toNat % 8)).toNat =
      (BitVec.ofNat 64 (_ % 2 ^ (8 * ((8 * s.pos.toNat + 7) / 8) - 8 * s.pos.toNat))).toNat
    rw [show 8 * ((8 * s.pos.toNat + 7) / 8) - 8 * s.pos.toNat = 0 by omega, pow_zero, Nat.mod_one, hmod,
      BitVec.toNat_ushiftRight, hacc, Nat.shiftRight_eq_div_pow, Nat.div_eq_of_lt (Nat.mod_lt _ (Nat.two_pow_pos _))]
    rfl

theorem le_frameEnd (src : Source) (h : Header) (b : Nat) : b ≤ frameEnd src h b := by
  unfold frameEnd sampleStart scaleStart; omega

namespace CursorStep

variable {i : Instr} {s t : State} (h : CursorInv s)
include h

theorem still (e : SameCursor s t) : CursorStep i s t := ⟨e.inv h, .inl e.bp.ge⟩

/-- Forward to byte `p` of the source. -/
theorem atByte {p : Nat} (hlo : s.pos.toNat ≤ p) (hhi : p ≤ s.src.len) (e : SameCursor (atBit (8 * p) s) t) :
    CursorStep i s t := by
  obtain ⟨hinv, hbp⟩ := cursorInv_atBit_aligned h.source hhi
  have hle : s.bp ≤ 8 * s.pos.toNat := Nat.sub_le _ _
  exact ⟨e.inv hinv, .inl (by rw [e.bp, hbp]; omega)⟩

/-- Forward to stream bit `b`, every byte up to there read. -/
theorem atField {b : Nat} (hb : s.bp ≤ b) (hr : Readable s.src s.pos.toNat ((b + 7) / 8))
    (e : SameCursor (atBit b s) t) : CursorStep i s t := by
  obtain ⟨hinv, hbp⟩ := cursorInv_atBit_of_readable h hb hr
  exact ⟨e.inv hinv, .inl (by rw [e.bp, hbp]; exact hb)⟩

theorem afterRead {n v : Nat} {s' : State} (hread : readField standard n s = .ok (v, s')) (e : SameCursor s' t) :
    CursorStep i s t := by
  obtain ⟨-, rfl, -, -, -, hr⟩ := cursorInv_readField h hread
  exact atField h (Nat.le_add_right _ _) hr e

theorem afterSkip {k : Int} (h0 : 0 ≤ (s.pos.toNat : Int) + k) (hlen : (s.pos.toNat : Int) + k ≤ s.src.len)
    (e : SameCursor (setCursor standard ((s.pos.toNat : Int) + k).toNat 0 s) t) : CursorStep (.skipBytes k) s t := by
  rw [setCursor_aligned] at e
  obtain ⟨hinv, hbp⟩ := cursorInv_atBit_aligned (p := ((s.pos.toNat : Int) + k).toNat) h.source (by omega)
  exact ⟨e.inv hinv, .inr ⟨k, rfl, by rw [e.bp, hbp]; omega⟩⟩

end CursorStep

/-- Every command keeps the cursor inside the source, and only skips move it back. -/
theorem ruleOf_cursorStep (i : Instr) {s : State} (h : CursorInv s) : CursorStep i s (ruleOf standard i s) := by
  cases i with
  | readBits n =>
    show CursorStep _ s (readBitsRule standard n s)
    rcases readBitsRule_cases standard n s with ⟨-, e⟩ | ⟨-, e⟩ | ⟨-, -, v, s', hread, e⟩ |
      ⟨-, -, x, -, -, e⟩ <;> rw [e]
    · exact .still h ⟨rfl, rfl, rfl, rfl⟩
    · exact .still h ⟨rfl, rfl, rfl, rfl⟩
    · exact .afterRead h hread ⟨rfl, rfl, rfl, rfl⟩
    · exact .still h ⟨rfl, rfl, rfl, rfl⟩
  | align => exact .atByte h le_rfl h.pos_le (alignRule_cursor h)
  | skipBytes k =>
    show CursorStep _ s (skipBytesRule standard k s)
    rcases skipBytesRule_cases standard k s with ⟨-, e⟩ | ⟨-, e⟩ | ⟨h0, hlen, e⟩ <;> rw [e]
    · exact .still h ⟨rfl, rfl, rfl, rfl⟩
    · exact .still h ⟨rfl, rfl, rfl, rfl⟩
    · exact .afterSkip h h0 hlen ⟨rfl, rfl, rfl, rfl⟩
  | position => exact .still h ⟨rfl, rfl, rfl, rfl⟩
  | findSync =>
    show CursorStep _ s (findSyncRule standard s)
    rcases findSyncRule_cases h with ⟨-, e⟩ | ⟨q, hlo, hhi, e⟩ | e | ⟨q, hlo, hhi, -, -, e⟩ <;> rw [e]
    · exact .still h ⟨rfl, rfl, rfl, rfl⟩
    · exact .atByte h hlo.le hhi.le ⟨rfl, rfl, rfl, rfl⟩
    · exact .atByte h h.pos_le le_rfl ⟨rfl, rfl, rfl, rfl⟩
    · exact .atByte h hlo hhi ⟨rfl, rfl, rfl, rfl⟩
  | decHdr =>
    show CursorStep _ s (decHdrRule standard s)
    rcases decHdrRule_cases standard s with ⟨-, e⟩ | ⟨-, x, -, -, e⟩ | ⟨-, w, s', hread, e⟩ <;> rw [e]
    · exact .still h ⟨rfl, rfl, rfl, rfl⟩
    · exact .still h ⟨rfl, rfl, rfl, rfl⟩
    · rcases loadHeader_cases standard w s' with ⟨r, -, e⟩ | ⟨hd, -, e⟩ <;> rw [e]
      · exact .afterRead h hread ⟨rfl, rfl, rfl, rfl⟩
      · exact .afterRead h hread ⟨rfl, rfl, rfl, rfl⟩
  | fLen =>
    show CursorStep _ s (fLenRule standard s)
    unfold fLenRule
    split
    · exact .still h ⟨rfl, rfl, rfl, rfl⟩
    · exact .still h ⟨rfl, rfl, rfl, rfl⟩
  | decL1 =>
    show CursorStep _ s (decL1Rule standard s)
    rcases decL1Rule_at_cases h with ⟨-, e⟩ | ⟨t, e, hr, -⟩ |
      ⟨x, b, byte, al, sc, sa, d, e, hb, ⟨-, hreach, -⟩, -, -, hr, -⟩ <;> rw [e]
    · exact .still h ⟨rfl, rfl, rfl, rfl⟩
    · exact .atField h (le_frameEnd ..) hr ⟨rfl, rfl, rfl, rfl⟩
    · exact .atField h hb (readable_mono hr le_rfl hreach) ⟨rfl, rfl, rfl, rfl⟩
  | requant code alloc scf =>
    show CursorStep _ s (requantRule standard code alloc scf s)
    unfold requantRule
    split
    · exact .still h ⟨rfl, rfl, rfl, rfl⟩
    · exact .still h ⟨rfl, rfl, rfl, rfl⟩

/-- Settles O42: a halted block moves nothing, and a rule moves the cursor as `ruleOf_cursorStep` says; `POS` follows
`BP` (`CursorInv.pos_eq`). -/
theorem onlySkipsMoveTheCursorBack : Obligations.OnlySkipsMoveTheCursorBack := by
  intro i s t hinv h
  have hs := hinv.cursorInv
  rcases exec_cases h with ⟨-, rfl⟩ | ⟨-, rfl⟩
  · exact ⟨fun hlt => absurd hlt (Nat.lt_irrefl _), fun hlt => absurd hlt (Nat.lt_irrefl _)⟩
  · obtain ⟨ht, moves⟩ := ruleOf_cursorStep i hs
    have hpos := hs.pos_eq
    have hpos' := ht.pos_eq
    have hbp : s.bp ≤ 8 * s.pos.toNat := Nat.sub_le _ _
    rcases moves with hle | ⟨k, hk, hto⟩
    · exact ⟨fun hlt => by omega, fun hlt => by omega⟩
    · exact ⟨fun hlt => ⟨k, hk, by omega⟩, fun hlt => ⟨k, hk, by omega⟩⟩

/-! ## The header (R22, R119) -/

theorem bitrateTab_lt (v : VersionClass) (l : Layer) : ∀ r ∈ bitrateTab v l, r < 2 ^ 9 := by
  cases v <;> cases l <;> decide

theorem freqTab_lt (v : Version) : ∀ f ∈ freqTab v, f < 2 ^ 16 := by cases v <;> decide

/-- A header that `DECHDR` loads meets the header invariant. -/
theorem headerOk_of_decodeWindow {w : Nat} {hd : Header} (h : decodeWindow standard w = .ok hd) {t : State}
    (ht : t.hdr = hd) : HeaderOk t := by
  intro _
  obtain ⟨rate, hz, hrate, hhz, erate, ehz, hstereo⟩ := decodeFields_ok h
  rw [ht, erate, ehz, BitVec.toNat_ofNat, BitVec.toNat_ofNat, Nat.mod_eq_of_lt (bitrateTab_lt _ _ _ hrate),
    Nat.mod_eq_of_lt (freqTab_lt _ _ hhz)]
  exact ⟨hrate, hhz, hstereo⟩

/-! ## The Layer I arrays (R24 to R27, R160, R162) -/

/-- The rounded fraction of `b + 1` bits is at most `2^b` (R162). -/
theorem roundedFraction_le {b f : Nat} (hb : 1 ≤ b) (hf : f < 2 ^ b) : roundedFraction (b + 1) f ≤ 2 ^ b := by
  obtain ⟨a, rfl⟩ : ∃ a, b = a + 1 := ⟨b - 1, by omega⟩
  have h2 : 2 ≤ 2 ^ (a + 1) := by rw [pow_succ]; have := Nat.two_pow_pos a; omega
  unfold roundedFraction
  rw [pow_succ 2 (a + 1)]
  generalize 2 ^ (a + 1) = n at *
  obtain ⟨m, rfl⟩ : ∃ m, n = m + 1 := ⟨n - 1, by omega⟩
  have hprod : (m + 1) * f ≤ (m + 1) * m := Nat.mul_le_mul_left _ (by omega)
  rw [show (m + 1) * 2 - 1 = 2 * m + 1 by omega, ← Nat.lt_succ_iff, Nat.div_lt_iff_lt_mul (by omega)]
  nlinarith

theorem req_le {code alloc scf : Nat} (ha : 1 ≤ alloc) (ha' : alloc < 16) (hc : code < 2 ^ (alloc + 1))
    (hs : scf < 64) : 0 ≤ req code alloc scf ∧ req code alloc scf ≤ 2064384 := by
  have hr := roundedFraction_le ha (fractional_lt hc)
  have hp : 2 ^ alloc ≤ 2 ^ 15 := Nat.pow_le_pow_right (by omega) (by omega)
  have hm : roundedFraction (alloc + 1) (fractional code) * scf ≤ 2 ^ 15 * 63 := Nat.mul_le_mul (hr.trans hp) (by omega)
  unfold req
  omega

/-- The requantized samples of a frame are in the requantizer's range (R162). -/
theorem frameSamp_le (src : Source) (h : Header) (b ch sb t : Nat) :
    0 ≤ frameSamp standard src h b ch sb t ∧ frameSamp standard src h b ch sb t ≤ 2064384 := by
  unfold frameSamp
  dsimp only
  split
  next => omega
  next hne =>
    rw [← field_eq_streamValue]
    exact req_le (by omega) (frameAlloc_lt ..) (field_lt ..) (frameScf_lt ..)

/-- What the arrays of a decoded frame hold. -/
theorem layer1Ok_of_frame {t : State} (hv : t.hdrValid = true) (hl : t.hdr.layer = .layer1) (src : Source) (b : Nat)
    (ha : ∀ (ch : Fin 2) (sb : Fin 32), t.alloc[ch][sb].toNat = frameAlloc src t.hdr b ch sb ∧
      t.scf[ch][sb].toNat = frameScf src t.hdr b ch sb ∧
      ∀ k : Fin 12, t.samp[ch][sb][k] = BitVec.ofInt 32 (frameSamp standard src t.hdr b ch sb k)) : Layer1Ok t := by
  refine fun _ => ⟨hv, hl, fun hm sb => ?_, fun ch sb h0 => ?_, fun ch sb k => ?_⟩
  · apply BitVec.eq_of_toNat_eq
    rw [(ha 1 sb).1, frameAlloc_absent (by simp [frameChannels, hm])]
    rfl
  · obtain ⟨halloc, hscf, hsamp⟩ := ha ch sb
    have hzero : frameAlloc src t.hdr b ch sb = 0 := by rw [← halloc, h0]; rfl
    refine ⟨BitVec.eq_of_toNat_eq ?_, fun k => ?_⟩
    · rw [hscf, frameScf, if_pos hzero]; rfl
    · rw [hsamp, frameSamp]; simp only [hzero, if_true]; rfl
  · obtain ⟨h0, hle⟩ := frameSamp_le src t.hdr b ch sb k
    rw [(ha ch sb).2.2, BitVec.toNat_ofInt]
    omega

theorem decL1Rule_layer1Ok {s : State} (hc : CursorInv s) (h : Layer1Ok s) : Layer1Ok (decL1Rule standard s) := by
  by_cases hv : s.hdrValid = true ∧ s.hdr.layer = .layer1
  · rcases decL1Rule_at_cases hc with ⟨hn, -⟩ | ⟨t, e, -, ha⟩ | ⟨x, b, e', al, sc, sa, d, e, -⟩
    · exact absurd hv hn
    · rw [e]; exact layer1Ok_of_frame hv.1 hv.2 s.src s.bp ha
    · rw [e]; exact fun hl => absurd hl Bool.false_ne_true
  · rcases decL1Rule_cases standard s with ⟨-, e⟩ | ⟨hv', -⟩
    · rw [e]; exact h
    · exact absurd hv' hv

/-- `DECHDR` stops before it changes a header or an array, or leaves no valid Layer I data and, if any, a good
header. -/
theorem decHdrRule_dataOk {s : State} (hh : HeaderOk s) (hl : Layer1Ok s) :
    HeaderOk (decHdrRule standard s) ∧ Layer1Ok (decHdrRule standard s) := by
  rcases decHdrRule_cases standard s with ⟨-, e⟩ | ⟨-, x, -, -, e⟩ | ⟨-, w, s', -, e⟩ <;> rw [e]
  · exact ⟨hh, hl⟩
  · exact ⟨hh, hl⟩
  · rcases loadHeader_cases standard w s' with ⟨r, -, e⟩ | ⟨hd, hdec, e⟩ <;> rw [e]
    · exact ⟨fun hv => absurd hv Bool.false_ne_true, fun hv => absurd hv Bool.false_ne_true⟩
    · exact ⟨headerOk_of_decodeWindow hdec rfl, fun hv => absurd hv Bool.false_ne_true⟩

/-- Every command keeps what the header and the Layer I arrays hold while they are valid. -/
theorem ruleOf_dataOk (i : Instr) {s : State} (hc : CursorInv s) (hh : HeaderOk s) (hl : Layer1Ok s) :
    HeaderOk (ruleOf standard i s) ∧ Layer1Ok (ruleOf standard i s) := by
  by_cases hi : i = .decHdr
  · subst hi; exact decHdrRule_dataOk hh hl
  · obtain ⟨u, c, e, hend⟩ := ruleOf_ends i s
    obtain ⟨hvalid, hhdr⟩ := hend.hdr hi
    have hheader : HeaderOk (ruleOf standard i s) := by
      rw [e, HeaderOk, finish_hdrValid, finish_hdr, hvalid, hhdr]; exact hh
    by_cases hi' : i = .decL1
    · subst hi'; exact ⟨hheader, decL1Rule_layer1Ok hc hl⟩
    · obtain ⟨hl1, halloc, hscf, hsamp, -⟩ := hend.layer1 hi hi'
      refine ⟨hheader, ?_⟩
      rw [e, Layer1Ok, finish_l1Valid, finish_hdrValid, finish_hdr, finish_alloc, finish_scf, finish_samp, hl1, hvalid,
        hhdr, halloc, hscf, hsamp]
      exact hl

/-! ## Every step keeps the invariant -/

theorem ruleOf_inv (i : Instr) {s : State} (hrun : s.halted = false) (h : s.Inv) : (ruleOf standard i s).Inv := by
  have hc := (ruleOf_cursorStep i h.cursorInv).inv
  have hst : StatusOk (ruleOf standard i s) := by
    obtain ⟨u, c, e, hend⟩ := ruleOf_ends i s
    rw [e]
    exact statusOk_finish (hend.errs ▸ h.status.1) (by rw [State.halted, hend.errs]; exact hrun)
  obtain ⟨hheader, hlayer1⟩ := ruleOf_dataOk i h.cursorInv h.header h.layer1
  exact ⟨hc.source, hc.cursor, hc.buffer, hst, hheader, hlayer1⟩

theorem runWord_inv {w : CmdWord} {s t : State} (h : s.Inv) (hw : runWord w s = .next t) : t.Inv := by
  rcases runWord_cases hw with ⟨hh, rfl⟩ | ⟨hrun, r, rfl⟩ | ⟨hrun, i, rfl⟩
  · have hsame : endHalted s = s := by rw [endHalted, ← h.status.2.2 hh]
    rw [hsame]; exact h
  · exact ⟨h.source, h.cursor, h.buffer, statusOk_finish h.status.1 hrun, h.header, h.layer1⟩
  · exact ruleOf_inv i hrun h

/-- The invariant does not see what the host does next. -/
theorem State.Inv.withInputs {s : State} (h : s.Inv) (rest : List HostAction) :
    ({ s with inputs := rest } : State).Inv :=
  ⟨h.source, h.cursor, h.buffer, h.status, h.header, h.layer1⟩

/-- Settles O45: a reset leaves the source alone to meet the invariant (`inv_applyReset`), and a command word keeps it
(`runWord_inv`). -/
theorem everyStepKeepsTheInvariant : Obligations.EveryStepKeepsTheInvariant := by
  intro s t h hstep
  rcases step_cases hstep with rfl | ⟨rest, rfl⟩ | ⟨src, rest, hwf, rfl⟩ | ⟨w, rest, hw⟩
  · exact h
  · exact inv_applyReset h.source
  · exact inv_applyReset hwf
  · exact runWord_inv (h.withInputs rest) hw

/-! ## States that are the same for the host (R28, R30, R31) -/

namespace SameForHost

variable {s s' : State} (h : SameForHost s s')
include h

/-- A header field reads the same: either it has no definite value in both states or it has the same one. -/
theorem guarded_hdr (f : Header → Nat) : guarded s.hdrValid (f s.hdr) = guarded s'.hdrValid (f s'.hdr) := by
  rw [← h.hdrValid]
  cases hv : s.hdrValid with
  | false => rfl
  | true => rw [h.hdr hv]

/-- An array entry reads the same: either it has no definite value in both states or it has the same one. -/
theorem guarded_arrays (f : AllocArray → ScfArray → SampArray → Nat) :
    guarded s.l1Valid (f s.alloc s.scf s.samp) = guarded s'.l1Valid (f s'.alloc s'.scf s'.samp) := by
  rw [← h.l1Valid]
  cases hv : s.l1Valid with
  | false => rfl
  | true =>
    obtain ⟨ha, hs, hp⟩ := h.arrays hv
    rw [ha, hs, hp]

theorem hostRead_eq (r : HostReg) : hostRead r s = hostRead r s' := by
  cases r with
  | acc => rfl
  | cnt => rw [hostRead, hostRead, h.cnt]
  | pos => rw [hostRead, hostRead, h.pos]
  | res => rw [hostRead, hostRead, h.res]
  | status => rw [hostRead, hostRead, State.status, State.status, h.ended]
  | reason => rw [hostRead, hostRead, State.reason, State.reason, h.ended]
  | errs => rw [hostRead, hostRead, h.errs]
  | hdrValid => rw [hostRead, hostRead, h.hdrValid]
  | hdrVersion => exact h.guarded_hdr fun x => versionBits x.version
  | hdrLayer => exact h.guarded_hdr fun x => layerBits x.layer
  | hdrProt => exact h.guarded_hdr fun x => x.prot.toNat
  | hdrBitrate => exact h.guarded_hdr fun x => x.bitrate.toNat
  | hdrFreq => exact h.guarded_hdr fun x => x.freq.toNat
  | hdrPadded => exact h.guarded_hdr fun x => x.padded.toNat
  | hdrMode => exact h.guarded_hdr fun x => modeBits x.mode
  | hdrModeExt => exact h.guarded_hdr fun x => x.modeExt.toNat
  | hdrIStereo => exact h.guarded_hdr fun x => x.iStereo.toNat
  | hdrMsStereo => exact h.guarded_hdr fun x => x.msStereo.toNat
  | hdrCopyright => exact h.guarded_hdr fun x => x.copyright.toNat
  | hdrOriginal => exact h.guarded_hdr fun x => x.original.toNat
  | hdrEmphasis => exact h.guarded_hdr fun x => emphasisBits x.emphasis
  | l1Valid => rw [hostRead, hostRead, h.l1Valid]
  | alloc ch sb => exact h.guarded_arrays fun a _ _ => a[ch][sb].toNat
  | scf ch sb => exact h.guarded_arrays fun _ f _ => f[ch][sb].toNat
  | samp ch sb t => exact h.guarded_arrays fun _ _ p => p[ch][sb][t].toNat

/-! ### Each shared operation keeps states the same for the host -/

theorem halted_eq : s.halted = s'.halted := by rw [State.halted, State.halted, h.errs]

theorem bp_eq : s.bp = s'.bp := by rw [State.bp, State.bp, h.pos, h.cnt]

theorem aligned_eq : s.aligned = s'.aligned := by rw [State.aligned, State.aligned, h.cnt]

theorem finish (c : Completion) : SameForHost (finish c s) (finish c s') :=
  { h with ended := rfl, errs := congrArg (errsAfter · c) h.errs }

theorem endHalted : SameForHost (endHalted s) (endHalted s') := { h with ended := rfl }

theorem setRes {v v' : BitVec 64} (hv : v = v') : SameForHost { s with res := v } { s' with res := v' } :=
  { h with res := hv }

theorem setCursor (c : Config) (p k : Nat) : SameForHost (setCursor c p k s) (setCursor c p k s') :=
  { h with pos := rfl, cnt := rfl }

/-- `ReadField` sees the source, `POS` and `CNT` alone: it raises the same, or reads the same field and moves both
cursors to the same place. -/
theorem readField (c : Config) (n : Nat) :
    (∃ x, readField c n s = .error x ∧ readField c n s' = .error x) ∨
    (∃ v p k, readField c n s = .ok (v, Machine.setCursor c p k s) ∧
      readField c n s' = .ok (v, Machine.setCursor c p k s')) := by
  have haddr : fetchAddrs c n s = fetchAddrs c n s' := by rw [fetchAddrs, fetchAddrs, h.cnt, h.pos]
  unfold Machine.readField
  rw [← h.src, ← haddr, ← h.bp_eq, ← h.pos, ← h.cnt]
  cases fetchFailure s.src (fetchAddrs c n s) with
  | some x => exact .inl ⟨x, rfl, rfl⟩
  | none => exact .inr ⟨_, _, _, rfl, rfl⟩

/-- `Skip` sees the source and `POS` alone. -/
theorem skip (c : Config) (k : Int) :
    (∃ x, skip c k s = .error x ∧ skip c k s' = .error x) ∨
    (∃ p, skip c k s = .ok (Machine.setCursor c p 0 s) ∧ skip c k s' = .ok (Machine.setCursor c p 0 s')) := by
  unfold Machine.skip
  rw [← h.src, ← h.pos]
  dsimp only
  split
  · exact .inl ⟨_, rfl, rfl⟩
  · split
    · exact .inr ⟨_, rfl, rfl⟩
    · exact .inl ⟨_, rfl, rfl⟩

theorem scanFailed (x : Exn) : SameForHost (scanFailed x s) (scanFailed x s') := by
  cases x with
  | endOfStream => exact (h.setRes rfl).finish _
  | invalidHeader r => exact h.finish _
  | contract r => exact h.finish _
  | ioFailure => exact h.finish _

theorem endFound (c : Config) : SameForHost (endFound c s) (endFound c s') := by
  unfold Machine.endFound
  rcases h.skip c (-1) with ⟨x, e, e'⟩ | ⟨p, e, e'⟩ <;> rw [e, e']
  · exact h.finish _
  · exact ((h.setCursor c p 0).setRes rfl).finish _

theorem scan (c : Config) (r : Nat) : SameForHost (scan c r s) (scan c r s') := by
  induction r generalizing s s' with
  | zero => exact (h.setRes rfl).finish _
  | succ r ih =>
    unfold Machine.scan
    rcases h.readField c 8 with ⟨x, e, e'⟩ | ⟨a, p, k, e, e'⟩ <;> rw [e, e']
    · exact h.scanFailed x
    · have h1 := h.setCursor c p k
      simp only
      rcases h1.readField c 8 with ⟨x, e, e'⟩ | ⟨b, p, k, e, e'⟩ <;> rw [e, e']
      · exact h1.scanFailed x
      · have h2 := h1.setCursor c p k
        simp only
        split
        · exact h2.endFound c
        · exact ih h2

/-! ### The header decoder -/

theorem loadHeader (c : Config) (w : Nat) : SameForHost (loadHeader c w s) (loadHeader c w s') := by
  unfold Machine.loadHeader
  cases decodeWindow c w with
  | error r =>
    have gone : SameForHost (forgetHeader (forgetLayer1 { s with hdrValid := false, l1Valid := false }))
        (forgetHeader (forgetLayer1 { s' with hdrValid := false, l1Valid := false })) :=
      { h with hdrValid := rfl, l1Valid := rfl, hdr := fun hv => absurd hv Bool.false_ne_true
               arrays := fun hv => absurd hv Bool.false_ne_true }
    exact gone.finish _
  | ok hd =>
    have loaded : SameForHost
        { forgetLayer1 { s with hdrValid := false, l1Valid := false } with hdr := hd, hdrValid := true }
        { forgetLayer1 { s' with hdrValid := false, l1Valid := false } with hdr := hd, hdrValid := true } :=
      { h with hdrValid := rfl, l1Valid := rfl, hdr := fun _ => rfl, arrays := fun hv => absurd hv Bool.false_ne_true }
    exact loaded.finish _

end SameForHost

/-! ### The Layer I decoder -/

/-- The same for the host in the middle of a `DECL1`: the flag is 0 and the arrays, which the command cleared and reads
back, agree all the same. -/
structure SameDecoding (s s' : State) : Prop where
  host : SameForHost s s'
  l1Valid : s.l1Valid = false
  alloc : s.alloc = s'.alloc
  scf : s.scf = s'.scf
  samp : s.samp = s'.samp

/-- Two stretches that end alike: both done or both with the same exception, in states that agree. -/
inductive SameMicro : Micro → Micro → Prop where
  | done {s s' : State} (h : SameDecoding s s') : SameMicro (.done s) (.done s')
  | raised (x : Exn) {s s' : State} (h : SameDecoding s s') : SameMicro (.raised x s) (.raised x s')

theorem SameMicro.andThen {m m' : Micro} {f : State → Micro} (hm : SameMicro m m')
    (hf : ∀ {s s'}, SameDecoding s s' → SameMicro (f s) (f s')) : SameMicro (m.andThen f) (m'.andThen f) := by
  cases hm with
  | done h => exact hf h
  | raised x h => exact .raised x h

namespace SameDecoding

variable {s s' : State} (h : SameDecoding s s')
include h

theorem setCursor (c : Config) (p k : Nat) : SameDecoding (setCursor c p k s) (setCursor c p k s') :=
  { h with host := h.host.setCursor c p k }

theorem setArrays {a a' : AllocArray} {f f' : ScfArray} {p p' : SampArray} (ha : a = a') (hf : f = f') (hp : p = p') :
    SameDecoding { s with alloc := a, scf := f, samp := p } { s' with alloc := a', scf := f', samp := p' } :=
  ⟨{ h.host with arrays := fun _ => ⟨ha, hf, hp⟩ }, h.l1Valid, ha, hf, hp⟩

theorem setAlloc (ch : Fin 2) (sb : Fin 32) (v : BitVec 4) : SameDecoding (setAlloc ch sb v s) (setAlloc ch sb v s') :=
  h.setArrays (by rw [h.alloc]) h.scf h.samp

theorem setScf (ch : Fin 2) (sb : Fin 32) (v : BitVec 6) : SameDecoding (setScf ch sb v s) (setScf ch sb v s') :=
  h.setArrays h.alloc (by rw [h.scf]) h.samp

theorem storeSample (c : Config) (t : Fin 12) (sb : Fin 32) (code : Nat) (ch : Fin 2) :
    SameDecoding (storeSample c t sb code s ch) (storeSample c t sb code s' ch) :=
  h.setArrays h.alloc h.scf (by rw [h.alloc, h.scf, h.samp])

theorem readInto (c : Config) (n : Nat) {store : Nat → State → State}
    (hstore : ∀ v {s s'}, SameDecoding s s' → SameDecoding (store v s) (store v s')) :
    SameMicro (readInto c n store s) (readInto c n store s') := by
  unfold Machine.readInto
  rcases h.host.readField c n with ⟨x, e, e'⟩ | ⟨v, p, k, e, e'⟩ <;> rw [e, e']
  · exact .raised x h
  · exact .done (hstore v (h.setCursor c p k))

theorem foldl {α : Type} {f : State → α → State} (hf : ∀ a {s s'}, SameDecoding s s' → SameDecoding (f s a) (f s' a))
    (l : List α) : SameDecoding (l.foldl f s) (l.foldl f s') := by
  induction l generalizing s s' with
  | nil => exact h
  | cons a l ih => exact ih (hf a h)

theorem forEach {α : Type} {f : α → State → Micro} (hf : ∀ a {s s'}, SameDecoding s s' → SameMicro (f a s) (f a s'))
    (l : List α) : SameMicro (forEach f l s) (forEach f l s') := by
  induction l generalizing s s' with
  | nil => exact .done h
  | cons a l ih => exact (hf a h).andThen ih

theorem readAlloc (c : Config) (sb : Fin 32) (group : List (Fin 2)) :
    SameMicro (readAlloc c sb group s) (readAlloc c sb group s') :=
  h.readInto c 4 fun _ _ _ h => h.foldl (fun ch _ _ h => h.setAlloc ch sb _) group

theorem readScaleFactor (c : Config) (sb : Fin 32) (ch : Fin 2) :
    SameMicro (readScaleFactor c sb ch s) (readScaleFactor c sb ch s') := by
  unfold Machine.readScaleFactor
  rw [← h.alloc]
  split
  · exact .done h
  · exact h.readInto c 6 fun _ _ _ h => h.setScf ch sb _

theorem readSample (c : Config) (t : Fin 12) (sb : Fin 32) (group : List (Fin 2)) :
    SameMicro (readSample c t sb group s) (readSample c t sb group s') := by
  unfold Machine.readSample
  rw [← h.alloc]
  simp only
  split
  · exact .done h
  · exact h.readInto c _ fun v _ _ h => h.foldl (fun ch _ _ h => h.storeSample c t sb v ch) group

theorem readAudioData (c : Config) (chs : List (Fin 2)) (bound : Nat) :
    SameMicro (readAudioData c chs bound s) (readAudioData c chs bound s') := by
  unfold Machine.readAudioData
  refine SameMicro.andThen (SameMicro.andThen ?_ fun h => ?_) fun h => ?_
  · rw [readAllocations_eq, readAllocations_eq]
    exact h.forEach (fun x _ _ h => h.readAlloc c x.1 x.2) _
  · rw [readScaleFactors_eq, readScaleFactors_eq]
    exact h.forEach (fun x _ _ h => h.readScaleFactor c x.1 x.2) _
  · rw [readSamples_eq, readSamples_eq]
    refine h.forEach (fun t _ _ h => ?_) _
    exact h.forEach (fun x _ _ h => h.readSample c t x.1 x.2) _

end SameDecoding

/-! ### Every command -/

namespace SameForHost

variable {s s' : State} (h : SameForHost s s')
include h

theorem clearLayer1 :
    SameDecoding (clearLayer1 { s with l1Valid := false }) (clearLayer1 { s' with l1Valid := false }) :=
  ⟨{ h with l1Valid := rfl, arrays := fun _ => ⟨rfl, rfl, rfl⟩ }, rfl, rfl, rfl, rfl⟩

/-- `DECL1` finds its header in both states or in neither. -/
theorem layer1Header_eq : (s.hdrValid && s.hdr.layer == .layer1) = (s'.hdrValid && s'.hdr.layer == .layer1) := by
  rw [← h.hdrValid]
  cases hv : s.hdrValid with
  | false => rfl
  | true => rw [h.hdr hv]

theorem decL1Rule (c : Config) : SameForHost (decL1Rule c s) (decL1Rule c s') := by
  unfold Machine.decL1Rule
  by_cases hv : (s.hdrValid && s.hdr.layer == .layer1) = true
  · have hhdr : s.hdr = s'.hdr := h.hdr (Bool.and_eq_true_iff.1 hv).1
    rw [if_pos hv, if_pos (h.layer1Header_eq ▸ hv), show channels s'.hdr.mode = channels s.hdr.mode by rw [hhdr],
      show stereoBound s'.hdr = stereoBound s.hdr by rw [hhdr]]
    have hm := h.clearLayer1.readAudioData c (channels s.hdr.mode) (stereoBound s.hdr)
    generalize Machine.readAudioData c _ _ (Machine.clearLayer1 { s with l1Valid := false }) = m at hm ⊢
    generalize Machine.readAudioData c _ _ (Machine.clearLayer1 { s' with l1Valid := false }) = m' at hm ⊢
    cases hm with
    | @done t t' ht =>
      have valid : SameForHost { t with l1Valid := true } { t' with l1Valid := true } :=
        { ht.host with l1Valid := rfl, arrays := fun _ => ⟨ht.alloc, ht.scf, ht.samp⟩ }
      exact valid.finish _
    | @raised x t t' ht =>
      have gone : SameForHost (forgetLayer1 t) (forgetLayer1 t') :=
        { ht.host with arrays := fun hv => absurd (ht.l1Valid.symm.trans hv) Bool.false_ne_true }
      exact gone.finish _
  · rw [if_neg hv, if_neg (h.layer1Header_eq ▸ hv)]
    exact h.finish _

theorem ruleOf (c : Config) (i : Instr) : SameForHost (ruleOf c i s) (ruleOf c i s') := by
  cases i with
  | readBits n =>
    show SameForHost (readBitsRule c n s) (readBitsRule c n s')
    unfold readBitsRule
    split
    · exact h.finish _
    · split
      · exact (h.setRes rfl).finish _
      · rcases h.readField c n with ⟨x, e, e'⟩ | ⟨v, p, k, e, e'⟩ <;> rw [e, e']
        · exact h.finish _
        · exact ((h.setCursor c p k).setRes rfl).finish _
  | align =>
    show SameForHost (alignRule s) (alignRule s')
    unfold alignRule
    rw [← h.cnt]
    refine SameForHost.finish ?_ _
    exact { h with res := rfl, cnt := rfl }
  | skipBytes k =>
    show SameForHost (skipBytesRule c k s) (skipBytesRule c k s')
    unfold skipBytesRule
    rcases h.skip c k with ⟨x, e, e'⟩ | ⟨p, e, e'⟩ <;> rw [e, e']
    · exact h.finish _
    · exact (h.setCursor c p 0).finish _
  | position => exact (h.setRes h.pos).finish _
  | findSync =>
    show SameForHost (findSyncRule c s) (findSyncRule c s')
    unfold findSyncRule scanRounds
    rw [← h.aligned_eq, ← h.src]
    split
    · exact h.scan c _
    · exact h.finish _
  | decHdr =>
    show SameForHost (decHdrRule c s) (decHdrRule c s')
    unfold decHdrRule
    rw [← h.aligned_eq]
    split
    · rcases h.readField c 24 with ⟨x, e, e'⟩ | ⟨w, p, k, e, e'⟩ <;> rw [e, e']
      · exact h.finish _
      · exact (h.setCursor c p k).loadHeader c w
    · exact h.finish _
  | fLen =>
    show SameForHost (fLenRule c s) (fLenRule c s')
    unfold fLenRule
    by_cases hv : s.hdrValid = true
    · rw [if_pos hv, if_pos (h.hdrValid ▸ hv)]
      exact (h.setRes (congrArg (fun x => posWord c (frameLength x)) (h.hdr hv))).finish _
    · rw [if_neg hv, if_neg (h.hdrValid ▸ hv)]
      exact h.finish _
  | decL1 => exact h.decL1Rule c
  | requant code alloc scf =>
    show SameForHost (requantRule c code alloc scf s) (requantRule c code alloc scf s')
    unfold requantRule
    split
    · exact h.finish _
    · exact (h.setRes rfl).finish _

theorem exec (i : Instr) : ∃ t t', exec i s = .next t ∧ exec i s' = .next t' ∧ SameForHost t t' := by
  cases hh : s.halted with
  | true => exact ⟨_, _, exec_halted hh, exec_halted (h.halted_eq ▸ hh), h.endHalted⟩
  | false => exact ⟨_, _, exec_running hh, exec_running (h.halted_eq ▸ hh), h.ruleOf standard i⟩

end SameForHost

/-- Settles O43: each shared operation, so each command's rule, sees only what the host sees (`SameForHost.ruleOf`; for
`DECL1` the arrays it cleared itself), and so does each host read. -/
theorem unseenStateHasNoInfluence : Obligations.UnseenStateHasNoInfluence :=
  ⟨fun i _ _ h => h.exec i, fun r _ _ h => h.hostRead_eq r⟩

end Sys2Proof.Machine
end

section
/-! PROOFS. The source (20_memory.md): two reads are one wider read, no command writes the source, and the commands that
need an aligned cursor refuse any other. -/

namespace Sys2Proof.Machine

/-! ## Two reads are one wider read (R42, R80) -/

theorem raise_ended_ne_ok (x : Exn) (s : State) : (raise x s).ended ≠ .ok := by
  cases x <;> exact Completion.noConfusion

/-- A `READBITS` of at least one bit that ends `OK` has read its field, and the block runs on from where the read left the
cursor (R81). -/
theorem readField_of_readBits_ok {n : Nat} {s t : State} (h1 : 1 ≤ n) (hrun : s.halted = false)
    (h : exec (.readBits n) s = .next t) (hok : t.ended = .ok) :
    ∃ v s', readField standard n s = .ok (v, s') ∧ SameCursor s' t ∧ t.halted = false ∧
      t = endOk { s' with res := posWord standard v } := by
  obtain rfl : readBitsRule standard n s = t := by simpa [exec_running hrun, ruleOf] using h
  rcases readBitsRule_cases standard n s with ⟨-, e⟩ | ⟨h0, -⟩ | ⟨-, -, v, s', hread, e⟩ | ⟨-, -, x, -, -, e⟩
  · exact absurd (e ▸ hok) (raise_ended_ne_ok _ s)
  · omega
  · have hmoved := cursorMoved_readField hread
    refine ⟨v, s', hread, ?_, ?_, e⟩ <;> rw [e]
    · exact ⟨rfl, rfl, rfl, rfl⟩
    · rw [hmoved]; exact hrun
  · exact absurd (e ▸ hok) (raise_ended_ne_ok _ s)

/-- A field read where the read before it left the cursor continues that field: the wider read finds every byte readable,
joins the two values, and puts the cursor where the second read does. -/
theorem readField_add {m n v v' : Nat} {s s' t t' : State} (h : CursorInv s) (hm : readField standard m s = .ok (v, s'))
    (e : SameCursor s' t) (hn : readField standard n t = .ok (v', t')) :
    readField standard (m + n) s = .ok (v * 2 ^ n + v', atBit (s.bp + (m + n)) s) ∧ t' = atBit (s.bp + (m + n)) t := by
  obtain ⟨hinv, hs', rfl, hbp, hpos, hr1⟩ := cursorInv_readField h hm
  obtain ⟨-, rfl, rfl, -, -, hr2⟩ := cursorInv_readField (e.inv hinv) hn
  have ⟨esrc, epos, _, _⟩ := e
  have hsrc : t.src = s.src := by rw [esrc, hs']; rfl
  rw [e.bp, hbp, Nat.add_assoc s.bp, hsrc, epos, hpos] at hr2
  have hr : Readable s.src s.pos.toNat ((s.bp + (m + n) + 7) / 8) := fun a hlo hhi =>
    (Nat.lt_or_ge a ((s.bp + m + 7) / 8)).elim (hr1 a hlo) fun hge => hr2 a hge hhi
  rw [readField_at h hr, field_add, hsrc, e.bp, hbp, Nat.add_assoc]
  exact ⟨rfl, rfl⟩

/-- A field of at most 64 bits that was read is whole in `RES`. -/
theorem toNat_posWord_of_readField {n v : Nat} {s s' : State} (h : CursorInv s) (h64 : n ≤ 64)
    (hr : readField standard n s = .ok (v, s')) : (posWord standard v).toNat = v := by
  obtain ⟨-, -, rfl, -⟩ := cursorInv_readField h hr
  rw [posWord_standard, BitVec.toNat_ofNat]
  exact Nat.mod_eq_of_lt ((field_lt _ _ n).trans_le (Nat.pow_le_pow_right (by omega) h64))

/-- Settles O13: both reads are a `readField`, the wider one is their sum (`readField_add`), and each value is whole in
`RES`. -/
theorem twoReadsAreOneWiderRead : Obligations.TwoReadsAreOneWiderRead := by
  intro m n s t u hI hrun hm hn h64 ht htok hu huok
  obtain ⟨v, s', hread, same, hrun', et⟩ := readField_of_readBits_ok hm hrun ht htok
  obtain ⟨v', t', hread', -, -, eu⟩ := readField_of_readBits_ok hn hrun' hu huok
  obtain ⟨hinv, rfl, -⟩ := cursorInv_readField hI.cursorInv hread
  obtain ⟨hwide, rfl⟩ := readField_add hI.cursorInv hread same hread'
  have hv : (posWord standard v).toNat = v := toNat_posWord_of_readField hI.cursorInv (by omega) hread
  have hv' : (posWord standard v').toNat = v' := toNat_posWord_of_readField (same.inv hinv) (by omega) hread'
  have hres : posWord standard (v * 2 ^ n + v') = BitVec.ofNat 64 (t.res.toNat * 2 ^ n + u.res.toNat) := by
    rw [eu, et, endOk_res, endOk_res, hv, hv', posWord_standard]
  rw [exec_running hrun, ruleOf, readBitsRule_of_readField_ok (by omega) h64 hwide, hres]
  subst et eu
  rfl

/-! ## No command writes the source (R40) -/

/-- Settles O39: a halted block changes only its status, and a rule leaves the source and the host's plan
(`ruleOf_ends`). -/
theorem noCommandWritesTheSource : Obligations.NoCommandWritesTheSource := by
  intro i s t h
  rcases exec_cases h with ⟨-, rfl⟩ | ⟨-, rfl⟩
  · exact ⟨rfl, fun _ => rfl, rfl⟩
  · obtain ⟨u, c, e, hend⟩ := ruleOf_ends i s
    rw [e]
    exact ⟨hend.src, fun a => congrArg (Source.memRead · a) hend.src, hend.inputs⟩

/-! ## An unaligned cursor (R43, R208) -/

theorem findSyncRule_unaligned {c : Config} {s : State} (h : s.cnt.toNat % 8 ≠ 0) :
    findSyncRule c s = raise (.contract .unaligned) s := by
  rw [findSyncRule, if_neg (by simpa [State.aligned] using h)]

theorem decHdrRule_unaligned {c : Config} {s : State} (h : s.cnt.toNat % 8 ≠ 0) :
    decHdrRule c s = raise (.contract .unaligned) s := by
  rw [decHdrRule, if_neg (by simpa [State.aligned] using h)]

/-- A contract violation writes `STATUS`, `REASON` and bit 4 of `ERRS` (R201). -/
theorem raise_contract (r : ContractReason) (s : State) :
    raise (.contract r) s = { s with ended := .contract r, errs := s.errs ||| 0b010000 } := rfl

/-- Settles O23: each of the two rules raises the contract violation before anything else. -/
theorem unalignedEntryIsRefused : Obligations.UnalignedEntryIsRefused := by
  intro i s hi hrun hcnt
  rw [exec_running hrun, ← raise_contract]
  rcases hi with rfl | rfl
  · exact congrArg _ (findSyncRule_unaligned hcnt)
  · exact congrArg _ (decHdrRule_unaligned hcnt)

end Sys2Proof.Machine
end

section
/-! PROOFS. The encoding (30_encoding.md): decoding and encoding undo each other, and a word's row is the one whose mask
and match it meets. -/

namespace Sys2Proof.Machine

/-! ## From an instruction to its word and back -/

/-- The laws of the nine instructions as one: the word of a well-formed instruction is a word of its own row and decodes
to it. -/
theorem encodeDecode : ∀ i : Instr, Laws.EncodeDecode.Statement i
  | .readBits n => Laws.EncodeDecode.readBits n
  | .align => Laws.EncodeDecode.align
  | .skipBytes k => Laws.EncodeDecode.skipBytes k
  | .position => Laws.EncodeDecode.position
  | .findSync => Laws.EncodeDecode.findSync
  | .decHdr => Laws.EncodeDecode.decHdr
  | .fLen => Laws.EncodeDecode.fLen
  | .decL1 => Laws.EncodeDecode.decL1
  | .requant code alloc scf => Laws.EncodeDecode.requant code alloc scf

/-- Settles O7: the second half of what is said of every instruction (`encodeDecode`). -/
theorem decodingAnEncodingGivesTheInstructionBack : Obligations.DecodingAnEncodingGivesTheInstructionBack :=
  fun i hwf => (encodeDecode i hwf).2

/-! ## From a word to its instruction and back -/

/-- The operands of any word fit their fields, for they are read from the fields (R61). -/
theorem wellFormed_operandsOf (o : Opcode) (w : CmdWord) : (operandsOf o w).wellFormed = true := by
  cases o with
  | readBits => exact decide_eq_true (w.extractLsb' 0 7).isLt
  | skipBytes =>
    simp only [operandsOf, Instr.wellFormed, Bool.and_eq_true, decide_eq_true_eq]
    exact ⟨BitVec.le_toInt (w.extractLsb' 0 56), BitVec.toInt_lt (x := w.extractLsb' 0 56)⟩
  | requant =>
    simp only [operandsOf, Instr.wellFormed, Bool.and_eq_true, decide_eq_true_eq]
    exact ⟨⟨(w.extractLsb' 0 16).isLt, (w.extractLsb' 16 4).isLt⟩, (w.extractLsb' 20 6).isLt⟩
  | align | position | findSync | decHdr | fLen | decL1 => rfl

/-- A word of a row is the row's opcode and the word's immediate (R60). -/
theorem cmdWord_of_match {o : Opcode} {w : CmdWord} (h : w &&& opMask o = opMatch o) :
    cmdWord o (w.extractLsb' 0 56) = w := by
  rw [cmdWord, ← opField_of_match h, ← word_split]

/-- A word of a row whose mask covers every bit is the row's match. -/
theorem eq_opMatch_of_full_mask {o : Opcode} {w : CmdWord} (hm : opMask o = BitVec.allOnes 64)
    (h : w &&& opMask o = opMatch o) : w = opMatch o := by
  rwa [hm, BitVec.and_allOnes] at h

/-- An immediate below 2^7 is its field `n`. -/
theorem ofNat_readBits_field {w : CmdWord} (h : (w.extractLsb' 0 56).toNat < 2 ^ 7) :
    BitVec.ofNat 56 (w.extractLsb' 0 7).toNat = w.extractLsb' 0 56 := by
  apply BitVec.eq_of_toNat_eq
  simp only [BitVec.toNat_ofNat, BitVec.extractLsb'_toNat, Nat.shiftRight_zero] at h ⊢
  omega

/-- Two bit vectors put together, as a number. -/
theorem toNat_append_eq_mul_add {m n : Nat} (x : BitVec m) (y : BitVec n) :
    (x ++ y).toNat = x.toNat * 2 ^ n + y.toNat := by
  rw [BitVec.toNat_append, ← Nat.shiftLeft_add_eq_or_of_lt y.isLt, Nat.shiftLeft_eq]

/-- An immediate below 2^26 is its fields `scf`, `alloc` and `code` put together. -/
theorem append_requant_fields {w : CmdWord} (h : (w.extractLsb' 0 56).toNat < 2 ^ 26) :
    (0 : BitVec 30) ++ w.extractLsb' 20 6 ++ w.extractLsb' 16 4 ++ w.extractLsb' 0 16 = w.extractLsb' 0 56 := by
  apply BitVec.eq_of_toNat_eq
  simp only [toNat_append_eq_mul_add, BitVec.extractLsb'_toNat, Nat.shiftRight_eq_div_pow, BitVec.ofNat_eq_ofNat,
    BitVec.toNat_ofNat] at h ⊢
  omega

/-- No bit of a legal word is ignored: a bit is the row's opcode, an operand's, or must be zero. -/
theorem encode_operandsOf {o : Opcode} {w : CmdWord} (h : w &&& opMask o = opMatch o) : encode (operandsOf o w) = w := by
  cases o with
  | readBits =>
    have himm := imm_of_match (m := 0xFFFFFFFFFFFF80) (by decide) h
    have hlt := imm_lt (k := 7) (by decide) (by decide) himm
    rw [operandsOf, encode, ofNat_readBits_field hlt, cmdWord_of_match h]
  | skipBytes => rw [operandsOf, encode, BitVec.ofInt_toInt, cmdWord_of_match h]
  | requant =>
    have himm := imm_of_match (m := 0xFFFFFFFC000000) (by decide) h
    have hlt := imm_lt (k := 26) (by decide) (by decide) himm
    simp only [operandsOf, encode, BitVec.ofNat_toNat, BitVec.setWidth_eq]
    rw [append_requant_fields hlt, cmdWord_of_match h]
  | align | position | findSync | decHdr | fLen | decL1 => exact (eq_opMatch_of_full_mask (by decide) h).symm

/-- Settles O8: what decodes is a row's word with its operands (`decode_ok_iff`), and those give the word back. -/
theorem everyLegalWordIsTheEncodingOfItsInstruction : Obligations.EveryLegalWordIsTheEncodingOfItsInstruction := by
  intro w i hdec
  obtain ⟨o, hmatch, rfl⟩ := decode_ok_iff.1 hdec
  exact ⟨wellFormed_operandsOf o w, encode_operandsOf hmatch⟩

/-! ## The rows of R62 -/

theorem rowOf_operandsOf (o : Opcode) (w : CmdWord) : rowOf (operandsOf o w) = o := by cases o <;> rfl

/-- R62's test: a word meets a row's mask and match exactly when it decodes to an instruction of the row. -/
theorem match_iff_decode_rowOf {w : CmdWord} {o : Opcode} :
    w &&& opMask o = opMatch o ↔ ∃ i, decode w = .ok i ∧ rowOf i = o := by
  constructor
  · intro hmatch
    exact ⟨operandsOf o w, decode_ok_iff.2 ⟨o, hmatch, rfl⟩, rowOf_operandsOf o w⟩
  · rintro ⟨i, hdec, hrow⟩
    obtain ⟨o', hmatch, rfl⟩ := decode_ok_iff.1 hdec
    rwa [← hrow, rowOf_operandsOf]

/-- Settles O9: the table is the model's columns, and the test is `match_iff_decode_rowOf`. -/
theorem maskAndMatchPickTheCommand : Obligations.MaskAndMatchPickTheCommand :=
  ⟨rfl, fun _ _ => match_iff_decode_rowOf⟩

/-- Settles O10: each of the six words is decoded by evaluation. -/
theorem wordsOfTheManualDecode : Obligations.WordsOfTheManualDecode := by
  unfold Obligations.WordsOfTheManualDecode
  decide

end Sys2Proof.Machine
end

section
/-! PROOFS. The bit cursor (40_bitcursor.md): all that `READBITS`, `ALIGN`, `SKIPBYTES` and `POSITION` do. -/

namespace Sys2Proof.Machine

/-- An `EndOfStream` writes `STATUS`, `REASON` and bit 1 of `ERRS` (R201, R203). -/
theorem raise_endOfStream (s : State) :
    raise .endOfStream s = { s with ended := .eos, errs := s.errs ||| 0b000010 } := rfl

/-- An `IoFailure` writes `STATUS`, `REASON` and bit 5 of `ERRS` (R201, R204). -/
theorem raise_ioFailure (s : State) :
    raise .ioFailure s = { s with ended := .ioFail, errs := s.errs ||| 0b100000 } := rfl

/-! ## READBITS (R80, R81, R88) -/

theorem readBitsRule_of_gt {c : Config} {n : Nat} (h : 64 < n) (s : State) :
    readBitsRule c n s = raise (.contract .badOperand) s := by
  rw [readBitsRule, widthRefused, decide_eq_true h, if_pos rfl]

/-- A `READBITS` whose field cannot be read raises what the read raises (R81). -/
theorem readBitsRule_of_readField_error {c : Config} {n : Nat} {s : State} {x : Exn} (h1 : 1 ≤ n) (h64 : n ≤ 64)
    (h : readField c n s = .error x) : readBitsRule c n s = raise x s := by
  rcases readBitsRule_cases c n s with ⟨hn, -⟩ | ⟨hn, -⟩ | ⟨-, -, v, t, hok, -⟩ | ⟨-, -, y, herr, -, hrule⟩
  · omega
  · omega
  · simp [h] at hok
  · obtain rfl : x = y := by simpa [h] using herr
    exact hrule

/-- At most a byte of stream bits before a byte boundary are the low bits of the byte that ends there (R80). -/
theorem streamValue_before_byte {src : Source} {p k : Nat} (hk : k ≤ 8) (hp : k ≤ 8 * p) :
    streamValue src (8 * p - k) k = (src.byteAt (p - 1)).toNat % 2 ^ k :=
  (field_eq_streamValue src _ k).symm.trans (bufferedBits_eq hk hp)

/-- Settles O11: the width decides first, then `ReadField`: it answers when its bytes do (`readField_ok`), and else its
first byte that does not answer says what is raised (`readField_error`). -/
theorem readBitsFollowsItsRule : Obligations.ReadBitsFollowsItsRule := by
  intro n s hrun k
  rw [exec_running hrun, ruleOf]
  refine ⟨fun hn => ?_, fun hn => ?_, fun h1 h64 hr => ?_, fun hI _ _ => ?_,
    fun h1 h64 e hlo hhi hr => ⟨fun herr => ?_, fun hne hlen => ?_⟩⟩
  · rw [readBitsRule_of_gt hn, raise_contract]
  · subst hn; rfl
  · rw [readBitsRule_of_readField_ok h1 h64 (readField_ok hr), posWord_standard, ← field_eq_streamValue,
      ← field_eq_streamValue, endOk_eq, setCursor, posWord_standard, accWord_standard]
    rfl
  · have hcnt := hI.cursorInv.cnt_le
    have hpos := hI.cursorInv.cnt_le_pos
    have hk : k = (n - s.cnt.toNat + 7) / 8 := rfl
    exact streamValue_before_byte (by omega) (by omega)
  · rw [readBitsRule_of_readField_error h1 h64 (readField_error hlo hhi hr (.inl ⟨rfl, herr⟩)), raise_ioFailure]
  · rw [readBitsRule_of_readField_error h1 h64 (readField_error hlo hhi hr (.inr ⟨rfl, hne, hlen⟩)), raise_endOfStream]

/-- Right after reset on a source: the state R88 starts from. -/
def State.resetOn (src : Source) : State := { State.reset with src := src }

theorem halted_resetOn (src : Source) : (State.resetOn src).halted = false := (by decide : State.reset.halted = false)

theorem bp_resetOn (src : Source) : (State.resetOn src).bp = 0 := rfl

theorem cursorInv_resetOn {src : Source} (h : src.wf = true) : CursorInv (State.resetOn src) :=
  (inv_applyReset (s := State.resetOn src) h).cursorInv

/-- Settles O14: after reset the cursor stands at bit 0, every byte of the source answers, and the read moves the cursor
to bit `n` (`readField_at`). -/
theorem readBitsOfAnExactSource : Obligations.ReadBitsOfAnExactSource := by
  intro n src hwf herrs h1 h64 hlen
  have hinv := cursorInv_resetOn hwf
  have hbit : (State.resetOn src).bp + n = n := by rw [bp_resetOn, Nat.zero_add]
  have hend : ((State.resetOn src).bp + n + 7) / 8 = src.len := by rw [hbit, hlen]
  have hread := readField_at (n := n) hinv fun a _ ha => ⟨hend ▸ ha, herrs ▸ List.not_mem_nil⟩
  obtain ⟨-, -, -, -, hpos, -⟩ := cursorInv_readField hinv hread
  refine ⟨_, (exec_running (halted_resetOn src)).trans (congrArg _ (readBitsRule_of_readField_ok h1 h64 hread)), rfl,
    ?_, hpos.trans hend, ?_⟩
  · exact (toNat_posWord_of_readField hinv h64 hread).trans (field_eq_streamValue src 0 n)
  · exact (atBit_cnt _ (State.resetOn src)).trans (by rw [hend, hbit])

/-! ## ALIGN (R84) -/

/-- `ALIGN` with nothing buffered writes `RES` and the status registers only. -/
theorem alignRule_of_cnt_zero {s : State} (h : s.cnt = 0) : alignRule s = endOk { s with res := 1 } := by
  simp [alignRule, h]

/-- Settles O15: the rule is R84's pseudocode; on a state of the block it leaves the cursor at byte `POS`
(`alignRule_cursor`), where the buffer is empty and a second `ALIGN` finds nothing to drop. -/
theorem alignFollowsItsRule : Obligations.AlignFollowsItsRule := by
  intro s hrun
  refine ⟨by rw [exec_running hrun]; rfl, fun hI => ⟨alignRule s, by rw [exec_running hrun]; rfl, ?_⟩⟩
  have same := alignRule_cursor hI.cursorInv
  obtain ⟨hat, hbp⟩ := cursorInv_atBit_aligned hI.source hI.cursorInv.pos_le
  have ⟨_, _, ecnt, _⟩ := same
  have hcnt : (alignRule s).cnt = 0 := by
    apply BitVec.eq_of_toNat_eq
    rw [ecnt, atBit_cnt]
    show _ = 0
    omega
  have hacc : (alignRule s).acc = 0 := by
    apply BitVec.eq_of_toNat_eq
    obtain ⟨hbits, -⟩ := (same.inv hat).buffer
    rw [hbits, hcnt]
    exact Nat.mod_one _
  refine ⟨hcnt, hacc, same.bp.trans hbp, ?_⟩
  have hrun' : (alignRule s).halted = false := hrun
  rw [exec_running hrun', ruleOf, alignRule_of_cnt_zero hcnt]
  rfl

/-! ## SKIPBYTES (R85, R86) -/

/-- A cursor at a byte boundary has nothing buffered. -/
theorem setCursor_zero (p : Nat) (s : State) :
    setCursor standard p 0 s = { s with pos := BitVec.ofNat 64 p, cnt := 0, acc := 0 } := by
  rw [setCursor, posWord_standard]
  rfl

/-- Settles O16: the three ranges of `POS + k` are the three ways the rule can end (`skipBytesRule_cases`). -/
theorem skipBytesFollowsItsRule : Obligations.SkipBytesFollowsItsRule := by
  intro k s hrun
  rw [exec_running hrun, ruleOf]
  rcases skipBytesRule_cases standard k s with ⟨hneg, e⟩ | ⟨hpast, e⟩ | ⟨h0, hlen, e⟩ <;> rw [e]
  · exact ⟨fun _ => by rw [raise_contract], fun _ => by omega, fun _ _ => by omega⟩
  · exact ⟨fun _ => by omega, fun _ => by rw [raise_endOfStream], fun _ _ => by omega⟩
  · refine ⟨fun _ => by omega, fun _ => by omega, fun _ _ => ?_⟩
    obtain ⟨p, hp⟩ := Int.eq_ofNat_of_zero_le h0
    rw [hp, BitVec.ofInt_natCast, Int.toNat_natCast, setCursor_zero, endOk_eq]

/-- A `SKIPBYTES` that ends `OK` leads to a byte position inside the source, with nothing buffered there (R85). -/
theorem skipBytes_ok {k : Int} {s t : State} (hrun : s.halted = false) (h : exec (.skipBytes k) s = .next t)
    (hok : t.ended = .ok) :
    ∃ p, p ≤ s.src.len ∧ (s.pos.toNat : Int) + k = p ∧ t = endOk (setCursor standard p 0 s) := by
  obtain rfl : skipBytesRule standard k s = t := by simpa [exec_running hrun, ruleOf] using h
  rcases skipBytesRule_cases standard k s with ⟨-, e⟩ | ⟨-, e⟩ | ⟨h0, hlen, e⟩
  · exact absurd (e ▸ hok) (raise_ended_ne_ok _ s)
  · exact absurd (e ▸ hok) (raise_ended_ne_ok _ s)
  · exact ⟨_, by omega, by omega, e⟩

/-- Settles O17: the first skip's position is whole in `POS`, so the second leads where the sum does, and it overwrites
the cursor. -/
theorem twoSkipsAreOne : Obligations.TwoSkipsAreOne := by
  intro a b s t u hI hrun ht htok hu huok
  have hlen := wf_len hI.source
  obtain ⟨p, hp, ha, rfl⟩ := skipBytes_ok hrun ht htok
  obtain ⟨q, hq, hb, rfl⟩ := skipBytes_ok (s := endOk (setCursor standard p 0 s)) hrun hu huok
  have hpos : (endOk (setCursor standard p 0 s)).pos.toNat = p := by
    rw [endOk_pos, setCursor_pos, posWord_standard, BitVec.toNat_ofNat, Nat.mod_eq_of_lt (by omega)]
  have hsum : (s.pos.toNat : Int) + (a + b) = q := by omega
  obtain ⟨-, -, hskip⟩ := skipBytesFollowsItsRule (a + b) s hrun
  rw [hsum] at hskip
  rw [hskip (Int.natCast_nonneg q) (Int.ofNat_le.2 hq), BitVec.ofInt_natCast, setCursor_zero q]
  rfl

/-! ## POSITION (R87) -/

/-- Settles O18: the rule is R87's pseudocode. -/
theorem positionReportsTheBytePosition : Obligations.PositionReportsTheBytePosition := by
  intro s hrun
  rw [exec_running hrun, ruleOf, positionRule, endOk_eq]

end Sys2Proof.Machine
end

section
/-! PROOFS. The frame synchronizer (41_framesync.md): the sync pattern as bit tests, and where `FINDSYNC` ends. -/

namespace Sys2Proof.Machine

/-! ## The sync pattern (R101) -/

/-- `VERSION_DEC` reserves the code 1 alone (R113). -/
theorem versionDec_isSome : ∀ i : BitVec 2, (versionDec i).isSome = true ↔ i ≠ 1 := by decide

/-- `LAYER_DEC` reserves the code 0 alone (R114). -/
theorem layerDec_isSome : ∀ i : BitVec 2, (layerDec i).isSome = true ↔ i ≠ 0 := by decide

/-- The version code is 1 when bits 4:3 of the byte are `01`. -/
theorem versionCode_eq_one (b : Byte) : ((b &&& 0x18) >>> 3).setWidth 2 = (1 : BitVec 2) ↔ b &&& 0x18 = 0x08 := by
  revert b; decide

/-- The layer code is 0 when bits 2:1 of the byte are `00`. -/
theorem layerCode_eq_zero (b : Byte) : ((b &&& 0x06) >>> 1).setWidth 2 = (0 : BitVec 2) ↔ b &&& 0x06 = 0x00 := by
  revert b; decide

/-- Settles O19: each of the two code tables reserves one code, so each table test of the detector is a test of two bits
of B. -/
theorem syncMatchIsTheSyncPattern : Obligations.SyncMatchIsTheSyncPattern := by
  intro a b
  have hversion : (standard.versionDec (((b &&& 0x18) >>> 3).setWidth 2)).isSome = true ↔ b &&& 0x18 ≠ 0x08 :=
    (versionDec_isSome _).trans (versionCode_eq_one b).not
  have hlayer : (standard.layerDec (((b &&& 0x06) >>> 1).setWidth 2)).isSome = true ↔ b &&& 0x06 ≠ 0x00 :=
    (layerDec_isSome _).trans (layerCode_eq_zero b).not
  rw [syncMatch, Bool.and_eq_true, Bool.and_eq_true, Bool.and_eq_true, beq_iff_eq, beq_iff_eq, hversion, hlayer,
    and_assoc, and_assoc]

/-! ## Rounds without a match (R100, R103) -/

/-- No pair of bytes that lies before address `hi`, at an even distance from `lo`, is a frame start. -/
def NoMatchBefore (src : Source) (lo hi : Nat) : Prop :=
  ∀ j, lo + 2 * j + 1 < hi → syncMatch standard (src.byteAt (lo + 2 * j)) (src.byteAt (lo + 2 * j + 1)) = false

theorem NoMatchBefore.mono {src : Source} {lo hi hi' : Nat} (h : NoMatchBefore src lo hi) (hle : hi' ≤ hi) :
    NoMatchBefore src lo hi' :=
  fun j hj => h j (hj.trans_le hle)

/-- Over `m` pairs that do not match, the scan takes `m` rounds and consumes both bytes of each. -/
theorem scan_skip_pairs {s : State} {p r m : Nat} (hs : s.src.wf = true) (hr : Readable s.src p (p + 2 * m))
    (hno : NoMatchBefore s.src p (p + 2 * m)) :
    scan standard (r + m) (atBit (8 * p) s) = scan standard r (atBit (8 * (p + 2 * m)) s) := by
  induction m generalizing r with
  | zero => rfl
  | succ m ih =>
    calc scan standard (r + (m + 1)) (atBit (8 * p) s)
      _ = scan standard (r + 1 + m) (atBit (8 * p) s) := by rw [Nat.add_assoc, Nat.add_comm 1 m]
      _ = scan standard (r + 1) (atBit (8 * (p + 2 * m)) s) :=
        ih (readable_mono hr le_rfl (by omega)) (hno.mono (by omega))
      _ = scan standard r (atBit (8 * (p + 2 * (m + 1))) s) :=
        scan_skip hs (readable_mono hr (by omega) (by omega)) (hno m (by omega))

/-! ## Where `FINDSYNC` ends (R102) -/

/-- `FINDSYNC` on an empty buffer passes `m` pairs that do not match, and has a round left for what comes next. -/
theorem findSyncRule_skip_pairs {s : State} {m : Nat} (h : CursorInv s) (hcnt : s.cnt = 0)
    (hr : Readable s.src s.pos.toNat (s.pos.toNat + 2 * m))
    (hno : NoMatchBefore s.src s.pos.toNat (s.pos.toNat + 2 * m)) :
    ∃ r, findSyncRule standard s = scan standard (r + 1) (atBit (8 * (s.pos.toNat + 2 * m)) s) := by
  have haligned : s.aligned = true := by rw [State.aligned, hcnt]; rfl
  obtain ⟨-, -, hat⟩ := aligned_at h haligned
  have hm : m ≤ s.src.len := by
    by_contra hlt
    have hlast := hr (s.pos.toNat + 2 * m - 1) (by omega) (by omega)
    omega
  refine ⟨s.src.len + 7 - m, ?_⟩
  calc findSyncRule standard s
    _ = scan standard (scanRounds s) s := by rw [findSyncRule, if_pos haligned]
    _ = scan standard (s.src.len + 7 - m + 1 + m) (atBit (8 * s.pos.toNat) s) := by
      rw [hat, scanRounds, show s.src.len + 7 - m + 1 + m = s.src.len + 8 by omega]
    _ = scan standard (s.src.len + 7 - m + 1) (atBit (8 * (s.pos.toNat + 2 * m)) s) := scan_skip_pairs h.source hr hno

/-- `FINDSYNC` that meets an address it cannot read, with no match before it, ends there with what that address raises,
whether it was to be byte A of a pair or byte B. -/
theorem findSyncRule_stop {s : State} {e : Nat} {x : Exn} (h : CursorInv s) (hcnt : s.cnt = 0) (hlo : s.pos.toNat ≤ e)
    (hhi : e ≤ s.src.len) (hr : Readable s.src s.pos.toNat e) (hno : NoMatchBefore s.src s.pos.toNat e)
    (hx : x = .ioFailure ∧ e ∈ s.src.errs ∨ x = .endOfStream ∧ e ∉ s.src.errs ∧ s.src.len ≤ e) :
    findSyncRule standard s = scanFailed x (atBit (8 * e) s) := by
  obtain ⟨m, hm⟩ : ∃ m, e = s.pos.toNat + 2 * m ∨ e = s.pos.toNat + 2 * m + 1 := ⟨(e - s.pos.toNat) / 2, by omega⟩
  obtain ⟨r, hscan⟩ := findSyncRule_skip_pairs (m := m) h hcnt (readable_mono hr le_rfl (by omega)) (hno.mono (by omega))
  rw [hscan]
  rcases hm with rfl | rfl
  · exact scan_stop_first h.source hhi hx
  · obtain ⟨hlen, herr⟩ := hr (s.pos.toNat + 2 * m) (by omega) (by omega)
    exact scan_stop_second h.source hlen herr hx

/-- The cursor at a byte boundary, with nothing buffered. -/
theorem atBit_byte (p : Nat) (s : State) :
    atBit (8 * p) s = { s with pos := BitVec.ofNat 64 p, cnt := 0, acc := 0 } :=
  (setCursor_aligned p s).symm.trans (setCursor_zero p s)

/-- A scan that meets the end of the stream answers 0 and writes `STATUS` and bit 2 of `ERRS` (R201, R202). -/
theorem scanFailed_endOfStream (s : State) :
    scanFailed .endOfStream s = { s with res := 0, ended := .noSync, errs := s.errs ||| 0b000100 } := rfl

/-- A scan that meets an `ERR` address writes `STATUS` and bit 5 of `ERRS`, and no answer (R204, R17). -/
theorem scanFailed_ioFailure (s : State) :
    scanFailed .ioFailure s = { s with ended := .ioFail, errs := s.errs ||| 0b100000 } := rfl

/-- Settles O20: the pairs before the match are skipped, and the next round finds it. -/
theorem findSyncStopsOnTheFirstMatchingPair : Obligations.FindSyncStopsOnTheFirstMatchingPair := by
  intro s m hI hrun hcnt hr hno hmatch
  obtain ⟨r, hscan⟩ := findSyncRule_skip_pairs (m := m) hI.cursorInv hcnt (readable_mono hr le_rfl (by omega))
    fun j hj => hno j (by omega)
  have hround := scan_match (r := r) hI.source (readable_mono hr (Nat.le_add_right _ _) le_rfl) hmatch
  rw [exec_running hrun, ruleOf, hscan, hround, atBit_byte, endOk_eq]

/-- Settles O21: the first address that does not answer a byte is `LEN`, which answers `END`. -/
theorem findSyncReachesTheEndWithoutAMatch : Obligations.FindSyncReachesTheEndWithoutAMatch := by
  intro s hI hrun hcnt herrs hno
  have hpos := hI.cursorInv.pos_le
  have hr : Readable s.src s.pos.toNat s.src.len := fun a hlo hhi => ⟨hhi, herrs a hlo hhi.le⟩
  rw [exec_running hrun, ruleOf,
    findSyncRule_stop hI.cursorInv hcnt hpos le_rfl hr hno (.inr ⟨rfl, herrs _ hpos le_rfl, le_rfl⟩),
    scanFailed_endOfStream, atBit_byte]

/-- Settles O22: the scan stops at the address that answers `ERR` and raises the I/O failure there. -/
theorem findSyncStopsAtAnError : Obligations.FindSyncStopsAtAnError := by
  intro s e hI hrun hcnt hlo hhi herr hr hno
  rw [exec_running hrun, ruleOf, findSyncRule_stop hI.cursorInv hcnt hlo hhi hr hno (.inl ⟨rfl, herr⟩),
    scanFailed_ioFailure, atBit_byte]

end Sys2Proof.Machine
end

section
/-! PROOFS. The frame-header decoder (42_header.md): the fields of three bytes, what the checks answer, and how `DECHDR`
ends. -/

namespace Sys2Proof.Machine

/-! ## The fields of three bytes (R111) -/

@[simp] theorem extract_vcode (b1 b2 b3 : Byte) : (extract b1 b2 b3).vcode = b1.extractLsb' 3 2 := maskShift_vcode b1
@[simp] theorem extract_lcode (b1 b2 b3 : Byte) : (extract b1 b2 b3).lcode = b1.extractLsb' 1 2 := maskShift_lcode b1
@[simp] theorem extract_bridx (b1 b2 b3 : Byte) : (extract b1 b2 b3).bridx = b2.extractLsb' 4 4 := maskShift_bridx b2
@[simp] theorem extract_fridx (b1 b2 b3 : Byte) : (extract b1 b2 b3).fridx = b2.extractLsb' 2 2 := maskShift_fridx b2
theorem extract_pad (b1 b2 b3 : Byte) : ((extract b1 b2 b3).pad == 1) = b2.getLsbD 1 := maskShift_pad b2
theorem extract_pbit (b1 b2 b3 : Byte) : ((extract b1 b2 b3).pbit == 0) = !b2.getLsbD 0 := maskShift_pbit b2
@[simp] theorem extract_mcode (b1 b2 b3 : Byte) : (extract b1 b2 b3).mcode = b3.extractLsb' 6 2 := maskShift_mcode b3
@[simp] theorem extract_mext (b1 b2 b3 : Byte) : (extract b1 b2 b3).mext = b3.extractLsb' 4 2 := maskShift_mext b3
theorem extract_copy (b1 b2 b3 : Byte) : ((extract b1 b2 b3).copy == 1) = b3.getLsbD 3 := maskShift_copy b3
theorem extract_orig (b1 b2 b3 : Byte) : ((extract b1 b2 b3).orig == 1) = b3.getLsbD 2 := maskShift_orig b3
@[simp] theorem extract_ecode (b1 b2 b3 : Byte) : (extract b1 b2 b3).ecode = b3.extractLsb' 0 2 := maskShift_ecode b3

/-! ## The checks (R112, R119) -/

/-- Under joint stereo, bit 0 of the mode extension is the intensity flag in Layer III; the other layers always have it. -/
theorem intensityFlag_eq (m : Mode) (l : Layer) (mext : BitVec 2) :
    intensityFlag m l mext = (decide (m = .jointStereo) && (decide (l ≠ .layer3) || mext.getLsbD 0)) := by
  cases m <;> cases l <;> rfl

/-- Under joint stereo, bit 1 of the mode extension is the mid/side flag in Layer III; the other layers never have it. -/
theorem msFlag_eq (m : Mode) (l : Layer) (mext : BitVec 2) :
    msFlag m l mext = (decide (m = .jointStereo) && (decide (l = .layer3) && mext.getLsbD 1)) := by
  cases m <;> cases l <;> rfl

/-- The header of five table entries and the bits of the second and third byte that no table reads (R119). -/
def headerOf (v : Version) (l : Layer) (rate hz : Nat) (e : Emphasis) (b2 b3 : Byte) : Header :=
  let m := modeDec (b3.extractLsb' 6 2)
  { version := v, layer := l, prot := !b2.getLsbD 0, bitrate := BitVec.ofNat 9 rate,
    freq := BitVec.ofNat 16 hz, padded := b2.getLsbD 1, mode := m, modeExt := b3.extractLsb' 4 2,
    iStereo := decide (m = .jointStereo) && (decide (l ≠ .layer3) || b3.getLsbD 4),
    msStereo := decide (m = .jointStereo) && (decide (l = .layer3) && b3.getLsbD 5),
    copyright := b3.getLsbD 3, original := b3.getLsbD 2, emphasis := e }

/-- Bytes with an entry in each table pass the checks. -/
theorem decodeFields_extract {b1 b2 b3 : Byte} {v : Version} {l : Layer} {rate hz : Nat} {e : Emphasis}
    (hv : versionDec (b1.extractLsb' 3 2) = some v) (hl : layerDec (b1.extractLsb' 1 2) = some l)
    (hrate : (bitrateTab (versionClass v) l)[(b2.extractLsb' 4 4).toNat]? = some rate)
    (hhz : (freqTab v)[(b2.extractLsb' 2 2).toNat]? = some hz) (he : emphDec (b3.extractLsb' 0 2) = some e) :
    decodeFields standard (extract b1 b2 b3) = .ok (headerOf v l rate hz e b2 b3) := by
  have hi : (b3.extractLsb' 4 2).getLsbD 0 = b3.getLsbD 4 := by simp
  have hm : (b3.extractLsb' 4 2).getLsbD 1 = b3.getLsbD 5 := by simp
  simp only [decodeFields, standard, extract_vcode, hv, extract_lcode, hl, extract_bridx, hrate, extract_fridx, hhz,
    extract_ecode, he, extract_pbit, extract_pad, extract_mcode, extract_mext, extract_copy, extract_orig,
    intensityFlag_eq, msFlag_eq, hi, hm, headerOf]

/-- The check that fails first, in the order of R112. -/
def FirstReserved (f : RawHeader) : HdrReason → Prop
  | .version => versionDec f.vcode = none
  | .layer => versionDec f.vcode ≠ none ∧ layerDec f.lcode = none
  | .bitrate => versionDec f.vcode ≠ none ∧ layerDec f.lcode ≠ none ∧ f.bridx = 15
  | .frequency => versionDec f.vcode ≠ none ∧ layerDec f.lcode ≠ none ∧ f.bridx ≠ 15 ∧ f.fridx = 3
  | .emphasis => versionDec f.vcode ≠ none ∧ layerDec f.lcode ≠ none ∧ f.bridx ≠ 15 ∧ f.fridx ≠ 3 ∧ f.ecode = 2

/-- A bitrate code other than 15 has its entry in every bitrate table (R117). -/
theorem exists_bitrate {i : BitVec 4} (h : i ≠ 15) (c : VersionClass) (l : Layer) :
    ∃ rate, (bitrateTab c l)[i.toNat]? = some rate :=
  Option.ne_none_iff_exists'.1 (mt (bitrateTab_none c l i).1 h)

/-- A frequency code other than 3 has its entry in every frequency table (R118). -/
theorem exists_freq {i : BitVec 2} (h : i ≠ 3) (v : Version) : ∃ hz, (freqTab v)[i.toNat]? = some hz :=
  Option.ne_none_iff_exists'.1 (mt (freqTab_none v i).1 h)

/-- The first check that fails gives the reason: each check before it found its table entry. -/
theorem decodeFields_of_firstReserved {f : RawHeader} {r : HdrReason} (h : FirstReserved f r) :
    decodeFields standard f = .error r := by
  cases r with
  | version =>
    have hv : versionDec f.vcode = none := h
    simp only [decodeFields, standard, hv]
  | layer =>
    obtain ⟨hv, hl⟩ := h
    obtain ⟨v, hv⟩ := Option.ne_none_iff_exists'.1 hv
    simp only [decodeFields, standard, hv, hl]
  | bitrate =>
    obtain ⟨hv, hl, hrate⟩ := h
    obtain ⟨v, hv⟩ := Option.ne_none_iff_exists'.1 hv
    obtain ⟨l, hl⟩ := Option.ne_none_iff_exists'.1 hl
    simp only [decodeFields, standard, hv, hl, (bitrateTab_none (versionClass v) l f.bridx).2 hrate]
  | frequency =>
    obtain ⟨hv, hl, hrate, hhz⟩ := h
    obtain ⟨v, hv⟩ := Option.ne_none_iff_exists'.1 hv
    obtain ⟨l, hl⟩ := Option.ne_none_iff_exists'.1 hl
    obtain ⟨rate, hrate⟩ := exists_bitrate hrate (versionClass v) l
    simp only [decodeFields, standard, hv, hl, hrate, (freqTab_none v f.fridx).2 hhz]
  | emphasis =>
    obtain ⟨hv, hl, hrate, hhz, he⟩ := h
    obtain ⟨v, hv⟩ := Option.ne_none_iff_exists'.1 hv
    obtain ⟨l, hl⟩ := Option.ne_none_iff_exists'.1 hl
    obtain ⟨rate, hrate⟩ := exists_bitrate hrate (versionClass v) l
    obtain ⟨hz, hhz⟩ := exists_freq hhz v
    simp only [decodeFields, standard, hv, hl, hrate, hhz, (emphDec_none f.ecode).2 he]

/-! ## How `DECHDR` ends (R110) -/

/-- With nothing buffered, the next stream bit is the first of byte `POS` (R16). -/
theorem bp_of_cnt_zero {s : State} (h : s.cnt = 0) : s.bp = 8 * s.pos.toNat := by
  rw [State.bp, h]; rfl

/-- For its 24 bits `DECHDR` fetches three bytes when the buffer is empty. -/
theorem refill_threeBytes {s : State} (h : s.cnt = 0) : standard.refill 24 s.cnt.toNat = 3 := by
  rw [h]; rfl

/-- An empty buffer is an aligned cursor (R13). -/
theorem aligned_of_cnt_zero {s : State} (h : s.cnt = 0) : s.aligned = true := by
  rw [State.aligned, h]; rfl

/-- A read of the three bytes answers their 24 bits and leaves the cursor behind them. -/
theorem readField_threeBytes {s : State} (hcnt : s.cnt = 0) (hr : Readable s.src s.pos.toNat (s.pos.toNat + 3)) :
    readField standard 24 s = .ok (s.src.field (8 * s.pos.toNat) 24, setCursor standard (s.pos.toNat + 3) 0 s) := by
  rw [readField_ok (by rwa [refill_threeBytes hcnt]), refill_threeBytes hcnt, bp_of_cnt_zero hcnt,
    show s.cnt.toNat + 8 * 3 - 24 = 0 by rw [hcnt]; rfl]

/-- With its three bytes readable, `DECHDR` loads what they decode to, the cursor behind them. -/
theorem decHdrRule_of_readable {s : State} (hcnt : s.cnt = 0) (hr : Readable s.src s.pos.toNat (s.pos.toNat + 3)) :
    decHdrRule standard s =
      loadHeader standard (s.src.field (8 * s.pos.toNat) 24) (setCursor standard (s.pos.toNat + 3) 0 s) := by
  rw [decHdrRule, if_pos (aligned_of_cnt_zero hcnt), readField_threeBytes hcnt hr]

/-- A `DECHDR` whose bytes cannot be read raises what the read raises, and nothing else changes. -/
theorem decHdrRule_of_readField_error {c : Config} {s : State} {x : Exn} (ha : s.aligned = true)
    (h : readField c 24 s = .error x) : decHdrRule c s = raise x s := by
  rw [decHdrRule, if_pos ha, h]

theorem loadHeader_of_ok {c : Config} {w : Nat} {h : Header} (hw : decodeWindow c w = .ok h) (s : State) :
    loadHeader c w s = endOk { forgetLayer1 { s with hdrValid := false, l1Valid := false } with
      hdr := h, hdrValid := true } := by
  rw [loadHeader, hw]

theorem loadHeader_of_error {c : Config} {w : Nat} {r : HdrReason} (hw : decodeWindow c w = .error r) (s : State) :
    loadHeader c w s =
      raise (.invalidHeader r) (forgetHeader (forgetLayer1 { s with hdrValid := false, l1Valid := false })) := by
  rw [loadHeader, hw]

/-- Settles O24: the three bytes are the window `DECHDR` decodes (`decodeWindow_field`), and they pass the checks. -/
theorem decHdrBuildsTheHeaderOfTheThreeBytes : Obligations.DecHdrBuildsTheHeaderOfTheThreeBytes := by
  intro s v l rate hz e hrun hcnt hr b1 b2 b3 hv hl hrate hhz he m
  have hw := (decodeWindow_field standard s.src s.pos.toNat).trans (decodeFields_extract hv hl hrate hhz he)
  rw [exec_running hrun, ruleOf, decHdrRule_of_readable hcnt hr, loadHeader_of_ok hw, setCursor_zero]
  exact ⟨_, _, _, _, rfl⟩

/-- Settles O25: the first reserved field is the check that fails (`decodeFields_of_firstReserved`), after the bytes are
consumed. -/
theorem decHdrReportsTheFirstReservedField : Obligations.DecHdrReportsTheFirstReservedField := by
  intro s r hrun hcnt hr b1 b2 b3 badVersion badLayer badBitrate badFrequency badEmphasis hbad
  have hfirst : FirstReserved (extract b1 b2 b3) r := by
    cases r <;> simp only [FirstReserved, extract_vcode, extract_lcode, extract_bridx, extract_fridx, extract_ecode] <;>
      exact hbad
  have hw := (decodeWindow_field standard s.src s.pos.toNat).trans (decodeFields_of_firstReserved hfirst)
  rw [exec_running hrun, ruleOf, decHdrRule_of_readable hcnt hr, loadHeader_of_error hw, setCursor_zero]
  exact ⟨_, _, _, _, _, rfl⟩

/-- Settles O26: the first byte that does not answer decides what the read raises (`readField_error`). -/
theorem decHdrConsumesNothingWhenItCannotRead : Obligations.DecHdrConsumesNothingWhenItCannotRead := by
  intro s e hrun hcnt hlo hhi hr
  have hfetch : e < s.pos.toNat + standard.refill 24 s.cnt.toNat := by rw [refill_threeBytes hcnt]; exact hhi
  have ha := aligned_of_cnt_zero hcnt
  rw [exec_running hrun, ruleOf]
  refine ⟨fun herr => ?_, fun hne hlen => ?_⟩
  · rw [decHdrRule_of_readField_error ha (readField_error hlo hfetch hr (.inl ⟨rfl, herr⟩)), raise_ioFailure]
  · rw [decHdrRule_of_readField_error ha (readField_error hlo hfetch hr (.inr ⟨rfl, hne, hlen⟩)), raise_endOfStream]

end Sys2Proof.Machine
end

section
/-! PROOFS. The frame-length calculator (43_framelength.md): all that `FLEN` does, and the bound on its value. -/

namespace Sys2Proof.Machine

/-! ## What `FLEN` does (R140) -/

/-- `K` is 12 for Layer I and 144 for the two other layers alike. -/
theorem lengthFactor_eq (l : Layer) : lengthFactor l = if l = .layer1 then 12 else 144 := by cases l <;> rfl

/-- The slot is 4 bytes for Layer I and 1 for the two other layers alike. -/
theorem paddingSlot_eq (l : Layer) : paddingSlot l = if l = .layer1 then 4 else 1 := by cases l <;> rfl

theorem fLenRule_of_header {s : State} (h : s.hdrValid = true) :
    fLenRule standard s = { s with res := BitVec.ofNat 64 (frameLength s.hdr), ended := .ok } := by
  rw [fLenRule, if_pos h, posWord_standard, endOk_eq]

theorem fLenRule_of_no_header {c : Config} {s : State} (h : s.hdrValid = false) :
    fLenRule c s = raise (.contract .noHeader) s := by
  rw [fLenRule, h, if_neg Bool.false_ne_true]

theorem exec_fLen_of_header {s : State} (hrun : s.halted = false) (h : s.hdrValid = true) :
    exec .fLen s = .next { s with res := BitVec.ofNat 64 (frameLength s.hdr), ended := .ok } := by
  rw [exec_running hrun, ruleOf, fLenRule_of_header h]

/-- Settles O27: with a header `RES` gets `frameLength`, whose two layer constants are the statement's; without one
`FLEN` raises before it writes anything. -/
theorem fLenFollowsItsRule : Obligations.FLenFollowsItsRule := by
  intro s hrun
  refine ⟨fun h => ?_, fun h => ?_⟩
  · rw [exec_fLen_of_header hrun h, frameLength, lengthFactor_eq, paddingSlot_eq]
  · rw [exec_running hrun, ruleOf, fLenRule_of_no_header h, raise_contract]

/-! ## The bound (R140, R190) -/

/-- The exact length, not yet rounded down, with the slot of a padded frame: no bitrate and frequency of one version and
layer give more than 2881 bytes. MPEG 2.5, Layer II or III, 160 kbit/s and 8 kHz give just that. -/
theorem exactLength_le : ∀ (v : Version) (l : Layer), ∀ rate ∈ bitrateTab (versionClass v) l, ∀ hz ∈ freqTab v,
    lengthFactor l * 1000 * rate + paddingSlot l * hz ≤ 2881 * hz := by
  intro v l
  cases v <;> cases l <;> decide

theorem freqTab_pos (v : Version) : ∀ hz ∈ freqTab v, 0 < hz := by cases v <;> decide

/-- Rounding down and leaving the slot out only shorten the exact length. -/
theorem frameLength_le {h : Header} (hrate : h.bitrate.toNat ∈ bitrateTab (versionClass h.version) h.layer)
    (hhz : h.freq.toNat ∈ freqTab h.version) : frameLength h ≤ 2881 := by
  have hpos := freqTab_pos _ _ hhz
  have hslot : (if h.padded then paddingSlot h.layer else 0) ≤ paddingSlot h.layer := by
    split
    · exact le_rfl
    · exact Nat.zero_le _
  calc frameLength h
      ≤ lengthFactor h.layer * 1000 * h.bitrate.toNat / h.freq.toNat + paddingSlot h.layer :=
        Nat.add_le_add_left hslot _
    _ = (lengthFactor h.layer * 1000 * h.bitrate.toNat + paddingSlot h.layer * h.freq.toNat) / h.freq.toNat :=
        (Nat.add_mul_div_right _ _ hpos).symm
    _ ≤ 2881 := Nat.div_le_of_le_mul ((exactLength_le _ _ _ hrate _ hhz).trans_eq (Nat.mul_comm _ _))

/-- Settles O28: a valid header's frequency is not 0, so `base` is the floor, and its length fits in `RES` by the bound. -/
theorem frameLengthIsTheFloorAndAtMost2881 : Obligations.FrameLengthIsTheFloorAndAtMost2881 := by
  intro s hinv hrun hv
  obtain ⟨hrate, hhz, -⟩ := hinv.header hv
  have hle := frameLength_le hrate hhz
  have hres : (BitVec.ofNat 64 (frameLength s.hdr)).toNat = frameLength s.hdr := by
    rw [BitVec.toNat_ofNat, Nat.mod_eq_of_lt (by omega)]
  rw [← lengthFactor_eq, ← paddingSlot_eq]
  exact ⟨_, lengthFactor s.hdr.layer * 1000 * s.hdr.bitrate.toNat / s.hdr.freq.toNat, exec_fLen_of_header hrun hv, hres,
    Nat.div_mul_le_self _ _, Nat.lt_mul_of_div_lt (Nat.lt_succ_self _) (freqTab_pos _ _ hhz), hres.trans_le hle⟩

end Sys2Proof.Machine
end

section
/-! PROOFS. The Layer I decoder and the requantizer (44_layer1.md): how `DECL1` ends, all that `REQUANT` does, and the
arithmetic of `REQ`. -/

namespace Sys2Proof.Machine

/-! ## The first byte that does not answer (R209) -/

section
variable {src : Source} {lo e e' : Nat} {x : Exn}

/-- Of two bytes that do not answer, with every byte before each readable, neither comes before the other. -/
theorem firstFailure_unique (hlo : lo ≤ e) (hlo' : lo ≤ e') (hr : Readable src lo e) (hr' : Readable src lo e')
    (hf : ¬ (e < src.len ∧ e ∉ src.errs)) (hf' : ¬ (e' < src.len ∧ e' ∉ src.errs)) : e = e' := by
  rcases Nat.lt_trichotomy e e' with hlt | heq | hgt
  · exact absurd (hr' e hlo hlt) hf
  · exact heq
  · exact absurd (hr e' hlo' hgt) hf'

variable (h : x = .ioFailure ∧ e ∈ src.errs ∨ x = .endOfStream ∧ e ∉ src.errs ∧ src.len ≤ e)
include h

/-- A byte that raises does not answer (R41, R80). -/
theorem not_answers_of_raises : ¬ (e < src.len ∧ e ∉ src.errs) := by
  rintro ⟨hlen, herr⟩
  rcases h with ⟨-, hmem⟩ | ⟨-, -, hge⟩
  · exact herr hmem
  · omega

/-- An `ERR` wins over the end of the source in what a byte ends the command with (R41, R203, R204). -/
theorem completion_of_raises : x.completion = if e ∈ src.errs then .ioFail else .eos := by
  rcases h with ⟨rfl, hmem⟩ | ⟨rfl, hmem, -⟩
  · rw [if_pos hmem]; rfl
  · rw [if_neg hmem]; rfl

end

/-! ## How `DECL1` ends (R150, R157) -/

theorem decL1Rule_of_no_header {c : Config} {s : State} (h : ¬ (s.hdrValid = true ∧ s.hdr.layer = .layer1)) :
    decL1Rule c s = raise (.contract .noHeader) s := by
  rcases decL1Rule_cases c s with ⟨-, hrule⟩ | ⟨hv, -⟩
  · exact hrule
  · exact absurd hv h

/-- A frame's samples are not negative and far below `2^31` (`frameSamp_le`), so an entry of `SAMP` holds them whole. -/
theorem toInt_ofInt_frameSamp (src : Source) (h : Header) (b ch sb t : Nat) :
    (BitVec.ofInt 32 (frameSamp standard src h b ch sb t)).toInt = frameSamp standard src h b ch sb t := by
  obtain ⟨h0, hle⟩ := frameSamp_le src h b ch sb t
  exact BitVec.toInt_ofInt_eq_self (by decide) (by omega) (by omega)

/-- Settles O29: with every byte of the audio data readable, only the ending with the frame's arrays is left
(`decL1Rule_at_cases`), and its samples are what `SAMP` holds as signed numbers. -/
theorem decL1DecodesTheFrame : Obligations.DecL1DecodesTheFrame := by
  intro s hI hrun hv hlayer hr
  rw [exec_running hrun, ruleOf]
  rcases decL1Rule_at_cases hI.cursorInv with ⟨hno, -⟩ | ⟨t, hrule, -, harrays⟩ |
    ⟨x, b, e, -, -, -, -, -, hbp, ⟨-, hbe, -⟩, -, he, -, hx⟩
  · exact absurd ⟨hv, hlayer⟩ hno
  · refine ⟨_, congrArg _ hrule, rfl, fun ch sb => ?_⟩
    obtain ⟨halloc, hscf, hsamp⟩ := harrays ch sb
    exact ⟨halloc, hscf, fun q => (congrArg BitVec.toInt (hsamp q)).trans (toInt_ofInt_frameSamp ..)⟩
  · have hpos := hI.cursorInv.pos_eq
    exact absurd (hr e (by omega) (by omega)) (not_answers_of_raises hx)

/-- Settles O30: the frame's end was not reached, since byte `e` before it does not answer; so a field was cut short, and
the byte that cut it is `e`, for both are the first that do not answer (`firstFailure_unique`). -/
theorem decL1CutShortKeepsTheFieldsBefore : Obligations.DecL1CutShortKeepsTheFieldsBefore := by
  intro s e hI hrun hv hlayer hlo hhi hr hfail
  rw [exec_running hrun, ruleOf]
  rcases decL1Rule_at_cases hI.cursorInv with ⟨hno, -⟩ | ⟨t, -, hall, -⟩ |
    ⟨x, b, e', al, sc, sa, d, hrule, hbp, hlast, hwidth, -, hr', hx⟩
  · exact absurd ⟨hv, hlayer⟩ hno
  · exact absurd (hall e hlo hhi) hfail
  · have hpos := hI.cursorInv.pos_eq
    have ⟨_, hreached, _⟩ := hlast
    obtain rfl : e = e' := firstFailure_unique hlo (by omega) hr hr' hfail (not_answers_of_raises hx)
    exact ⟨b, x.completion, al, sc, sa, d, congrArg _ hrule, completion_of_raises hx, hlast, hbp, hwidth⟩

/-- Settles O31: the entry test comes before anything is written (`decL1Rule_of_no_header`). -/
theorem decL1NeedsALayerIHeader : Obligations.DecL1NeedsALayerIHeader := by
  intro s hrun hno
  rw [exec_running hrun, ruleOf, decL1Rule_of_no_header fun ⟨hv, hlayer⟩ => hno hv hlayer, raise_contract]

/-! ## `REQUANT` (R161) -/

theorem requantRefused_iff {code alloc : Nat} :
    requantRefused code alloc = true ↔ alloc = 0 ∨ 2 ^ (alloc + 1) ≤ code := by
  rw [requantRefused, Bool.or_eq_true, beq_iff_eq, decide_eq_true_iff]

/-- Settles O32: `REQUANT` refuses its operands (`requantRefused_iff`) or writes `RES` alone. -/
theorem requantFollowsItsRule : Obligations.RequantFollowsItsRule := by
  intro code alloc scf s hrun
  rw [exec_running hrun, ruleOf]
  refine ⟨fun hbad => ?_, fun ha hc => ?_⟩
  · rw [requantRule, if_pos (requantRefused_iff.2 hbad), raise_contract]
  · have hgood : ¬ requantRefused code alloc = true := by rw [requantRefused_iff]; omega
    rw [requantRule, if_neg hgood, resOfSample_standard, endOk_eq]
    rfl

/-! ## The rounding of `REQ` (R160, R162) -/

@[simp] theorem fractional_zero : fractional 0 = 0 := rfl

/-- Rounding `a / m` to an integer: with `m` odd there is no tie, since `2 * a` is then no odd multiple of `m`. -/
theorem nearest_of_odd {m : Nat} (a : Nat) (hm : m % 2 = 1) :
    2 * a < (2 * ((2 * a + m) / (2 * m)) + 1) * m ∧ 2 * ((2 * a + m) / (2 * m)) * m < 2 * a + m := by
  have hdiv := Nat.div_add_mod (2 * a + m) (2 * m)
  have hmod := Nat.mod_lt (2 * a + m) (show 2 * m > 0 by omega)
  generalize (2 * a + m) / (2 * m) = r at *
  have hr : 2 * m * r = 2 * (r * m) := by ring
  have hup : (2 * r + 1) * m = 2 * (r * m) + m := by ring
  have hlow : 2 * r * m = 2 * (r * m) := by ring
  omega

/-- Settles O33: `F` is `fractional`, `r` is `roundedFraction`, which rounds by an odd divisor (`nearest_of_odd`) and stays
in range (`roundedFraction_le`). -/
theorem requantizerRoundsToTheNearestInteger : Obligations.RequantizerRoundsToTheNearestInteger := by
  intro code alloc scf ha _ hc hs
  have hodd : (2 ^ (alloc + 1) - 1) % 2 = 1 :=
    Nat.two_pow_sub_one_mod_two.trans (Nat.one_mod_two_pow_eq_one.2 (Nat.succ_pos alloc))
  obtain ⟨hbelow, habove⟩ := nearest_of_odd (2 ^ (alloc + 1) * fractional code + 2) hodd
  refine ⟨fractional code, roundedFraction (alloc + 1) (fractional code), fun h0 => ?_, fun k => fractional_add, rfl,
    hbelow, habove, ?_⟩
  · rw [h0, fractional_zero]
  · exact Nat.mul_le_mul (roundedFraction_le ha (fractional_lt hc)) hs

end Sys2Proof.Machine
end

section
/-! PROOFS. The host sequences (45_host_sequences.md): where `HASID3` and `SKIPID3` leave the cursor, and the shape of the
track that `DECODE` returns. -/

namespace Sys2Proof.Machine

/-! ## Commands at a byte boundary -/

/-- The block runs, and its cursor stands at byte `p` of the source `src` with nothing buffered. -/
structure AtByte (src : Source) (p : Nat) (s : State) : Prop where
  running : s.halted = false
  source : s.src = src
  len : src.len < 2 ^ 63
  pos : s.pos.toNat = p
  cnt : s.cnt = 0

theorem State.Inv.atByte {s : State} (h : s.Inv) (hrun : s.halted = false) (hcnt : s.cnt = 0) :
    AtByte s.src s.pos.toNat s := ⟨hrun, rfl, wf_len h.source, rfl, hcnt⟩

section
variable {src : Source} {p : Nat} {s : State} (h : AtByte src p s)
include h

/-- A command that moves the cursor to byte `q`, writes `RES` and ends `OK` leaves the block standing there. -/
theorem AtByte.moved {q : Nat} (hq : q ≤ src.len) (r : BitVec 64) :
    AtByte src q (endOk { setCursor standard q 0 s with res := r }) := by
  have hlen := h.len
  refine ⟨h.running, h.source, h.len, ?_, rfl⟩
  rw [endOk_pos, setCursor_zero, BitVec.toNat_ofNat, Nat.mod_eq_of_lt (by omega)]

/-- A skip inside the source leads to its byte (R85, R86). -/
theorem AtByte.skipBytes {k : Int} {q : Nat} (hk : (p : Int) + k = q) (hq : q ≤ src.len) :
    ∃ t, exec (.skipBytes k) s = .next t ∧ AtByte src q t ∧ t.ended = .ok := by
  have ⟨hrun, hsrc, _, hpos, _⟩ := h
  have hmove : exec (.skipBytes k) s = .next (endOk (setCursor standard q 0 s)) := by
    rw [exec_running hrun, ruleOf]
    rcases skipBytesRule_cases standard k s with ⟨hneg, -⟩ | ⟨hpast, -⟩ | ⟨-, -, e⟩
    · omega
    · rw [hsrc] at hpast; omega
    · rw [e, hpos, hk, Int.toNat_natCast]
  exact ⟨_, hmove, h.moved hq s.res, rfl⟩

/-- A read of whole bytes puts them in `RES` and leads behind them (R80, R81). -/
theorem AtByte.readBytes {m : Nat} (h1 : 1 ≤ m) (h8 : m ≤ 8) (hr : Readable src p (p + m)) :
    ∃ t, exec (.readBits (8 * m)) s = .next t ∧ AtByte src (p + m) t ∧ t.ended = .ok ∧
      t.res.toNat = src.field (8 * p) (8 * m) := by
  have ⟨hrun, hsrc, _, hpos, hcnt⟩ := h
  have hrefill : standard.refill (8 * m) s.cnt.toNat = m := by
    rw [hcnt, standard_refill]
    show (8 * m - 0 + 7) / 8 = m
    omega
  have hleft : s.cnt.toNat + 8 * m - 8 * m = 0 := by rw [Nat.add_sub_cancel, hcnt]; rfl
  have hread := readField_ok (c := standard) (n := 8 * m) (s := s) (by rwa [hrefill, hpos, hsrc])
  rw [hrefill, hleft, bp_of_cnt_zero hcnt, hpos, hsrc] at hread
  have hend : p + m ≤ src.len := by
    have := (hr (p + m - 1) (by omega) (by omega)).1
    omega
  refine ⟨_, (exec_running hrun).trans (congrArg _ (readBitsRule_of_readField_ok (by omega) (by omega) hread)),
    h.moved hend _, rfl, ?_⟩
  rw [endOk_res, posWord_standard, BitVec.toNat_ofNat]
  exact Nat.mod_eq_of_lt ((field_lt src _ _).trans_le (Nat.pow_le_pow_right (by omega) (by omega)))

end

/-! ## The numbers that bytes make (R7) -/

/-- One more byte read is the next eight low bits of a field. -/
theorem field_bytes_succ (src : Source) (p m : Nat) :
    src.field (8 * p) (8 * (m + 1)) = src.field (8 * p) (8 * m) * 256 + (src.byteAt (p + m)).toNat := by
  rw [Nat.mul_succ, field_add, ← Nat.mul_add, field_byte]
  rfl

theorem field_oneByte (src : Source) (p : Nat) : src.field (8 * p) (8 * 1) = (src.byteAt p).toNat := field_byte src p

/-- One more byte joined to a word is its next eight low bits. -/
theorem toNat_append_byte {n : Nat} (x : BitVec n) (b : Byte) : (x ++ b).toNat = x.toNat * 256 + b.toNat := by
  rw [BitVec.toNat_append, ← Nat.shiftLeft_add_eq_or_of_lt b.isLt, Nat.shiftLeft_eq]

/-! ## `HASID3` (R181) -/

/-- A command that ends is followed by the rest of the sequence. -/
theorem issue_of_next {α : Type} {i : Instr} {s t : State} {rest : State → HostRun α} (h : exec i s = .next t) :
    issue i s rest = rest t := by
  rw [issue, h]

/-- The three bytes are `0x494433` exactly when each is its letter of "ID3". -/
theorem field_eq_id3_iff (src : Source) (p : Nat) :
    src.field (8 * p) (8 * 3) = 0x494433 ↔
      src.byteAt p = 0x49 ∧ src.byteAt (p + 1) = 0x44 ∧ src.byteAt (p + 2) = 0x33 := by
  have h0 := (src.byteAt p).isLt
  have h1 := (src.byteAt (p + 1)).isLt
  have h2 := (src.byteAt (p + 2)).isLt
  rw [field_bytes_succ src p 2, field_bytes_succ src p 1, field_oneByte, ← BitVec.toNat_inj, ← BitVec.toNat_inj,
    ← BitVec.toNat_inj]
  show _ ↔ _ = 73 ∧ _ = 68 ∧ _ = 51
  omega

section
variable {s t : State} (hread : exec (.readBits 24) s = .next t) (hok : t.ended = .ok)
include hread hok

theorem hasId3_of_tag (hres : t.res = 0x494433) : hasId3 s = .next (.yes, t) := by
  rw [hasId3, issue_of_next hread, if_neg (by simp [hok]), if_neg (by simp [hok]), if_pos hres]

theorem hasId3_of_no_tag {u : State} (hres : t.res ≠ 0x494433) (hback : exec (.skipBytes (-3)) t = .next u) :
    hasId3 s = .next (.no, u) := by
  rw [hasId3, issue_of_next hread, if_neg (by simp [hok]), if_neg (by simp [hok]), if_neg hres, issue_of_next hback]

end

/-- Settles O46: the read leads behind the three bytes, which `RES` holds (`field_eq_id3_iff`), and the skip leads back. -/
theorem hasId3ReadsThreeBytesAndRewinds : Obligations.HasId3ReadsThreeBytesAndRewinds := by
  intro s hI hrun hcnt hr tag
  obtain ⟨t, hread, hat, hok, hres⟩ := (hI.atByte hrun hcnt).readBytes (m := 3) (by omega) (by omega) hr
  have htag : t.res = 0x494433 ↔ tag := by rw [← BitVec.toNat_inj, hres]; exact field_eq_id3_iff ..
  by_cases h : tag
  · exact ⟨t, hat.cnt, hok, fun _ => ⟨hasId3_of_tag hread hok (htag.2 h), hat.pos⟩, fun hno => absurd h hno⟩
  · have hpos : s.pos.toNat ≤ s.src.len := hI.cursorInv.pos_le
    obtain ⟨u, hback, hat', hok'⟩ := hat.skipBytes (k := -3) (q := s.pos.toNat) (by omega) hpos
    exact ⟨u, hat'.cnt, hok', fun hyes => absurd hyes h,
      fun _ => ⟨hasId3_of_no_tag hread hok (mt htag.1 h) hback, BitVec.eq_of_toNat_eq hat'.pos⟩⟩

/-! ## `SKIPID3` (R182) -/

/-- Settles O47: each byte is eight bits of the word, and its low seven are taken. -/
theorem synchsafeSizeDropsTheHighBits : Obligations.SynchsafeSizeDropsTheHighBits := by
  intro a b c d
  have ha := a.isLt
  have hb := b.isLt
  have hc := c.isLt
  have hd := d.isLt
  have hw : (a ++ b ++ c ++ d).toNat = ((a.toNat * 256 + b.toNat) * 256 + c.toNat) * 256 + d.toNat := by
    rw [toNat_append_byte, toNat_append_byte, toNat_append_byte]
  simp only [synchsafe, BitVec.extractLsb'_toNat, hw, Nat.shiftRight_eq_div_pow]
  omega

/-- Four bytes in `RES` are, as a word of 32 bits, those bytes joined. -/
theorem setWidth_fourBytes {src : Source} {p : Nat} {w : BitVec 64} (h : w.toNat = src.field (8 * p) (8 * 4)) :
    w.setWidth 32 = src.byteAt p ++ src.byteAt (p + 1) ++ src.byteAt (p + 2) ++ src.byteAt (p + 3) := by
  have hlt := field_lt src (8 * p) (8 * 4)
  apply BitVec.eq_of_toNat_eq
  rw [BitVec.toNat_setWidth, h, Nat.mod_eq_of_lt hlt, toNat_append_byte, toNat_append_byte, toNat_append_byte,
    field_bytes_succ src p 3, field_bytes_succ src p 2, field_bytes_succ src p 1, field_oneByte]

/-- The footer test on a flags byte in `RES` reads its bit 4 (C3 of 90_conflicts.md). -/
theorem footer_iff {w : BitVec 64} {b : Byte} (h : w.toNat = b.toNat) : w &&& 0x10 ≠ 0 ↔ b.getLsbD 4 = true := by
  obtain rfl : w = b.setWidth 64 := BitVec.eq_of_toNat_eq (by rw [h, BitVec.toNat_setWidth]; omega)
  revert b
  decide

/-- A demanded command that ends `OK` is followed by the rest of the sequence. -/
theorem demand_of_ok {i : Instr} {s t : State} {rest : State → HostRun SeqEnd} (h : exec i s = .next t)
    (hok : t.ended = .ok) : demand i s rest = rest t := by
  rw [demand, issue_of_next h, if_neg (by simp [hok]), if_neg (by simp [hok])]

/-- Settles O48: each of the four commands leads to the byte where the next one starts, and the skip at the end is by what
the flags byte and the size bytes say. -/
theorem skipId3LandsAfterTheTag : Obligations.SkipId3LandsAfterTheTag := by
  intro s hI hrun hcnt hr byte size hin
  have hs := hI.atByte hrun hcnt
  obtain ⟨t0, h0, hat0, hok0⟩ := hs.skipBytes (k := 2) (q := s.pos.toNat + 2) rfl (by omega)
  obtain ⟨t1, h1, hat1, hok1, hflags⟩ := hat0.readBytes (m := 1) le_rfl (by omega) (readable_mono hr le_rfl (by omega))
  obtain ⟨t2, h2, hat2, hok2, hsize⟩ :=
    hat1.readBytes (m := 4) (by omega) (by omega) (readable_mono hr (by omega) le_rfl)
  have hskip : tagSkip t1.res t2.res = size := by
    rw [tagSkip, setWidth_fourBytes hsize]
    simp only [footer_iff (hflags.trans (field_oneByte ..))]
    rfl
  obtain ⟨t3, h3, hat3, hok3⟩ := hat2.skipBytes (k := tagSkip t1.res t2.res) (q := s.pos.toNat + 7 + size)
    (by rw [hskip]; omega) hin
  refine ⟨t3, ?_, hat3.pos, hat3.cnt, hok3⟩
  rw [skipId3, demand_of_ok h0 hok0, demand_of_ok h1 hok1, demand_of_ok h2 hok2, demand_of_ok h3 hok3]

/-! ## Sequences that return (R180) -/

/-- The sequence ends with an answer, which has the property `P`. -/
def Returns {α : Type} (P : α → Prop) (m : HostRun α) : Prop := ∃ a t, m = .next (a, t) ∧ P a

section
variable {α β : Type} {P : α → Prop} {Q : β → Prop}

theorem returns_next {a : α} (h : P a) (t : State) : Returns P (.next (a, t)) := ⟨a, t, rfl, h⟩

/-- Every command ends (R201), so a sequence returns when its rest does in whatever state the command leaves. -/
theorem returns_issue {i : Instr} {s : State} {rest : State → HostRun α} (h : ∀ t, Returns P (rest t)) :
    Returns P (issue i s rest) := by
  rw [issue_of_next (exec_eq i s)]
  exact h _

theorem returns_andContinue {m : HostRun α} {rest : α → State → HostRun β} (hm : Returns P m)
    (h : ∀ a t, P a → Returns Q (rest a t)) : Returns Q (andContinue m rest) := by
  obtain ⟨a, t, rfl, ha⟩ := hm
  exact h a t ha

theorem returns_ite {c : Prop} [Decidable c] {m m' : HostRun α} (h : c → Returns P m) (h' : ¬ c → Returns P m') :
    Returns P (if c then m else m') := by
  split
  · exact h ‹_›
  · exact h' ‹_›

end

theorem hasId3_returns (s : State) : Returns (fun _ => True) (hasId3 s) :=
  returns_issue fun t => returns_ite (fun _ => returns_next trivial t) fun _ =>
    returns_ite (fun _ => returns_next trivial t) fun _ =>
      returns_ite (fun _ => returns_next trivial t) fun _ => returns_issue fun u => returns_next trivial u

theorem demand_returns {i : Instr} {s : State} {rest : State → HostRun SeqEnd}
    (h : ∀ t, Returns (fun _ => True) (rest t)) : Returns (fun _ => True) (demand i s rest) :=
  returns_issue fun t => returns_ite (fun _ => returns_next trivial t) fun _ =>
    returns_ite (fun _ => returns_next trivial t) fun _ => h t

theorem skipId3_returns (s : State) : Returns (fun _ => True) (skipId3 s) :=
  demand_returns fun _ => demand_returns fun _ => demand_returns fun _ => demand_returns fun t => returns_next trivial t

/-- `RDCRC` gives a value exactly for a protected header, unless the stream ended (R183). -/
theorem readCrc_returns (s : State) :
    Returns (fun crc => crc ≠ .ended → ((crcField crc).isSome = true ↔ s.hdr.prot = true)) (readCrc s) :=
  returns_ite
    (fun hp => returns_issue fun t =>
      returns_ite (fun _ => returns_next (fun hne => absurd rfl hne) t) fun _ =>
        returns_next (fun _ => by simp [crcField, hp]) t)
    fun hp => returns_next (fun _ => by simp [crcField, hp]) s

/-! ## `DECODE` (R184, R185) -/

/-- Samples and CRC are where R185 says: planes exactly for Layer I, one per channel, and a CRC exactly for a protected
header. -/
def Frame.WellShaped (f : Frame) : Prop :=
  (f.samples.isSome = true ↔ f.header.layer = .layer1) ∧
    (∀ planes, f.samples = some planes → planes.length = if f.header.mode = .singleChannel then 1 else 2) ∧
    (f.crc.isSome = true ↔ f.header.prot = true)

/-- Every Frame of a track has the shape of R185. -/
def AllWellShaped (track : List Frame) : Prop := ∀ f ∈ track, f.WellShaped

theorem AllWellShaped.append {track : List Frame} {f : Frame} (h : AllWellShaped track) (hf : f.WellShaped) :
    AllWellShaped (track ++ [f]) := by
  intro g hg
  rcases List.mem_append.1 hg with hg | hg
  · exact h g hg
  · rwa [List.mem_singleton.1 hg]

section
variable {h : Header} {crc : Option (BitVec 16)} (hcrc : crc.isSome = true ↔ h.prot = true)
include hcrc

theorem wellShaped_layer1 (hl : h.layer = .layer1) (samp : SampArray) :
    Frame.WellShaped { header := h, crc := crc,
                       samples := some (if h.mode = .singleChannel then [samp[0]] else [samp[0], samp[1]]) } := by
  refine ⟨by simp [hl], fun planes hp => ?_, hcrc⟩
  obtain rfl := Option.some.inj hp
  split <;> rfl

theorem wellShaped_noSamples (hl : h.layer ≠ .layer1) : Frame.WellShaped { header := h, crc := crc, samples := none } :=
  ⟨by simp [hl], fun _ hp => absurd hp.symm (Option.some_ne_none _), hcrc⟩

end

/-- The loop returns, and appends well-shaped Frames only. -/
theorem decodeLoop_returns (rounds : Nat) (track : List Frame) (s : State) (h : AllWellShaped track) :
    Returns AllWellShaped (decodeLoop rounds track s) := by
  induction rounds generalizing track s with
  | zero => exact returns_next h s
  | succ rounds ih =>
    rw [decodeLoop]
    refine returns_issue fun _ => returns_issue fun _ => returns_ite (fun _ => returns_next h _) fun _ =>
      returns_issue fun u => ?_
    split
    next => exact ih track u h
    next =>
      refine returns_andContinue (readCrc_returns u) fun crc t hcrc =>
        returns_ite (fun _ => returns_next h t) fun hne => returns_ite (fun hl => ?_) fun hl => ?_
      · exact returns_issue fun v => returns_ite (fun _ => returns_next h v) fun _ =>
          ih _ v (h.append (wellShaped_layer1 (hcrc hne) hl v.samp))
      · exact ih _ t (h.append (wellShaped_noSamples (hcrc hne) hl))
    next => exact returns_next h u

theorem decodeFrames_returns (s : State) : Returns AllWellShaped (decodeFrames s) := by
  have hnil : AllWellShaped [] := fun _ hf => absurd hf List.not_mem_nil
  refine returns_andContinue (hasId3_returns s) fun id3 t _ => ?_
  cases id3 with
  | ended => exact returns_next hnil t
  | fatal => exact returns_next hnil t
  | no => exact decodeLoop_returns _ [] t hnil
  | yes =>
    exact returns_andContinue (skipId3_returns t) fun _ u _ =>
      returns_ite (fun _ => decodeLoop_returns _ [] u hnil) fun _ => returns_next hnil u

/-- Settles O49: the Frames are those of the loop (`decodeLoop_returns`), the identifier the one given. -/
theorem decodeReturnsFramesOfTheRightShape : Obligations.DecodeReturnsFramesOfTheRightShape := by
  intro ι id s
  obtain ⟨frames, t, e, hf⟩ := decodeFrames_returns s
  exact ⟨{ source := id, frames := frames }, t, by rw [decodeTrack, e]; rfl, rfl, hf⟩

/-! ## Witnesses: a tag with a footer, and a track with Frames of both shapes -/

/-- A tag whose footer ends exactly at the end. -/
theorem witness_SkipId3_footer : ∃ s : State, s.Inv ∧ s.halted = false ∧ s.cnt = 0 ∧
    Readable s.src (s.pos.toNat + 2) (s.pos.toNat + 7) ∧ (s.src.byteAt (s.pos.toNat + 2)).getLsbD 4 = true ∧
    s.pos.toNat + 7 + (synchsafe (s.src.byteAt (s.pos.toNat + 3) ++ s.src.byteAt (s.pos.toNat + 4) ++
      s.src.byteAt (s.pos.toNat + 5) ++ s.src.byteAt (s.pos.toNat + 6)) + 10) = s.src.len :=
  ⟨startAt 24 ([0x49, 0x44, 0x33, 4, 0, 0x10, 0, 0, 0, 2] ++ List.replicate 12 0x11) [], inv_of_check (by decide),
    by decide, by decide, readable_of_check (n := 5) (by decide) (by decide), by decide, by decide⟩

/-- Of each Frame of a run of `DECODE`, the header, the CRC and how many planes. -/
def frameShapes : HostRun (Track String) → List (Header × Option (BitVec 16) × Option Nat)
  | .next (track, _) => track.frames.map fun f => (f.header, f.crc, f.samples.map List.length)
  | _ => []

/-- A protected Layer II header with its CRC, then the unprotected single-channel Layer I frame of program P3. -/
theorem witness_Decode :
    frameShapes (decodeTrack "a.mp3" (start ([0xFF, 0xF5, 0xC4, 0x7B, 0xAB, 0xCD] ++ p3) [])) =
      [(layer2Header, some 0xABCD, none), (layer1Header .singleChannel, none, some 1)] := by decide +kernel

end Sys2Proof.Machine
end

section
/-! PROOFS. Exceptional conditions (60_exceptions.md): the prologue, the halt, which commands can end `EOS`, `IOFAIL` and
`CONTRACT`, and what they leave when they do. -/

namespace Sys2Proof.Machine

/-! ## Idle, and ending (R201, R213) -/

/-- Settles O4: with no action first in the host's list, `takeAction` answers the state itself. -/
theorem idleBlockKeepsItsState : Obligations.IdleBlockKeepsItsState := by
  intro s hin
  rw [step, takeAction, hin]

/-- Settles O34: every command is its rule behind the prologue, which answers a next state on both its ways. -/
theorem everyCommandEnds : Obligations.EveryCommandEnds :=
  fun i s => ⟨if s.halted then endHalted s else ruleOf standard i s, exec_eq i s⟩

/-! ## The common prologue (R205) -/

/-- A byte that is none of the nine in the `op` column of R62 names no command (R63 (a)). -/
theorem opcodeOf_eq_none {b : Byte} (h : b ∉ ([0x01, 0x02, 0x03, 0x04, 0x10, 0x11, 0x12, 0x20, 0x21] : List Byte)) :
    opcodeOf b = none := by
  have hbytes : b ∉ allOpcodes.map opByte := h
  rw [opcodeOf, List.find?_eq_none]
  intro o ho heq
  exact hbytes (beq_iff_eq.1 heq ▸ List.mem_map_of_mem ho)

theorem decode_badOpcode {w : CmdWord} (h : opcodeOf (opField w) = none) : decode w = .error .badOpcode := by
  rw [decode, h]

theorem decode_badOperand {w : CmdWord} {o : Opcode} (hop : opField w = opByte o) (h : w &&& opMask o ≠ opMatch o) :
    decode w = .error .badOperand := by
  rw [decode, hop, opcodeOf_opByte]
  exact if_neg h

/-- A halted block makes the halted test alone, whatever the word (R205, R206). -/
theorem runWord_halted {s : State} (h : s.halted = true) (w : CmdWord) : runWord w s = .next (endHalted s) := by
  unfold runWord
  split
  next => exact prologue_halted h _
  next => exact exec_halted h

/-- A word that is no command is rejected (R63, R205). -/
theorem runWord_of_decode_error {w : CmdWord} {r : Reject} (h : decode w = .error r) (s : State) :
    runWord w s = rejectWord r s := by
  rw [runWord, h]

section
variable {s : State} {w : CmdWord} {rest : List HostAction} (hin : s.inputs = .command w :: rest)
include hin

theorem step_halted (h : s.halted = true) : step s = .next { s with inputs := rest, ended := .ioFail } :=
  (step_of_command hin).trans (runWord_halted (s := { s with inputs := rest }) h w)

/-- A running block raises a contract violation for a word that is no command (R63, R205). -/
theorem step_rejected {r : Reject} (hrun : s.halted = false) (h : decode w = .error r) :
    step s = .next (raise (rejectExn r) { s with inputs := rest }) := by
  rw [step_of_command hin, runWord_of_decode_error h]
  exact prologue_running (s := { s with inputs := rest }) hrun _

end

/-- Settles O6: the halted test comes before decoding (`step_halted`); then `decode` makes the two encoding tests in
their order, and a word that passes both is run as the instruction of its row (`match_iff_decode_rowOf`). -/
theorem prologueOrdersItsTests : Obligations.PrologueOrdersItsTests := by
  intro s w rest hin
  refine ⟨step_halted hin, fun hrun hop => ?_, fun o hrun hop hbits => ?_, fun o _ _ hmatch => ?_⟩
  · exact step_rejected hin hrun (decode_badOpcode (opcodeOf_eq_none hop))
  · exact step_rejected hin hrun (decode_badOperand hop hbits)
  · obtain ⟨i, hdec, hrow⟩ := match_iff_decode_rowOf.1 hmatch
    exact ⟨i, hdec, hrow, stepRunsTheDecodedInstruction s w rest i hin hdec⟩

/-! ## The halt (R206) -/

/-- A command leaves the block halted when it was halted or ends `IOFAIL`. -/
theorem halted_iff_of_exec {i : Instr} {s t : State} (h : exec i s = .next t) :
    t.halted = true ↔ s.halted = true ∨ t.ended = .ioFail := by
  rcases exec_cases h with ⟨hh, rfl⟩ | ⟨-, rfl⟩
  · exact iff_of_true hh (.inl hh)
  · obtain ⟨u, c, e, hend⟩ := ruleOf_ends i s
    have hu : u.halted = s.halted := congrArg (BitVec.getLsbD · 5) hend.errs
    rw [e, halted_finish, hu, finish_ended, Bool.or_eq_true, decide_eq_true_iff]

theorem halted_applyReset (s : State) : (applyReset s).halted = false := (by decide : State.reset.halted = false)

/-- Settles O35: the halted test answers every word (`step_halted`), bit 5 of `ERRS` is set by `IOFAIL` alone and cleared
by no command (`halted_iff_of_exec`), and a reset clears `ERRS`. -/
theorem haltedBlockAnswersIoFailUntilReset : Obligations.HaltedBlockAnswersIoFailUntilReset := by
  refine ⟨fun s w rest hin hh => step_halted hin hh, fun i s t h => halted_iff_of_exec h, fun s t rest hin h => ?_⟩
  rw [step, takeAction, hin] at h
  cases h
  exact halted_applyReset _

/-! ## The end of the stream (R203) -/

/-- Settles O12: a read that succeeds has its last bit inside the source; with no `ERR` address, one that fails met an
address at or past `LEN` among those its bits lie in (`readField_at_cases`). -/
theorem readBitsEndsEosExactlyPastTheEnd : Obligations.ReadBitsEndsEosExactlyPastTheEnd := by
  intro n s hI hrun herrs h1 h64
  rw [exec_running hrun, ruleOf]
  rcases readField_at_cases hI.cursorInv n with ⟨-, hend, hread⟩ | ⟨x, e, hread, -, he, -, hx⟩
  · rw [readBitsRule_of_readField_ok h1 h64 hread]
    refine iff_of_false ?_ (by omega)
    rintro ⟨t, ht, heos⟩
    cases ht
    cases heos
  · rw [readBitsRule_of_readField_error h1 h64 hread]
    rcases hx with ⟨-, hmem⟩ | ⟨rfl, -, hlen⟩
    · exact absurd (herrs ▸ hmem) List.not_mem_nil
    · exact iff_of_true ⟨_, rfl, rfl⟩ (by omega)

/-! ## I/O failures (R204, R209) -/

/-- Address `a` answered `ERR` to a command that found the block in `s` and left it in `t`: every byte from the old `POS`
to `a` answered, and the new one has not passed `a`. -/
structure StoppedAt (s t : State) (a : Nat) : Prop where
  err : a ∈ s.src.errs
  ahead : s.pos.toNat ≤ a
  notPassed : t.pos.toNat ≤ a
  readable : Readable s.src s.pos.toNat a

theorem completion_eq_ioFail {x : Exn} (h : x.completion = .ioFail) : x = .ioFailure := by
  cases x with
  | ioFailure => rfl
  | endOfStream | invalidHeader r | contract c => cases h

/-- A field read that raises the I/O failure was stopped by a byte of its field, and moved nothing (R80, R209). -/
theorem stoppedAt_of_readField_error {n : Nat} {s : State} (h : readField standard n s = .error .ioFailure) :
    ∃ a, StoppedAt s (raise .ioFailure s) a ∧ a < s.pos.toNat + (n - s.cnt.toNat + 7) / 8 := by
  rcases readField_cases standard n s with ⟨-, hok⟩ | ⟨x, a, herr, hlo, hhi, hr, hx⟩
  · rw [hok] at h; cases h
  · obtain rfl : x = .ioFailure := by simpa [herr] using h
    rcases hx with ⟨-, hmem⟩ | ⟨hne, -⟩
    · exact ⟨a, ⟨hmem, hlo, hlo, hr⟩, hhi⟩
    · cases hne

theorem readBitsRule_stoppedAt {n : Nat} {s : State} (h : (readBitsRule standard n s).ended = .ioFail) :
    ∃ a, StoppedAt s (readBitsRule standard n s) a ∧ a < s.pos.toNat + (n - s.cnt.toNat + 7) / 8 := by
  rcases readBitsRule_cases standard n s with ⟨-, e⟩ | ⟨-, e⟩ | ⟨-, -, v, s', -, e⟩ | ⟨-, -, x, hread, -, e⟩ <;>
    rw [e] at h ⊢
  · cases h
  · cases h
  · cases h
  · obtain rfl := completion_eq_ioFail h
    exact stoppedAt_of_readField_error hread

theorem decHdrRule_stoppedAt {s : State} (h : (decHdrRule standard s).ended = .ioFail) :
    ∃ a, StoppedAt s (decHdrRule standard s) a ∧ a < s.pos.toNat + 3 := by
  rcases decHdrRule_cases standard s with ⟨-, e⟩ | ⟨-, x, hread, -, e⟩ | ⟨-, w, s', -, e⟩ <;> rw [e] at h ⊢
  · cases h
  · obtain rfl := completion_eq_ioFail h
    obtain ⟨a, hstop, hlt⟩ := stoppedAt_of_readField_error hread
    exact ⟨a, hstop, by omega⟩
  · rcases loadHeader_cases standard w s' with ⟨r, -, e⟩ | ⟨hd, -, e⟩ <;> rw [e] at h <;> cases h

/-- The scan stands where it was stopped (R100, R102 (c)). -/
theorem findSyncRule_stoppedAt {s : State} (hs : CursorInv s) (h : (findSyncRule standard s).ended = .ioFail) :
    ∃ a, StoppedAt s (findSyncRule standard s) a ∧ a = (findSyncRule standard s).pos.toNat := by
  rcases findSyncRule_cases hs with ⟨-, e⟩ | ⟨q, -, -, e⟩ | e | ⟨q, hlo, hhi, hr, hmem, e⟩ <;> rw [e] at h ⊢
  · cases h
  · cases h
  · cases h
  · have hlen := hs.len_lt
    have hpos : (atBit (8 * q) s).pos.toNat = q := by rw [atBit_pos (by omega)]; omega
    exact ⟨q, ⟨hmem, hlo, hpos.le, hr⟩, hpos.symm⟩

/-- `DECL1` stands at a field boundary that the bytes before the failing one reach (R157). -/
theorem decL1Rule_stoppedAt {s : State} (hs : CursorInv s) (h : (decL1Rule standard s).ended = .ioFail) :
    ∃ a, StoppedAt s (decL1Rule standard s) a ∧ 8 * a < frameEnd s.src s.hdr s.bp := by
  rcases decL1Rule_at_cases hs with ⟨-, e⟩ | ⟨t, e, -⟩ |
    ⟨x, b, a, al, sc, sa, d, e, hb, ⟨-, hreach, -⟩, -, hframe, hr, hx⟩ <;> rw [e] at h ⊢
  · cases h
  · cases h
  · obtain rfl := completion_eq_ioFail h
    rcases hx with ⟨-, hmem⟩ | ⟨hne, -⟩
    · have hpos := hs.pos_eq
      have hnew : (BitVec.ofNat 64 ((b + 7) / 8)).toNat ≤ a := (Nat.mod_le _ _).trans hreach
      exact ⟨a, ⟨hmem, by omega, hnew, hr⟩, hframe⟩
    · cases hne

/-- Settles O36: which commands can end so is said once for all rules (`ruleOf_ends`), and each of the four names the
address that stopped it. -/
theorem ioFailureComesFromTheSource : Obligations.IoFailureComesFromTheSource := by
  intro i s t hrun h hio
  obtain rfl : ruleOf standard i s = t := by simpa [exec_running hrun] using h
  obtain ⟨u, c, e, hend⟩ := ruleOf_ends i s
  obtain ⟨hreads, -⟩ := hend.ioFail (by rw [← hio, e, finish_ended])
  refine ⟨hreads, fun hI => ?_⟩
  rcases hreads with rfl | rfl | rfl | ⟨n, rfl, -⟩
  · obtain ⟨a, ⟨herr, hlo, hpos, hr⟩, hat⟩ := findSyncRule_stoppedAt hI.cursorInv hio
    exact ⟨a, herr, hlo, hpos, hr, nofun, nofun, fun _ => hat, nofun⟩
  · obtain ⟨a, ⟨herr, hlo, hpos, hr⟩, hlt⟩ := decHdrRule_stoppedAt hio
    exact ⟨a, herr, hlo, hpos, hr, nofun, fun _ => hlt, nofun, nofun⟩
  · obtain ⟨a, ⟨herr, hlo, hpos, hr⟩, hlt⟩ := decL1Rule_stoppedAt hI.cursorInv hio
    exact ⟨a, herr, hlo, hpos, hr, nofun, nofun, nofun, fun _ => hlt⟩
  · obtain ⟨a, ⟨herr, hlo, hpos, hr⟩, hlt⟩ := readBitsRule_stoppedAt hio
    exact ⟨a, herr, hlo, hpos, hr, fun m hm => Instr.readBits.inj hm ▸ hlt, nofun, nofun, nofun⟩

/-! ## Contract violations (R63, R208) -/

/-- A rejected word is a contract violation (R63). -/
theorem rejectExn_eq_contract (r : Reject) : ∃ c, rejectExn r = .contract c := by
  cases r with
  | badOpcode => exact ⟨_, rfl⟩
  | badOperand => exact ⟨_, rfl⟩

/-- A command word that ends `CONTRACT` on a state of the block has raised the violation there and done nothing else. -/
theorem runWord_contract {w : CmdWord} {s t : State} {c : ContractReason} (hs : CursorInv s)
    (h : runWord w s = .next t) (hc : t.ended = .contract c) : t = raise (.contract c) s := by
  rcases runWord_cases h with ⟨-, rfl⟩ | ⟨-, r, rfl⟩ | ⟨-, i, rfl⟩
  · cases hc
  · obtain ⟨c', hr⟩ := rejectExn_eq_contract r
    rw [hr] at hc ⊢
    cases hc
    rfl
  · obtain ⟨u, x, e, hend⟩ := ruleOf_ends i s
    rw [e] at hc ⊢
    obtain rfl : x = .contract c := hc
    rw [hend.contract c rfl hs]
    rfl

/-- Settles O38: the violation is all the word did (`runWord_contract`), and it writes the three fields
(`raise_contract`). -/
theorem contractViolationsChangeNothingElse : Obligations.ContractViolationsChangeNothingElse := by
  intro s t w rest c hI hin h hc
  rw [step_of_command hin] at h
  rw [runWord_contract (hI.withInputs rest).cursorInv h hc, raise_contract]

end Sys2Proof.Machine
end

section
/-! PROOFS. Starting a run (R231): the new source is put in place and the block is reset on it, or the action is refused. -/

namespace Sys2Proof.Machine

/-- A step with a new run first in the host's list starts that run, the list advanced (R231). -/
theorem step_of_startRun {s : State} {src : Source} {rest : List HostAction} (h : s.inputs = .startRun src :: rest) :
    step s = startRun src { s with inputs := rest } := by
  rw [step, takeAction, h]

/-- A run on a source is a reset with that source in place. -/
theorem startRun_of_wf {src : Source} (h : src.wf = true) (s : State) :
    startRun src s = .next (applyReset { s with src := src }) := if_pos h

/-- What is no source starts no run (log entry 7). -/
theorem startRun_of_not_wf {src : Source} (h : src.wf = false) (s : State) :
    startRun src s = .refused .illegalSource := if_neg (Bool.eq_false_iff.1 h)

/-- Settles O3: on a source the new state is an `applyReset`, which keeps the source put in place and the host's list. -/
theorem startingARunResetsOnTheNewSource : Obligations.StartingARunResetsOnTheNewSource := by
  intro s src rest hin
  rw [step_of_startRun hin]
  constructor
  case left =>
    intro hwf
    exact ⟨_, startRun_of_wf hwf _, afterReset_applyReset _, rfl, rfl⟩
  case right =>
    intro hno
    exact startRun_of_not_wf hno _

end Sys2Proof.Machine
end
